-- ==== Sys2Proof/Word.lean ====
section
/-! DEFINITION. The fixed widths of FFXR: a buffer byte (00_scope R7), a bus word (20_memory R62), a cipher block
(00_scope R2) and a window offset (20_memory R62). A block is held as the 128-bit number whose big-endian bytes are the
block's bytes in order (20_memory R67; log 13). -/
namespace Sys2Proof

abbrev Byte := BitVec 8

abbrev Word := BitVec 32

/-- One 16-byte cipher block (R2), byte 0 in bits [127:120] (R67). -/
abbrev Block := BitVec 128

/-- A byte offset in the 2^18-byte register window (R62). -/
abbrev Offset := BitVec 18

end Sys2Proof
end

