-- ==== Sys2Proof/Config.lean ====
section
/-! DEFINITION. The implementation parameters of 00_scope R8 and the free values of the model. Every operation of the
machine takes a `Params`, so that it reads as the rules do for every legal instance; the machine itself is built at
`Config.params`, the defaults R8 takes, with an uninterpreted cipher. -/
namespace Sys2Proof

/-- The parameters of rule R8 that a rule of FFXR reads: the buffer sizes, the bus address of the window, and the
cipher function (R9). -/
structure Params where
  nMax : Nat
  tweakMax : Nat
  base : Nat
  /-- Single-block forward encryption: key bytes, block, block (R9). -/
  ciph : List Byte → Block → Block

/-- The legal values of rule R8. -/
structure Params.Legal (P : Params) : Prop where
  nMax_range : 4 ≤ P.nMax ∧ P.nMax ≤ 65532
  nMax_mult : P.nMax % 4 = 0
  tweakMax_range : P.tweakMax ≤ 65532
  tweakMax_mult : P.tweakMax % 4 = 0
  base_aligned : P.base % 2 ^ 18 = 0

/-- FREE VALUE. Ciph: rule R9 lets a model assume only that it is a function of key and block (log 5). -/
opaque Config.ciph : List Byte → Block → Block

/-- FREE VALUE. What the RAM holds in a buffer byte nothing has written, as a host read returns it: a draw (R50, R68),
applied to the counter `Env.draws` (log 7). -/
opaque Config.freeByte : Nat → Byte

/-- FREE VALUE. Which 2^18-aligned slot of the bus the platform puts the window in (R8, R62; log 14). -/
opaque Config.baseIndex : Nat

/-- The instance modelled: R8's default sizes, an open base, an uninterpreted cipher (log 5, 6, 14). -/
def Config.params : Params where
  nMax := 256
  tweakMax := 256
  base := Config.baseIndex * 2 ^ 18
  ciph := Config.ciph

end Sys2Proof
end

