-- ==== Sys2Proof/Syntax.lean ====
section
/-! DEFINITION. The commands of FFXR: one constructor per row of spec/opcode_table.json (30_encoding R80, R81, R86).
Every CW word carries ROUND, which is stored in CTRL whatever the command (10_state R33) and read by PRF only (R83). -/
namespace Sys2Proof

inductive Instr where
  /-- CMD 0x1, R180. -/
  | enc (round : BitVec 4)
  /-- CMD 0x2, R181. -/
  | dec (round : BitVec 4)
  /-- CMD 0x3, R182: ROUND is the round index. -/
  | prf (round : BitVec 4)
  /-- CMD 0x4, R183. -/
  | madd (round : BitVec 4)
  /-- CMD 0x5, R184. -/
  | msub (round : BitVec 4)
  /-- CMD 0x6, R185. -/
  | ivgen (round : BitVec 4)
  /-- CMD 0x0 or 0x7 to 0xF: accepted, then ends with ILLEGAL_COMMAND (R86, R220). -/
  | illegal (cmd round : BitVec 4)
  deriving DecidableEq, Repr

/-- CMD codes of rule R81. -/
abbrev Cmd.enc : BitVec 4 := 1#4
abbrev Cmd.dec : BitVec 4 := 2#4
abbrev Cmd.prf : BitVec 4 := 3#4
abbrev Cmd.madd : BitVec 4 := 4#4
abbrev Cmd.msub : BitVec 4 := 5#4
abbrev Cmd.ivgen : BitVec 4 := 6#4

/-- CW bits [7:4] of a command (R81). -/
def Instr.cmd : Instr → BitVec 4
  | .enc _ => Cmd.enc
  | .dec _ => Cmd.dec
  | .prf _ => Cmd.prf
  | .madd _ => Cmd.madd
  | .msub _ => Cmd.msub
  | .ivgen _ => Cmd.ivgen
  | .illegal c _ => c

/-- CW bits [11:8] of a command (R80, R83). -/
def Instr.round : Instr → BitVec 4
  | .enc r => r
  | .dec r => r
  | .prf r => r
  | .madd r => r
  | .msub r => r
  | .ivgen r => r
  | .illegal _ r => r

end Sys2Proof
end

