-- ==== Sys2Proof/Machine/State.lean ====
section
/-! DEFINITION. The state. `Device` is exactly the state tuple of 10_state R21; `Env` is the model's own data about the
agents outside FFXR (60_exceptions R231): who moves next, what the host will access, what the cipher engine will answer
(log 1, 2, 4, 7). `State` is the two together. -/
namespace Sys2Proof.Machine

/-- The sequencer phases (R22, R84). Codes 0xA to 0xF are never shown (R86), so they are no phase (log 11). -/
inductive Phase where
  | idle | check | load | hdr | mac | expand | reduce | add | sub | writeback
  deriving DecidableEq, Repr

/-- STATUS.ERRCODE (R220). Codes 0x9 to 0xF are never produced (R86). -/
inductive ErrorCode where
  | none | invalidKeyLength | invalidRadix | invalidSymbol | cipherFailure | illegalCommand | lengthRange
  | invalidRound
  /-- Assigned by R220 and never raised (R226). -/
  | overflow
  deriving DecidableEq, Repr

/-- The cipher engine's answer (R29). -/
inductive CipherResult where
  | ok (z : Block)
  | fail
  deriving DecidableEq, Repr

/-- The cipher port (R29, R66). -/
inductive Port where
  | free
  | req (key : List Byte) (x : Block)
  | rsp (res : CipherResult)
  deriving DecidableEq, Repr

/-- The byte buffers the host reaches through windows (R45, R60). -/
inductive Buf where
  | tweak | data | opb
  deriving DecidableEq, Repr

/-- A buffer's contents: (index, byte) pairs, indices strictly rising; an index that is not listed holds no value
(R45, R50). -/
abbrev Memory := List Host.Cell

/-- The state tuple of rule R21, component by component. -/
structure Device where
  /-- Sequencer phase (R22). -/
  phase : Phase
  /-- Latched command (R24). -/
  cmd : BitVec 4
  /-- Round index (R25). -/
  i : BitVec 4
  /-- Next CBC-MAC block (R26). -/
  k : BitVec 16
  /-- Next expansion block (R26). -/
  j : BitVec 16
  /-- Digit sequence A (R27). -/
  regA : List Nat
  /-- Digit sequence B (R27). -/
  regB : List Nat
  /-- Digit sequence F (R27). -/
  regF : List Nat
  /-- IV (R28). -/
  iv : Block
  /-- CBC-MAC chaining value Y (R28). -/
  y : Block
  /-- Key stream S (R28). -/
  strm : List Byte
  /-- Cipher port (R29). -/
  port : Port
  /-- CTRL.CMD (R33). -/
  ctrlCmd : BitVec 4
  /-- CTRL.ROUND (R33). -/
  ctrlRound : BitVec 4
  /-- STATUS.DONE (R34). -/
  done : Bool
  /-- STATUS.ERR (R34). -/
  err : Bool
  /-- STATUS.WBUSY (R34). -/
  wbusy : Bool
  /-- STATUS.ERRCODE (R34, R220). -/
  errcode : ErrorCode
  /-- INTEN bits [2:0]: WBUSY_IE, ERR_IE, DONE_IE (R35). -/
  inten : BitVec 3
  /-- RADIX[7:0] (R36). -/
  radix : BitVec 8
  /-- KEYLEN[5:0] (R37). -/
  keylen : BitVec 6
  /-- LEN[15:0] (R38). -/
  len : BitVec 16
  /-- TLEN[15:0] (R39). -/
  tlen : BitVec 16
  /-- ERRINFO[16:0]: BUF in bit 16, INDEX in bits [15:0] (R40). -/
  errinfo : BitVec 17
  /-- CIPHCNT (R41). -/
  ciphcnt : BitVec 32
  /-- The 32-byte key buffer (R42). -/
  key : Vector Byte 32
  /-- The TWEAK buffer (R45). -/
  tweak : Memory
  /-- The DATA buffer (R45). -/
  data : Memory
  /-- The OPB buffer (R45). -/
  opb : Memory
  deriving DecidableEq, Repr

/-- One line of a host script (R88): a write, a read, or a read repeated until it matches. -/
inductive HostOp where
  | write (o : Offset) (x : Word)
  | read (o : Offset)
  | poll (o : Offset) (mask val : Word)
  deriving DecidableEq, Repr

/-- Who takes the next step (R231, R250). -/
inductive Move where
  /-- The host makes its next access (R65, R70). -/
  | host
  /-- The controller takes its enabled step (R194). -/
  | controller
  /-- The cipher engine serves the port (R66). -/
  | engine
  /-- The reset input (R250). -/
  | reset
  /-- The host makes its next access and, where it starts a command, controller and engine run that command to its end
  before the host moves again: the command's whole effect in one move (R180 to R185, R267; log 3). -/
  | command
  deriving DecidableEq, Repr

/-- The cipher engine's draw for one answer (R66, R224). -/
inductive EngineDraw where
  | ok | fail
  deriving DecidableEq, Repr

/-- The agents outside FFXR, as data (log 1, 2, 4, 7). No component of R21. -/
structure Env where
  /-- Who moves at each coming step; when none is left, `defaultMove` decides (log 1). -/
  sched : List Move
  /-- The host's accesses not yet made, in order (R70, R88; log 2). -/
  script : List HostOp
  /-- The engine's draws for its coming answers; when none is left it answers Ok (log 4). -/
  engine : List EngineDraw
  /-- The word the host's last read returned (R68; log 2). -/
  rdata : Word
  /-- Counts the free bytes drawn so far (R50, R68; log 7). -/
  draws : Nat
  deriving DecidableEq, Repr

structure State where
  dev : Device
  env : Env
  deriving DecidableEq, Repr

/-- Why the model stops. The spec's own errors are no faults: they end a command in a next state (R222). Every
constructor but the first is unreachable from reset. -/
inductive Fault where
  /-- CHECK or MAC would read a buffer byte nothing has written since reset (R50, R221). Safe: hardware goes on with
  whatever the RAM holds. -/
  | unwrittenByte (b : Buf) (index : Nat)
  /-- STR would get x ≥ r^m (R102, R226). Raised by REDUCE, ADD, SUB. Safe: unreachable (R111). -/
  | overflow
  /-- The numeral of Q would not fit its b bytes (R104, R141). Raised by MAC. Safe: unreachable. -/
  | truncation
  /-- A state with no step in the table of R194. Raised by the controller. Safe: unreachable. -/
  | stuck
  /-- A controller access outside its buffer (R60). Raised by CHECK, LOAD, MAC, WRITEBACK. Safe: unreachable. -/
  | outOfBuffer
  /-- WRITEBACK would write a result that is not as long as R178 says. Safe: unreachable (R187). -/
  | resultLength
  /-- A merged command did not end within the step count of R195. Safe: unreachable. -/
  | unfinished
  deriving DecidableEq, Repr

/-- Refusals. No arm of exec uses one: every row of the opcode table has a meaning. -/
inductive Refusal where
  /-- Raised only by an arm of exec that has no meaning yet. Safe. -/
  | notModelled (mnemonic : String)
  deriving DecidableEq, Repr

/-- The reset value of every component (R251). -/
def Device.reset : Device where
  phase := .idle
  cmd := 0
  i := 0
  k := 0
  j := 0
  regA := []
  regB := []
  regF := []
  iv := 0
  y := 0
  strm := []
  port := .free
  ctrlCmd := 0
  ctrlRound := 0
  done := false
  err := false
  wbusy := false
  errcode := .none
  inten := 0
  radix := 0
  keylen := 0
  len := 0
  tlen := 0
  errinfo := 0
  ciphcnt := 0
  key := Vector.replicate 32 0
  tweak := []
  data := []
  opb := []

/-- Nothing scheduled, scripted or drawn (log 1, 2, 4, 7). -/
def Env.reset : Env where
  sched := []
  script := []
  engine := []
  rdata := 0
  draws := 0

/-- The machine right after reset (R251), with no host script loaded (R253; log 15). -/
def State.reset : State where
  dev := Device.reset
  env := Env.reset

end Sys2Proof.Machine
end

