-- ==== Sys2Proof/Machine/Radix.lean ====
section
/-! DEFINITION. Radix conversions and the modular radix adder and subtractor (40_radix_arith R100 to R112). Digit
sequences are lists of naturals, most significant first (10_state R27). -/
namespace Sys2Proof.Machine

/-- NUM_r(D) (R100). -/
def num (r : Nat) (ds : List Nat) : Nat := ds.foldl (fun acc x => acc * r + x) 0

/-- STR_r^m(x), least significant digit produced first (R101). -/
def str (r : Nat) : Nat → Nat → List Nat
  | 0, _ => []
  | m + 1, x => str r m (x / r) ++ [x % r]

/-- STR_r^m as a step evaluates it: x ≥ r^m is the Overflow of R102, which R226 makes a fault. -/
def strChecked (r m x : Nat) : Except Fault (List Nat) :=
  if x < r ^ m then .ok (str r m x) else .error .overflow

/-- NUM_256(S) (R103). -/
def num256 (s : List Byte) : Nat := num 256 (s.map BitVec.toNat)

/-- [x]^k: the low k bytes of x, big-endian (R104). -/
def bytesBE (k x : Nat) : List Byte := (str 256 k x).map (BitVec.ofNat 8)

/-- fixedLengthBytes(data, L, p) (R105). FFXR uses only its [x]^L form. -/
def fixedLengthBytes (data : List Byte) (l : Nat) (p : Byte) : List Byte :=
  if data.length ≤ l then List.replicate (l - data.length) p ++ data else data.drop (data.length - l)

/-- A block as its 16 bytes in order (R2, R67). -/
def blockBytes (z : Block) : List Byte := bytesBE 16 z.toNat

/-- The block of 16 bytes (R2, R67). -/
def blockOf (s : List Byte) : Block := BitVec.ofNat 128 (num256 s)

/-- c is a digit of radix r (R106). -/
def validDigit (r c : Nat) : Bool := decide (c < r)

/-- (NUM X + NUM Y) mod r^L (R108). -/
def raddNum (r l : Nat) (x y : List Nat) : Nat := (num r x + num r y) % r ^ l

/-- (NUM X - NUM Y) mod r^L, the least non-negative residue (R109). -/
def rsubNum (r l : Nat) (x y : List Nat) : Nat := (((num r x : Int) - num r y) % ((r ^ l : Nat) : Int)).toNat

/-- RADD (R108). -/
def radd (r l : Nat) (x y : List Nat) : List Nat := str r l (raddNum r l x y)

/-- RSUB (R109). -/
def rsub (r l : Nat) (x y : List Nat) : List Nat := str r l (rsubNum r l x y)

/-- RADD as the ADD step evaluates it (R108, R226). -/
def raddStep (r l : Nat) (x y : List Nat) : Except Fault (List Nat) := strChecked r l (raddNum r l x y)

/-- RSUB as the SUB step evaluates it (R109, R226). -/
def rsubStep (r l : Nat) (x y : List Nat) : Except Fault (List Nat) := strChecked r l (rsubNum r l x y)

/-- The digit-serial adder of R110 over digits least significant first, with its carry. -/
def addSerialLsb (r : Nat) : Nat → List Nat → List Nat → List Nat
  | c, x :: xs, y :: ys => (x + y + c) % r :: addSerialLsb r ((x + y + c) / r) xs ys
  | _, _, _ => []

/-- The digit-serial subtractor of R110 over digits least significant first, with its borrow. -/
def subSerialLsb (r : Nat) : Nat → List Nat → List Nat → List Nat
  | br, x :: xs, y :: ys =>
    if x < y + br then (x + r - y - br) :: subSerialLsb r 1 xs ys else (x - y - br) :: subSerialLsb r 0 xs ys
  | _, _, _ => []

/-- RADD digit by digit, final carry discarded (R110). -/
def raddSerial (r : Nat) (x y : List Nat) : List Nat := (addSerialLsb r 0 x.reverse y.reverse).reverse

/-- RSUB digit by digit, final borrow discarded (R110). -/
def rsubSerial (r : Nat) (x y : List Nat) : List Nat := (subSerialLsb r 0 x.reverse y.reverse).reverse

end Sys2Proof.Machine
end

