-- ==== Sys2Proof/Machine/Operands.lean ====
section
/-! DEFINITION. The operands of commands and steps: the derived quantities of 10_state R49, first as functions of
(n, r, t) by 41_round_function R131 to R139, then of the state; the header P (R133), the PRF input Q (R135) and the
round input half H (42_feistel_controller R171). -/
namespace Sys2Proof.Machine

/-- u = ⌊n/2⌋ (R49). -/
def uOf (n : Nat) : Nat := n / 2

/-- v = n − u (R49). -/
def vOf (n : Nat) : Nat := n - n / 2

/-- The least k ≥ 0 with 2^k ≥ x. -/
def ceilLog2 (x : Nat) : Nat := if x ≤ 1 then 0 else Nat.log2 (x - 1) + 1

/-- BITS(v, r): the least k ≥ 0 with 2^k ≥ r^v (R131). -/
def bits (v r : Nat) : Nat := ceilLog2 (r ^ v)

/-- b = ⌈BITS(v, r)/8⌉ (R131). -/
def bOf (n r : Nat) : Nat := (bits (vOf n) r + 7) / 8

/-- d = 4·⌈b/4⌉ (R132). -/
def dOf (n r : Nat) : Nat := 4 * ((bOf n r + 3) / 4)

/-- pad = (−t − b − 1) mod 16 (R135). -/
def padOf (n r t : Nat) : Nat := ((-(t : Int) - (bOf n r : Int) - 1) % 16).toNat

/-- q = len(Q)/16 (R136). -/
def qOf (n r t : Nat) : Nat := (t + padOf n r t + 1 + bOf n r) / 16

/-- e = ⌈(d + 4)/16⌉ − 1 (R138). -/
def eOf (n r : Nat) : Nat := (dOf n r + 4 + 15) / 16 - 1

/-- m(i) = v if i is odd, else u (R139). -/
def mOf (n i : Nat) : Nat := if i % 2 = 1 then vOf n else uOf n

/-- w = v if i is even, else u: the length of PRF's input half (R49, R182). -/
def wOf (n i : Nat) : Nat := if i % 2 = 0 then vOf n else uOf n

/-- The static header P as its 16 bytes (R133). -/
def headerBytes (r n t : Nat) : List Byte :=
  bytesBE 1 1 ++ bytesBE 1 2 ++ bytesBE 1 1 ++ bytesBE 1 0 ++ bytesBE 1 0 ++ bytesBE 1 r ++ bytesBE 1 10
    ++ bytesBE 1 (uOf n % 256) ++ bytesBE 4 n ++ bytesBE 4 t

/-- The static header P (R133). -/
def header (r n t : Nat) : Block := blockOf (headerBytes r n t)

/-- Q after the tweak: 0^pad, the round index, the numeral of H (R135). -/
def qTail (n r t i : Nat) (h : List Nat) : List Byte :=
  List.replicate (padOf n r t) 0 ++ bytesBE 1 i ++ bytesBE (bOf n r) (num r h)

/-- The PRF input Q of round i over half H (R135). -/
def qString (tw : List Byte) (n r i : Nat) (h : List Nat) : List Byte := tw ++ qTail n r tw.length i h

/-- A byte of a word: byte c is in bits [31−8c : 24−8c] (R61). -/
def wordByte (x : Word) (c : Nat) : Byte := x.extractLsb' (24 - 8 * c) 8

/-- The word of four bytes, big-endian (R61). -/
def packWord (b0 b1 b2 b3 : Byte) : Word := b0 ++ b1 ++ b2 ++ b3

/-- Word w of a block, as IVRw and YRw show it (R43, R44). -/
def blockWord (z : Block) (w : Nat) : Word := z.extractLsb' (96 - 32 * w) 32

/-- r = RADIX[7:0] (R49). -/
def Device.rVal (d : Device) : Nat := d.radix.toNat

/-- n = LEN[15:0] (R49). -/
def Device.nVal (d : Device) : Nat := d.len.toNat

/-- t = TLEN[15:0] (R49). -/
def Device.tVal (d : Device) : Nat := d.tlen.toNat

/-- The command's round index register i (R25). -/
def Device.iVal (d : Device) : Nat := d.i.toNat

/-- K = KEY[0 ..< KEYLEN] (R42, R49). -/
def Device.keyBytes (d : Device) : List Byte := d.key.toList.take d.keylen.toNat

/-- u (R49). -/
def Device.uVal (d : Device) : Nat := uOf d.nVal

/-- v (R49). -/
def Device.vVal (d : Device) : Nat := vOf d.nVal

/-- w, from CTRL.ROUND (R49). -/
def Device.wVal (d : Device) : Nat := wOf d.nVal d.ctrlRound.toNat

/-- b (R49, R131). -/
def Device.bVal (d : Device) : Nat := bOf d.nVal d.rVal

/-- d (R49, R132). -/
def Device.dVal (d : Device) : Nat := dOf d.nVal d.rVal

/-- q (R49, R136). -/
def Device.qVal (d : Device) : Nat := qOf d.nVal d.rVal d.tVal

/-- e (R49, R138). -/
def Device.eVal (d : Device) : Nat := eOf d.nVal d.rVal

/-- m(i) for the current round (R49, R139). -/
def Device.mVal (d : Device) : Nat := mOf d.nVal d.iVal

/-- dir(cmd) = DEC (R24). -/
def isDec (c : BitVec 4) : Bool := c == Cmd.dec

/-- The commands whose header P carries the key and the tweak length: ENC, DEC, PRF, IVGEN (R221). -/
def usesCipher (c : BitVec 4) : Bool := c == Cmd.enc || c == Cmd.dec || c == Cmd.prf || c == Cmd.ivgen

/-- The round input half H (R171). -/
def Device.half (d : Device) : List Nat := if isDec d.cmd then d.regA else d.regB

end Sys2Proof.Machine
end

