-- ==== Sys2Proof/Machine/Flags.lean ====
section
/-! DEFINITION. The flags and the words the host reads them through: phase and error codes (30_encoding R84,
60_exceptions R220), STATUS and its W1C write (10_state R34, R48), the irq level (R46, 60_exceptions R229), and the
words of CTRL, ERRINFO and CAP (R32, R33, R40). -/
namespace Sys2Proof.Machine

/-- STATUS.PHASE codes (R84). -/
def Phase.code : Phase → BitVec 4
  | .idle => 0x0#4
  | .check => 0x1#4
  | .load => 0x2#4
  | .hdr => 0x3#4
  | .mac => 0x4#4
  | .expand => 0x5#4
  | .reduce => 0x6#4
  | .add => 0x7#4
  | .sub => 0x8#4
  | .writeback => 0x9#4

/-- STATUS.ERRCODE codes (R220). -/
def ErrorCode.code : ErrorCode → BitVec 4
  | .none => 0x0#4
  | .invalidKeyLength => 0x1#4
  | .invalidRadix => 0x2#4
  | .invalidSymbol => 0x3#4
  | .cipherFailure => 0x4#4
  | .illegalCommand => 0x5#4
  | .lengthRange => 0x6#4
  | .invalidRound => 0x7#4
  | .overflow => 0x8#4

/-- FFXR is busy exactly when phase ≠ IDLE (R22). -/
def Device.busy (d : Device) : Bool := d.phase != .idle

def flagBit (b : Bool) : BitVec 1 := if b then 1#1 else 0#1

/-- STATUS: RIDX [23:20], PHASE [19:16], ERRCODE [11:8], WBUSY 3, ERR 2, DONE 1, BUSY 0 (R34). -/
def Device.statusWord (d : Device) : Word :=
  0#8 ++ d.i ++ d.phase.code ++ 0#4 ++ d.errcode.code ++ 0#4 ++ flagBit d.wbusy ++ flagBit d.err ++ flagBit d.done
    ++ flagBit d.busy

/-- CTRL reads ROUND<<8 | CMD<<4 (R33). -/
def Device.ctrlWord (d : Device) : Word := 0#20 ++ d.ctrlRound ++ d.ctrlCmd ++ 0#4

/-- ID (R31). -/
def idWord : Word := 0x46465852#32

/-- CAP: TWEAK_MAX [31:16], N_MAX [15:0] (R32). -/
def capWord (P : Params) : Word := BitVec.ofNat 16 P.tweakMax ++ BitVec.ofNat 16 P.nMax

/-- A W1C write of STATUS clears the flags written as 1 and nothing else (R34). -/
def Device.clearFlags (x : Word) (d : Device) : Device :=
  { d with
    done := d.done && !x.getLsbD 1
    err := d.err && !x.getLsbD 2
    wbusy := d.wbusy && !x.getLsbD 3 }

/-- The irq output, a level (R46, R229). -/
def Device.irq (d : Device) : Bool :=
  (d.done && d.inten.getLsbD 0) || (d.err && d.inten.getLsbD 1) || (d.wbusy && d.inten.getLsbD 2)

/-- ERRINFO for an invalid symbol: BUF in bit 16 (0 DATA, 1 OPB), INDEX in bits [15:0] (R40). -/
def symbolInfo (b : Buf) (index : Nat) : BitVec 17 :=
  flagBit (b == .opb) ++ BitVec.ofNat 16 index

end Sys2Proof.Machine
end

