-- ==== Sys2Proof/Machine/Ops.lean ====
section
/-! DEFINITION. The named operations of the machine: buffer memory, the controller's bounded buffer accesses
(20_memory R60), the cipher port (R66), START (42_feistel_controller R170), the successful end complete() (R179) and
the error end raise (60_exceptions R222), which is FFXR's one form of taking an exception. There is no return from it
(R227): the next START or a W1C write of STATUS ends the error condition. -/
namespace Sys2Proof.Machine

/-! ### Buffer memory (R45, R50) -/

/-- What an unlisted index reads as: no value (R50). -/
def Memory.unlisted : Option Byte := none

/-- The byte at an index, if it has a value (R50). -/
def Memory.read : Memory → Nat → Option Byte
  | [], _ => Memory.unlisted
  | (b, v) :: m, a => if a = b then some v else Memory.read m a

/-- Gives the byte at an index a value, keeping the indices rising. -/
def Memory.write : Memory → Nat → Byte → Memory
  | [], a, v => [(a, v)]
  | (b, w) :: m, a, v =>
    if a < b then (a, v) :: (b, w) :: m
    else if a = b then (a, v) :: m
    else (b, w) :: Memory.write m a v

/-- All listed indices are at least `lo` and strictly rising. -/
def Memory.wfFrom : Nat → Memory → Bool
  | _, [] => true
  | lo, (a, _) :: m => decide (lo ≤ a) && Memory.wfFrom (a + 1) m

/-- The canonical form: indices strictly rising. An unlisted byte has no value, so every entry differs from it. -/
def Memory.wf (m : Memory) : Bool := Memory.wfFrom 0 m

/-- Every listed index lies below a size. -/
def Memory.below (size : Nat) (m : Memory) : Bool := m.all fun c => decide (c.1 < size)

/-- Writes bytes at rising indices. -/
def Memory.writeBytes : Memory → Nat → List Byte → Memory
  | m, _, [] => m
  | m, a, v :: vs => Memory.writeBytes (Memory.write m a v) (a + 1) vs

/-- Reads n bytes; the first byte without a value is the fault of R50. -/
def Memory.readBytes (bf : Buf) (m : Memory) : Nat → Nat → Except Fault (List Byte)
  | _, 0 => .ok []
  | a, n + 1 =>
    match Memory.read m a with
    | none => .error (.unwrittenByte bf a)
    | some v =>
      match Memory.readBytes bf m (a + 1) n with
      | .error f => .error f
      | .ok vs => .ok (v :: vs)

/-- Buffer sizes (R45). -/
def Params.size (P : Params) : Buf → Nat
  | .tweak => P.tweakMax
  | .data => P.nMax
  | .opb => P.nMax

def Device.buf (d : Device) : Buf → Memory
  | .tweak => d.tweak
  | .data => d.data
  | .opb => d.opb

def Device.setBuf (d : Device) (b : Buf) (m : Memory) : Device :=
  match b with
  | .tweak => { d with tweak := m }
  | .data => { d with data := m }
  | .opb => { d with opb := m }

/-- MemRead(space, addr, n) (R60). -/
def memRead (P : Params) (d : Device) (b : Buf) (a n : Nat) : Except Fault (List Byte) :=
  if a + n ≤ Params.size P b then Memory.readBytes b (d.buf b) a n else .error .outOfBuffer

/-- MemWrite(space, addr, n, v) (R60); the value must have the length n that the rule gives (R178). -/
def memWrite (P : Params) (d : Device) (b : Buf) (a n : Nat) (v : List Byte) : Except Fault Device :=
  if v.length = n then
    if a + n ≤ Params.size P b then .ok (d.setBuf b (Memory.writeBytes (d.buf b) a v)) else .error .outOfBuffer
  else .error .resultLength

/-- Bytes taken as digits (R7, R173). -/
def digitsOf (s : List Byte) : List Nat := s.map BitVec.toNat

/-- Digits written one per byte (R7, R178; log 22). -/
def digitBytes (ds : List Nat) : List Byte := ds.map (BitVec.ofNat 8)

/-! ### The key buffer (R42) -/

/-- A write of x to KEYw sets KEY[4w+c] = x[31−8c : 24−8c] for c = 0..3 (R42). -/
def setKeyWord (w : Nat) (x : Word) (key : Vector Byte 32) : Vector Byte 32 :=
  Vector.ofFn fun p => if p.val / 4 = w then wordByte x (p.val % 4) else key[p]

/-! ### Ends of a command -/

/-- complete() (R179). -/
def Device.complete (d : Device) : Device := { d with phase := .idle, done := true, errcode := .none }

/-- raise Error(code, info): the error end of a command (R222). -/
def Device.raise (code : ErrorCode) (info : BitVec 17) (d : Device) : Device :=
  { d with
    phase := .idle
    err := true
    errcode := code
    errinfo := if code = .invalidSymbol then info else d.errinfo }

/-! ### START (R170) -/

/-- A CTRL write while idle stores CMD and ROUND (R33, R170). -/
def Device.storeCtrl (c rd : BitVec 4) (d : Device) : Device := { d with ctrlCmd := c, ctrlRound := rd }

/-- An accepted START of command c with ROUND rd (R170). -/
def Device.start (c rd : BitVec 4) (d : Device) : Device :=
  { d with
    ctrlCmd := c
    ctrlRound := rd
    cmd := c
    done := false
    err := false
    errcode := .none
    errinfo := 0
    ciphcnt := 0
    phase := .check }

/-- A dropped write of a protected register while busy (R47). -/
def Device.dropWrite (d : Device) : Device := { d with wbusy := true }

/-! ### The cipher port (R66) -/

/-- issue(X) (R66). -/
def Device.issue (x : Block) (d : Device) : Device :=
  { d with port := .req d.keyBytes x, ciphcnt := d.ciphcnt + 1 }

/-- The port after the consume half of a call (R66). -/
def Device.freePort (d : Device) : Device := { d with port := .free }

/-- serve: the engine's step, enabled only on a request (R66). -/
def Device.serve (P : Params) (a : EngineDraw) (d : Device) : Device :=
  match d.port with
  | .req key x => { d with port := .rsp (match a with | .ok => .ok (P.ciph key x) | .fail => .fail) }
  | .free => d
  | .rsp _ => d

end Sys2Proof.Machine
end

