-- ==== Sys2Proof/Machine/RoundFunction.lean ====
section
/-! DEFINITION. The phase steps of the round function (41_round_function R145 to R151): HDR, MAC and EXPAND, each an
issue and a consume step on the cipher port, and REDUCE. -/
namespace Sys2Proof.Machine

/-- HDR, issue (R145). -/
def hdrIssue (d : Device) : Device := d.issue (header d.rVal d.nVal d.tVal)

/-- HDR, consume (R146). -/
def hdrConsume (res : CipherResult) (d : Device) : Device :=
  match res with
  | .fail => (d.freePort).raise .cipherFailure 0
  | .ok z =>
    if d.cmd = Cmd.ivgen then { d.freePort with iv := z }.complete
    else { d.freePort with iv := z, y := z, k := 1, phase := .mac }

/-- Block k of Q (R135, R136), read from TWEAK and H as the step needs it (R147; log 9). Outside 1 ≤ k ≤ q there is no
such block; a numeral that does not fit is the fault of R141. -/
def qBlockBytes (P : Params) (d : Device) : Except Fault (List Byte) :=
  let k := d.k.toNat
  let t := d.tVal
  let a := 16 * (k - 1)
  let nTweak := min 16 (t - a)
  if 1 ≤ k ∧ k ≤ d.qVal then
    if num d.rVal d.half < 256 ^ d.bVal then
      match memRead P d .tweak (min a t) nTweak with
      | .error f => .error f
      | .ok tw => .ok (tw ++ ((qTail d.nVal d.rVal t d.iVal d.half).drop (a - t)).take (16 - nTweak))
    else .error .truncation
  else .error .stuck

/-- MAC, issue (R147). -/
def macIssue (P : Params) (d : Device) : Except Fault Device :=
  match qBlockBytes P d with
  | .error f => .error f
  | .ok s => .ok (d.issue (d.y ^^^ blockOf s))

/-- MAC, consume (R148). -/
def macConsume (res : CipherResult) (d : Device) : Device :=
  match res with
  | .fail => (d.freePort).raise .cipherFailure 0
  | .ok z =>
    if d.k.toNat < d.qVal then { d.freePort with y := z, k := d.k + 1 }
    else if d.eVal = 0 then { d.freePort with y := z, strm := blockBytes z, phase := .reduce }
    else { d.freePort with y := z, strm := blockBytes z, j := 1, phase := .expand }

/-- EXPAND, issue (R149). -/
def expandIssue (d : Device) : Device := d.issue (d.y ^^^ blockOf (bytesBE 16 d.j.toNat))

/-- EXPAND, consume (R150). -/
def expandConsume (res : CipherResult) (d : Device) : Device :=
  match res with
  | .fail => (d.freePort).raise .cipherFailure 0
  | .ok z =>
    if d.j.toNat < d.eVal then { d.freePort with strm := d.strm ++ blockBytes z, j := d.j + 1 }
    else { d.freePort with strm := d.strm ++ blockBytes z, phase := .reduce }

/-- The phase that follows REDUCE (R151). -/
def afterReduce (c : BitVec 4) : Phase :=
  if c = Cmd.prf then .writeback else if isDec c then .sub else .add

/-- REDUCE (R151). -/
def reduceStep (d : Device) : Except Fault Device :=
  let s := d.strm.take (d.dVal + 4)
  match strChecked d.rVal d.mVal (num256 s % d.rVal ^ d.mVal) with
  | .error f => .error f
  | .ok f => .ok { d with strm := s, regF := f, phase := afterReduce d.cmd }

end Sys2Proof.Machine
end

