-- ==== Sys2Proof/WellFormed.lean ====
section
/-! DEFINITION. Which terms of `Instr` stand for a CW word. The only check is that `illegal` carries a CMD code that is
none of the six commands (30_encoding R86); every ROUND value is well formed for every command, since ROUND 10 to 15
has a defined outcome (93 U13). -/
namespace Sys2Proof

/-- The CMD codes that are commands (R81): 1 to 6. -/
def isCommand (c : BitVec 4) : Bool := 1#4 ≤ c && c ≤ 6#4

def Instr.wf : Instr → Bool
  | .enc _ => true
  | .dec _ => true
  | .prf _ => true
  | .madd _ => true
  | .msub _ => true
  | .ivgen _ => true
  | .illegal c _ => !isCommand c

end Sys2Proof
end

