-- ==== Sys2Proof/Machine/Feistel.lean ====
section
/-! DEFINITION. The controller steps of 42_feistel_controller: CHECK (R172 with 60_exceptions R221), LOAD (R173), ADD
and SUB (R174 to R177) and WRITEBACK (R178). Each command's share of LOAD, ADD, SUB and WRITEBACK is a definition of
its own. -/
namespace Sys2Proof.Machine

/-! ### CHECK -/

/-- Conditions 1 to 7 of R221 in their order: the error of the first that holds. -/
def registerError (P : Params) (d : Device) : Option ErrorCode :=
  if !(isCommand d.cmd) then some .illegalCommand
  else if usesCipher d.cmd ∧ d.keylen ≠ 16 ∧ d.keylen ≠ 24 ∧ d.keylen ≠ 32 then some .invalidKeyLength
  else if d.rVal < 2 ∨ 62 < d.rVal then some .invalidRadix
  else if P.nMax < d.nVal then some .lengthRange
  else if usesCipher d.cmd ∧ P.tweakMax < d.tVal then some .lengthRange
  else if d.cmd = Cmd.prf ∧ d.nVal = 0 then some .lengthRange
  else if d.cmd = Cmd.prf ∧ 9 < d.ctrlRound.toNat then some .invalidRound
  else none

/-- The scan of buffer bytes a, a+1, … (n of them): the first invalid symbol's index, or none; a byte without a value is
the fault of R50 (R221). -/
def scanFrom (bf : Buf) (m : Memory) (r : Nat) : Nat → Nat → Except Fault (Option Nat)
  | _, 0 => .ok none
  | a, n + 1 =>
    match Memory.read m a with
    | none => .error (.unwrittenByte bf a)
    | some c => if validDigit r c.toNat then scanFrom bf m r (a + 1) n else .ok (some a)

/-- The scan of the first n bytes of a buffer (R221), inside its bounds (R60). -/
def scanBuf (P : Params) (d : Device) (bf : Buf) (n : Nat) : Except Fault (Option (BitVec 17)) :=
  if n ≤ Params.size P bf then
    match scanFrom bf (d.buf bf) d.rVal 0 n with
    | .error f => .error f
    | .ok none => .ok none
    | .ok (some a) => .ok (some (symbolInfo bf a))
  else .error .outOfBuffer

/-- Condition 8 of R221: DATA for ENC and DEC, DATA and then OPB for MADD and MSUB, DATA[0 ..< w] for PRF, nothing for
IVGEN. -/
def symbolScan (P : Params) (d : Device) : Except Fault (Option (BitVec 17)) :=
  if d.cmd = Cmd.enc ∨ d.cmd = Cmd.dec then scanBuf P d .data d.nVal
  else if d.cmd = Cmd.madd ∨ d.cmd = Cmd.msub then
    match scanBuf P d .data d.nVal with
    | .error f => .error f
    | .ok (some info) => .ok (some info)
    | .ok none => scanBuf P d .opb d.nVal
  else if d.cmd = Cmd.prf then scanBuf P d .data d.wVal
  else .ok none

/-- Where CHECK goes once every check has passed (R172). -/
def checkPassed (d : Device) : Device :=
  if d.nVal = 0 ∧ (d.cmd = Cmd.enc ∨ d.cmd = Cmd.dec ∨ d.cmd = Cmd.madd ∨ d.cmd = Cmd.msub) then d.complete
  else if d.cmd = Cmd.ivgen then { d with phase := .hdr }
  else { d with phase := .load }

/-- CHECK (R172). -/
def checkStep (P : Params) (d : Device) : Except Fault Device :=
  match registerError P d with
  | some code => .ok (d.raise code 0)
  | none =>
    match symbolScan P d with
    | .error f => .error f
    | .ok (some info) => .ok (d.raise .invalidSymbol info)
    | .ok none => .ok (checkPassed d)

/-! ### LOAD -/

/-- The split of DATA into A and B for ENC and DEC (R173). -/
def loadSplit (P : Params) (d : Device) : Except Fault Device :=
  match memRead P d .data 0 d.uVal with
  | .error f => .error f
  | .ok a =>
    match memRead P d .data d.uVal d.vVal with
    | .error f => .error f
    | .ok b => .ok { d with regA := digitsOf a, regB := digitsOf b, regF := [], phase := .hdr }

/-- LOAD of ENC (R173). -/
def loadEnc (P : Params) (d : Device) : Except Fault Device := loadSplit P { d with i := 0 }

/-- LOAD of DEC (R173). -/
def loadDec (P : Params) (d : Device) : Except Fault Device := loadSplit P { d with i := 9 }

/-- LOAD of PRF (R173). -/
def loadPrf (P : Params) (d : Device) : Except Fault Device :=
  match memRead P d .data 0 d.wVal with
  | .error f => .error f
  | .ok b => .ok { d with i := d.ctrlRound, regB := digitsOf b, regA := [], regF := [], phase := .hdr }

/-- The operands of MADD and MSUB, and the phase that uses them (R173). -/
def loadPair (P : Params) (ph : Phase) (d : Device) : Except Fault Device :=
  match memRead P d .data 0 d.nVal with
  | .error f => .error f
  | .ok a =>
    match memRead P d .opb 0 d.nVal with
    | .error f => .error f
    | .ok b => .ok { d with regA := digitsOf a, regF := digitsOf b, regB := [], phase := ph }

/-- LOAD of MADD (R173). -/
def loadMadd (P : Params) (d : Device) : Except Fault Device := loadPair P .add d

/-- LOAD of MSUB (R173). -/
def loadMsub (P : Params) (d : Device) : Except Fault Device := loadPair P .sub d

/-- LOAD (R173). Any other command is not reachable here (R194). -/
def loadStep (P : Params) (d : Device) : Except Fault Device :=
  if d.cmd = Cmd.enc then loadEnc P d
  else if d.cmd = Cmd.dec then loadDec P d
  else if d.cmd = Cmd.prf then loadPrf P d
  else if d.cmd = Cmd.madd then loadMadd P d
  else if d.cmd = Cmd.msub then loadMsub P d
  else .error .stuck

/-! ### ADD and SUB -/

/-- ADD for MADD (R174). -/
def addMadd (d : Device) : Except Fault Device :=
  match raddStep d.rVal d.nVal d.regA d.regF with
  | .error f => .error f
  | .ok a => .ok { d with regA := a, phase := .writeback }

/-- SUB for MSUB (R175). -/
def subMsub (d : Device) : Except Fault Device :=
  match rsubStep d.rVal d.nVal d.regA d.regF with
  | .error f => .error f
  | .ok a => .ok { d with regA := a, phase := .writeback }

/-- The start of the next round's MAC chain from IV (R176, R177, R193). -/
def Device.nextRound (i : BitVec 4) (d : Device) : Device := { d with i := i, y := d.iv, k := 1, phase := .mac }

/-- ADD of an encryption round (R176). -/
def addEnc (d : Device) : Except Fault Device :=
  match raddStep d.rVal d.regA.length d.regA d.regF with
  | .error f => .error f
  | .ok c =>
    let e := { d with regA := d.regB, regB := c }
    .ok (if d.i.toNat < 9 then e.nextRound (d.i + 1) else { e with phase := .writeback })

/-- SUB of a decryption round (R177). -/
def subDec (d : Device) : Except Fault Device :=
  match rsubStep d.rVal d.regB.length d.regB d.regF with
  | .error f => .error f
  | .ok c =>
    let e := { d with regB := d.regA, regA := c }
    .ok (if 0 < d.i.toNat then e.nextRound (d.i - 1) else { e with phase := .writeback })

/-- ADD: MADD or an encryption round; any other command is unreachable here (R194). -/
def addStep (d : Device) : Except Fault Device :=
  if d.cmd = Cmd.madd then addMadd d else if d.cmd = Cmd.enc then addEnc d else .error .stuck

/-- SUB: MSUB or a decryption round; any other command is unreachable here (R194). -/
def subStep (d : Device) : Except Fault Device :=
  if d.cmd = Cmd.msub then subMsub d else if d.cmd = Cmd.dec then subDec d else .error .stuck

/-! ### WRITEBACK -/

/-- MemWrite of a result, then complete(), in one step (R178, R179). -/
def writeResult (P : Params) (b : Buf) (n : Nat) (v : List Nat) (d : Device) : Except Fault Device :=
  match memWrite P d b 0 n (digitBytes v) with
  | .error f => .error f
  | .ok d' => .ok d'.complete

/-- WRITEBACK of ENC and DEC (R178). -/
def writeHalves (P : Params) (d : Device) : Except Fault Device := writeResult P .data d.nVal (d.regA ++ d.regB) d

/-- WRITEBACK of PRF (R178). -/
def writePrf (P : Params) (d : Device) : Except Fault Device := writeResult P .opb d.mVal d.regF d

/-- WRITEBACK of MADD and MSUB (R178). -/
def writeSum (P : Params) (d : Device) : Except Fault Device := writeResult P .data d.nVal d.regA d

/-- WRITEBACK (R178). Any other command is not reachable here (R194). -/
def writebackStep (P : Params) (d : Device) : Except Fault Device :=
  if d.cmd = Cmd.enc ∨ d.cmd = Cmd.dec then writeHalves P d
  else if d.cmd = Cmd.prf then writePrf P d
  else if d.cmd = Cmd.madd ∨ d.cmd = Cmd.msub then writeSum P d
  else .error .stuck

end Sys2Proof.Machine
end

