-- ==== Sys2Proof/Machine/Controller.lean ====
section
/-! DEFINITION. The controller's step table (42_feistel_controller R194), the cipher engine's step (20_memory R66), and
a command taken as one merged move: START acceptance and then controller and engine steps until the command ends
(R180 to R185, 70_reset_and_hazards R267; log 3). -/
namespace Sys2Proof.Machine

/-- The controller's step (R194). IDLE has none, and while the port is Req the controller holds; both leave the state
as it is. A pair (phase, port) outside the table is unreachable and stuck (log 11). -/
def ctlStep (P : Params) (d : Device) : Except Fault Device :=
  match d.phase, d.port with
  | .idle, _ => .ok d
  | _, .req _ _ => .ok d
  | .check, .free => checkStep P d
  | .load, .free => loadStep P d
  | .hdr, .free => .ok (hdrIssue d)
  | .hdr, .rsp res => .ok (hdrConsume res d)
  | .mac, .free => macIssue P d
  | .mac, .rsp res => .ok (macConsume res d)
  | .expand, .free => .ok (expandIssue d)
  | .expand, .rsp res => .ok (expandConsume res d)
  | .reduce, .free => reduceStep d
  | .add, .free => addStep d
  | .sub, .free => subStep d
  | .writeback, .free => writebackStep P d
  | _, .rsp _ => .error .stuck

/-- The port holds a request: the engine's step is enabled, and only the engine's (R66). -/
def Device.waiting (d : Device) : Bool :=
  match d.port with
  | .req _ _ => true
  | .free => false
  | .rsp _ => false

/-- The controller moves. -/
def controllerMove (P : Params) (s : State) : Except Fault State :=
  match ctlStep P s.dev with
  | .error f => .error f
  | .ok d => .ok { s with dev := d }

/-- The engine's next draw: the head of its list, Ok when the list is used up (log 4). -/
def Env.nextDraw (v : Env) : EngineDraw := v.engine.headD .ok

/-- The cipher engine moves: it serves a request with its next draw, and has no step otherwise (R66). -/
def engineMove (P : Params) (s : State) : State :=
  if s.dev.waiting then
    { s with dev := s.dev.serve P s.env.nextDraw, env := { s.env with engine := s.env.engine.tail } }
  else s

/-- The one agent of controller and engine that has a step while a command runs (R66, R194). -/
def advance (P : Params) (s : State) : Except Fault State :=
  if s.dev.waiting then .ok (engineMove P s) else controllerMove P s

/-- Controller and engine steps until FFXR is idle, at most `fuel` of them. -/
def runToIdle (P : Params) : Nat → State → Except Fault State
  | 0, s => if s.dev.busy then .error .unfinished else .ok s
  | fuel + 1, s =>
    if s.dev.busy then
      match advance P s with
      | .error f => .error f
      | .ok s' => runToIdle P fuel s'
    else .ok s

/-- Controller steps (R195) and engine steps (R265) of the longest command over these operands. -/
def commandBound (n r t : Nat) : Nat :=
  5 + 10 * (2 * qOf n r t + 2 * eOf n r + 2) + (1 + 10 * (qOf n r t + eOf n r))

def toOutcome (x : Except Fault State) : Host.Outcome State Fault Refusal :=
  match x with
  | .error f => .fault f
  | .ok s => .next s

/-- Command c with ROUND rd, from its START to its end. While busy the START is dropped and sets WBUSY (R170, R47);
while idle it is accepted and the command runs to its end. -/
def runCommand (P : Params) (c rd : BitVec 4) (s : State) : Host.Outcome State Fault Refusal :=
  if s.dev.busy then .next { s with dev := s.dev.dropWrite }
  else
    toOutcome (runToIdle P (commandBound s.dev.nVal s.dev.rVal s.dev.tVal) { s with dev := s.dev.start c rd })

end Sys2Proof.Machine
end

