-- ==== Sys2Proof/Decode.lean ====
section
/-! DEFINITION. Decoding and encoding of the command word CW (30_encoding R80, R81, R86, R87): one 32-bit word, START
in bit 0, CMD in bits [7:4], ROUND in bits [11:8], every other bit ignored. The decoder is total: it rejects, by name,
exactly the words with START = 0, which only store CMD and ROUND (R80; log 21). -/
namespace Sys2Proof

/-- Why a word is no command. -/
inductive DecodeError where
  /-- START (bit 0) is 0: a CTRL write of this word starts nothing (R80). -/
  | noStart
  deriving DecidableEq, Repr

/-- CW bit 0 (R80). -/
def cwStart (x : Word) : Bool := x.getLsbD 0

/-- CW bits [7:4] (R80). -/
def cwCmd (x : Word) : BitVec 4 := x.extractLsb' 4 4

/-- CW bits [11:8] (R80). -/
def cwRound (x : Word) : BitVec 4 := x.extractLsb' 8 4

/-- The opcode map of rule R81, with the lowest-priority row for every other CMD (R86). -/
def instrOf (c rd : BitVec 4) : Instr :=
  if c = 1#4 then .enc rd
  else if c = 2#4 then .dec rd
  else if c = 3#4 then .prf rd
  else if c = 4#4 then .madd rd
  else if c = 5#4 then .msub rd
  else if c = 6#4 then .ivgen rd
  else .illegal c rd

def decode (x : Word) : Except DecodeError Instr :=
  if cwStart x then .ok (instrOf (cwCmd x) (cwRound x)) else .error .noStart

/-- The word with START = 1 and the reserved bits zero (R81). -/
def encode (i : Instr) : Word :=
  ((i.round.setWidth 32) <<< 8) ||| ((i.cmd.setWidth 32) <<< 4) ||| 1#32

/-- What the decoder reads from an instruction of the table whose bits are `w`: one word, bits at and above `nbits`
zero. -/
def decodeTableWord (nbits w : Nat) : Option Instr :=
  match decode (BitVec.ofNat 32 (w % 2 ^ nbits)) with
  | .ok i => some i
  | .error _ => none

end Sys2Proof
end

