-- ==== Sys2Proof/Machine/Window.lean ====
section
/-! DEFINITION. The register window: what each offset reaches (10_state R30, 20_memory R62 to R64, R77), and the host's
reads and writes of it (R42 to R47, R61, R65, R68, R69, 42_feistel_controller R170). -/
namespace Sys2Proof.Machine

/-- What a window offset reaches (R30). -/
inductive Target where
  | id | cap | ctrl | status | inten | radix | keylen | len | tlen | errinfo | ciphcnt
  /-- KEYw, w = 0..7 (R42). -/
  | key (w : Nat)
  /-- IVRw, w = 0..3 (R43). -/
  | ivr (w : Nat)
  /-- YRw, w = 0..3 (R44). -/
  | yr (w : Nat)
  /-- The word at byte a of a buffer's window (R63). -/
  | buf (b : Buf) (a : Nat)
  /-- Every other offset (R30). -/
  | unmapped
  deriving DecidableEq, Repr

/-- The register at a word-aligned offset below the buffer windows (R30, R77). -/
def registerAt (a : Nat) : Target :=
  if a = 0x000 then .id
  else if a = 0x004 then .cap
  else if a = 0x008 then .ctrl
  else if a = 0x00C then .status
  else if a = 0x010 then .inten
  else if a = 0x014 then .radix
  else if a = 0x018 then .keylen
  else if a = 0x01C then .len
  else if a = 0x020 then .tlen
  else if a = 0x024 then .errinfo
  else if a = 0x028 then .ciphcnt
  else if 0x040 ≤ a ∧ a < 0x060 then .key ((a - 0x040) / 4)
  else if 0x060 ≤ a ∧ a < 0x070 then .ivr ((a - 0x060) / 4)
  else if 0x070 ≤ a ∧ a < 0x080 then .yr ((a - 0x070) / 4)
  else .unmapped

/-- An offset with bits [1:0] cleared (R64). -/
def alignWord (o : Offset) : Nat := 4 * (o.toNat / 4)

/-- What an offset reaches, bits [1:0] ignored (R30, R63, R64, R77). -/
def target (o : Offset) : Target :=
  let a := alignWord o
  if a < 0x10000 then registerAt a
  else if a < 0x20000 then .buf .tweak (a - 0x10000)
  else if a < 0x30000 then .buf .data (a - 0x20000)
  else .buf .opb (a - 0x30000)

/-- The protected registers and windows (R47). -/
def Target.isProtected : Target → Bool
  | .ctrl | .radix | .keylen | .len | .tlen => true
  | .key _ => true
  | .buf _ _ => true
  | .id | .cap | .status | .inten | .errinfo | .ciphcnt => false
  | .ivr _ | .yr _ => false
  | .unmapped => false

/-- The offset a bus address falls on, if it lies in the window the platform places at BASE (R62, R77; log 14). -/
def windowOffset (P : Params) (busAddr : Nat) : Option Offset :=
  if P.base ≤ busAddr ∧ busAddr < P.base + 2 ^ 18 then some (BitVec.ofNat 18 (busAddr - P.base)) else none

/-! ### Reads (R68) -/

/-- Byte a of a buffer as the host sees it: a byte without a value is the free value number `n` (R50, R68). -/
def hostByte (m : Memory) (a n : Nat) : Byte := (Memory.read m a).getD (Config.freeByte n)

/-- A buffer word as the host reads it: 0 while busy or outside the buffer, else its four bytes (R61, R63, R68). -/
def bufWord (P : Params) (d : Device) (b : Buf) (a n : Nat) : Word :=
  if d.busy then 0
  else if a < Params.size P b then
    packWord (hostByte (d.buf b) a n) (hostByte (d.buf b) (a + 1) (n + 1)) (hostByte (d.buf b) (a + 2) (n + 2))
      (hostByte (d.buf b) (a + 3) (n + 3))
  else 0

/-- The word a host read returns (R31 to R44, R68); `n` numbers the free bytes it may draw. -/
def readTarget (P : Params) (d : Device) (n : Nat) : Target → Word
  | .id => idWord
  | .cap => capWord P
  | .ctrl => d.ctrlWord
  | .status => d.statusWord
  | .inten => d.inten.setWidth 32
  | .radix => d.radix.setWidth 32
  | .keylen => d.keylen.setWidth 32
  | .len => d.len.setWidth 32
  | .tlen => d.tlen.setWidth 32
  | .errinfo => d.errinfo.setWidth 32
  | .ciphcnt => d.ciphcnt
  | .key _ => 0
  | .ivr w => blockWord d.iv w
  | .yr w => blockWord d.y w
  | .buf b a => bufWord P d b a n
  | .unmapped => 0

def hostRead (P : Params) (o : Offset) (d : Device) (n : Nat) : Word := readTarget P d n (target o)

/-! ### Writes (R69) -/

/-- A write of CTRL while idle: stores CMD and ROUND, and starts a command where bit 0 is 1 (R33, R170). -/
def writeCtrl (x : Word) (d : Device) : Device :=
  if cwStart x then d.start (cwCmd x) (cwRound x) else d.storeCtrl (cwCmd x) (cwRound x)

/-- A write of a buffer word: the four covered bytes, or nothing outside the buffer (R61, R63, R69). -/
def writeBufWord (P : Params) (b : Buf) (a : Nat) (x : Word) (d : Device) : Device :=
  if a < Params.size P b then
    d.setBuf b (Memory.writeBytes (d.buf b) a [wordByte x 0, wordByte x 1, wordByte x 2, wordByte x 3])
  else d

/-- A write that is not dropped, as its register's rule says (R33 to R45, R69). -/
def writeTarget (P : Params) (x : Word) (d : Device) : Target → Device
  | .id => d
  | .cap => d
  | .ctrl => writeCtrl x d
  | .status => d.clearFlags x
  | .inten => { d with inten := x.extractLsb' 0 3 }
  | .radix => { d with radix := x.extractLsb' 0 8 }
  | .keylen => { d with keylen := x.extractLsb' 0 6 }
  | .len => { d with len := x.extractLsb' 0 16 }
  | .tlen => { d with tlen := x.extractLsb' 0 16 }
  | .errinfo => d
  | .ciphcnt => d
  | .key w => { d with key := setKeyWord w x d.key }
  | .ivr _ => d
  | .yr _ => d
  | .buf b a => writeBufWord P b a x d
  | .unmapped => d

/-- A host write: dropped with WBUSY where the target is protected and FFXR busy (R47, R69). -/
def hostWrite (P : Params) (o : Offset) (x : Word) (d : Device) : Device :=
  if (target o).isProtected && d.busy then d.dropWrite else writeTarget P x d (target o)

end Sys2Proof.Machine
end

