-- ==== Sys2Proof/Machine/Script.lean ====
section
/-! DEFINITION. The pseudo-instructions of a host script and their expansions into host accesses (30_encoding R88,
R89). -/
namespace Sys2Proof.Machine

/-- START cmd, and START PRF, i (R89). -/
def scriptStart (i : Instr) : List HostOp := [.write 0x008 (encode i)]

/-- WAIT: until BUSY = 0 (R89). -/
def scriptWait : List HostOp := [.poll 0x00C 0x00000001 0x00000000]

/-- CLEAR: DONE, ERR and WBUSY (R89). -/
def scriptClear : List HostOp := [.write 0x00C 0x0000000E]

/-- Byte p of a byte string, zero past its end (R89). -/
def byteOrZero (s : List Byte) (p : Nat) : Byte := s.getD p 0

/-- Word p of a byte string, zero-filled (R61, R89). -/
def stringWord (s : List Byte) (p : Nat) : Word :=
  packWord (byteOrZero s (4 * p)) (byteOrZero s (4 * p + 1)) (byteOrZero s (4 * p + 2)) (byteOrZero s (4 * p + 3))

/-- ⌈len/4⌉ (R89). -/
def wordCount (n : Nat) : Nat := (n + 3) / 4

/-- LOADBUF base, bytes (R89). -/
def scriptLoadBuf (base : Nat) (s : List Byte) : List HostOp :=
  (List.range (wordCount s.length)).map fun p => .write (BitVec.ofNat 18 (base + 4 * p)) (stringWord s p)

/-- SETKEY hexbytes (R89). -/
def scriptSetKey (s : List Byte) : List HostOp :=
  scriptLoadBuf 0x040 s ++ [.write 0x018 (BitVec.ofNat 32 s.length)]

/-- READBUF base, len (R89). -/
def scriptReadBuf (base n : Nat) : List HostOp :=
  (List.range (wordCount n)).map fun p => .read (BitVec.ofNat 18 (base + 4 * p))

/-- The window of a buffer (R63, R89). -/
def windowBase : Buf → Nat
  | .tweak => 0x10000
  | .data => 0x20000
  | .opb => 0x30000

end Sys2Proof.Machine
end

