-- ==== Sys2Proof/Machine/Agents.lean ====
section
/-! DEFINITION. The moves of the agents around FFXR (60_exceptions R231): the host's next access (20_memory R70,
30_encoding R88), reset (70_reset_and_hazards R250), which agent moves next (log 1), and where the next command is
found (log 3, 15). -/
namespace Sys2Proof.Machine

/-- One host access (R65): a read leaves FFXR as it is and delivers a word; a poll is a read that stays at the head of
the script until the word matches (R88). -/
def hostAccess (P : Params) (op : HostOp) (rest : List HostOp) (s : State) : State :=
  match op with
  | .write o x => { s with dev := hostWrite P o x s.dev, env := { s.env with script := rest } }
  | .read o =>
    let w := hostRead P o s.dev s.env.draws
    { s with env := { s.env with script := rest, rdata := w, draws := s.env.draws + 4 } }
  | .poll o mask val =>
    let w := hostRead P o s.dev s.env.draws
    { s with
      env := { s.env with
        script := if w &&& mask = val then rest else .poll o mask val :: rest
        rdata := w
        draws := s.env.draws + 4 } }

/-- The host moves: its next access, or nothing when its script is used up (R70). -/
def hostMove (P : Params) (s : State) : State :=
  match s.env.script with
  | [] => s
  | op :: rest => hostAccess P op rest s

/-- Reset: every component of R21 to its value of R251, the agents outside untouched (R250, R252). -/
def resetMove (s : State) : State := { s with dev := Device.reset }

/-- One move of one agent. A merged command whose next access starts nothing is that access alone. -/
def agentMove (P : Params) (m : Move) (s : State) : Except Fault State :=
  match m with
  | .host => .ok (hostMove P s)
  | .command => .ok (hostMove P s)
  | .controller => controllerMove P s
  | .engine => .ok (engineMove P s)
  | .reset => .ok (resetMove s)

/-- Who moves when the schedule names nobody: the engine or the controller while a command runs, else the host while it
has accesses to make, else nobody (R253; log 1). -/
def defaultMove (s : State) : Option Move :=
  if s.dev.busy then some (if s.dev.waiting then .engine else .controller)
  else match s.env.script with
    | [] => none
    | _ :: _ => some .command

/-- The next move, taken off the schedule. -/
def nextMove (s : State) : Option (Move × State) :=
  match s.env.sched with
  | m :: rest => some (m, { s with env := { s.env with sched := rest } })
  | [] => (defaultMove s).map fun m => (m, s)

/-- The command the host's next access would start: a write of a CW word with START = 1 to CTRL (R80, R170), taken off
the script. -/
def fetchCommand (s : State) : Option (Instr × State) :=
  match s.env.script with
  | .write o x :: rest =>
    if target o = .ctrl then
      match decode x with
      | .ok i => some (i, { s with env := { s.env with script := rest } })
      | .error _ => none
    else none
  | .read _ :: _ => none
  | .poll _ _ _ :: _ => none
  | [] => none

end Sys2Proof.Machine
end

