-- ==== Sys2Proof/Machine/Commands.lean ====
section
/-! DEFINITION. The meaning of each row of the opcode table (42_feistel_controller R180 to R185, 60_exceptions R220):
the command's whole effect, from its START to its end, by the phase sequence its rule gives. ROUND is stored in CTRL by
every START (10_state R33) and read by PRF only (30_encoding R83). -/
namespace Sys2Proof.Machine

/-- ENC (R180). -/
def execEnc (round : BitVec 4) (s : State) : Host.Outcome State Fault Refusal :=
  runCommand Config.params Cmd.enc round s

/-- DEC (R181). -/
def execDec (round : BitVec 4) (s : State) : Host.Outcome State Fault Refusal :=
  runCommand Config.params Cmd.dec round s

/-- PRF (R182). -/
def execPrf (round : BitVec 4) (s : State) : Host.Outcome State Fault Refusal :=
  runCommand Config.params Cmd.prf round s

/-- MADD (R183). -/
def execMadd (round : BitVec 4) (s : State) : Host.Outcome State Fault Refusal :=
  runCommand Config.params Cmd.madd round s

/-- MSUB (R184). -/
def execMsub (round : BitVec 4) (s : State) : Host.Outcome State Fault Refusal :=
  runCommand Config.params Cmd.msub round s

/-- IVGEN (R185). -/
def execIvgen (round : BitVec 4) (s : State) : Host.Outcome State Fault Refusal :=
  runCommand Config.params Cmd.ivgen round s

/-- A START whose CMD is no command: accepted, and CHECK ends it with ILLEGAL_COMMAND (R86, R220, R221). -/
def execIllegal (c round : BitVec 4) (s : State) : Host.Outcome State Fault Refusal :=
  runCommand Config.params c round s

end Sys2Proof.Machine
end

