-- ==== Sys2Proof/Machine/Dispatch.lean ====
section
/-! DEFINITION. exec: one arm per row of the opcode table. -/
namespace Sys2Proof.Machine

def exec (i : Instr) (s : State) : Host.Outcome State Fault Refusal :=
  match i with
  | .enc round => Sys2Proof.Machine.execEnc round s
  | .dec round => Sys2Proof.Machine.execDec round s
  | .prf round => Sys2Proof.Machine.execPrf round s
  | .madd round => Sys2Proof.Machine.execMadd round s
  | .msub round => Sys2Proof.Machine.execMsub round s
  | .ivgen round => Sys2Proof.Machine.execIvgen round s
  | .illegal c round => Sys2Proof.Machine.execIllegal c round s

end Sys2Proof.Machine
end

