-- ==== Sys2Proof/Machine/Step.lean ====
section
/-! DEFINITION. One step: the next move of the schedule (log 1). The merged command move fetches the host's next START
and runs the command it decodes to (log 3). -/
namespace Sys2Proof.Machine

def step (s : State) : Host.Outcome State Fault Refusal :=
  match nextMove s with
  | none => .next s
  | some (.command, s') =>
    match fetchCommand s' with
    | some (i, s'') => exec i s''
    | none => toOutcome (agentMove Config.params .command s')
  | some (.host, s') => toOutcome (agentMove Config.params .host s')
  | some (.controller, s') => toOutcome (agentMove Config.params .controller s')
  | some (.engine, s') => toOutcome (agentMove Config.params .engine s')
  | some (.reset, s') => toOutcome (agentMove Config.params .reset s')

/-- s with the command word w as the host's next access, and the merged command move as the next move (log 15). -/
def State.withFetchWord (s : State) (nbits w : Nat) : State :=
  { s with
    env := { s.env with
      sched := .command :: s.env.sched
      script := .write 0x008 (BitVec.ofNat 32 (w % 2 ^ nbits)) :: s.env.script } }

end Sys2Proof.Machine
end

