-- ==== Sys2Proof/Machine/Functional.lean ====
section
/-! DEFINITION. The functions the commands compute, as the spec defines them apart from any step: the round function
RF (41_round_function R137 to R144) and FFX_ENC and FFX_DEC (42_feistel_controller R186). `E` is the cipher under the
command's key, Ciph(K, ·). -/
namespace Sys2Proof.Machine

/-- Q_k = Q[16(k−1) ..< 16k] (R136). -/
def qBlock (q : List Byte) (k : Nat) : Block := blockOf ((q.drop (16 * (k - 1))).take 16)

/-- Y_k of the CBC chain over Q from IV (R137). -/
def macChain (E : Block → Block) (q : List Byte) (iv : Block) : Nat → Block
  | 0 => iv
  | k + 1 => E (macChain E q iv k ^^^ qBlock q (k + 1))

/-- Y = Y_q for round i over half H (R135 to R137). -/
def macOf (E : Block → Block) (tw : List Byte) (n r i : Nat) (h : List Nat) (iv : Block) : Block :=
  macChain E (qString tw n r i h) iv (qOf n r tw.length)

/-- Y followed by the first j expansion blocks (R138). -/
def expandChain (E : Block → Block) (y : Block) : Nat → List Byte
  | 0 => blockBytes y
  | j + 1 => expandChain E y j ++ blockBytes (E (y ^^^ blockOf (bytesBE 16 (j + 1))))

/-- The key stream S of d + 4 bytes (R138). -/
def keyStream (E : Block → Block) (n r : Nat) (y : Block) : List Byte :=
  (expandChain E y (eOf n r)).take (dOf n r + 4)

/-- RF: the round function (R140, R144). -/
def roundFn (E : Block → Block) (tw : List Byte) (n r i : Nat) (h : List Nat) (iv : Block) : List Nat :=
  str r (mOf n i) (num256 (keyStream E n r (macOf E tw n r i h iv)) % r ^ mOf n i)

/-- One encryption round: (A, B) to (B, A + RF(B)) (R186). -/
def encRound (E : Block → Block) (tw : List Byte) (n r : Nat) (iv : Block) (i : Nat)
    (ab : List Nat × List Nat) : List Nat × List Nat :=
  (ab.2, radd r ab.1.length ab.1 (roundFn E tw n r i ab.2 iv))

/-- One decryption round: (A, B) to (B − RF(A), A) (R186). -/
def decRound (E : Block → Block) (tw : List Byte) (n r : Nat) (iv : Block) (i : Nat)
    (ab : List Nat × List Nat) : List Nat × List Nat :=
  (rsub r ab.2.length ab.2 (roundFn E tw n r i ab.1 iv), ab.1)

/-- (A, B) after the first c encryption rounds, i = 0, 1, … (R186). -/
def encRounds (E : Block → Block) (tw : List Byte) (n r : Nat) (iv : Block) (ab : List Nat × List Nat) :
    Nat → List Nat × List Nat
  | 0 => ab
  | c + 1 => encRound E tw n r iv c (encRounds E tw n r iv ab c)

/-- (A, B) after the first c decryption rounds, i = 9, 8, … (R186). -/
def decRounds (E : Block → Block) (tw : List Byte) (n r : Nat) (iv : Block) (ab : List Nat × List Nat) :
    Nat → List Nat × List Nat
  | 0 => ab
  | c + 1 => decRound E tw n r iv (9 - c) (decRounds E tw n r iv ab c)

/-- IV = Ciph(K, P) (R134). -/
def ivOf (E : Block → Block) (n r t : Nat) : Block := E (header r n t)

/-- X split at u = ⌊n/2⌋ (R186). -/
def splitHalves (x : List Nat) : List Nat × List Nat := (x.take (uOf x.length), x.drop (uOf x.length))

/-- FFX_ENC(K, T, r, X) (R186). -/
def ffxEnc (E : Block → Block) (tw : List Byte) (r : Nat) (x : List Nat) : List Nat :=
  if x.length = 0 then []
  else
    let ab := encRounds E tw x.length r (ivOf E x.length r tw.length) (splitHalves x) 10
    ab.1 ++ ab.2

/-- FFX_DEC(K, T, r, X) (R186). -/
def ffxDec (E : Block → Block) (tw : List Byte) (r : Nat) (x : List Nat) : List Nat :=
  if x.length = 0 then []
  else
    let ab := decRounds E tw x.length r (ivOf E x.length r tw.length) (splitHalves x) 10
    ab.1 ++ ab.2

end Sys2Proof.Machine
end

