-- ==== Sys2Proof/Safety.lean ====
section
/-! DEFINITION. What the statements about the machine are written in: the invariant of the reachable states
(`DevInv`), when a command's operands are ready (70_reset_and_hazards R254), and how a command ends (success R179,
error R222). -/
namespace Sys2Proof.Machine

/-! ### Readiness -/

/-- Idle, with no cipher request outstanding (R170). -/
abbrev Device.Idle (d : Device) : Prop := d.phase = .idle ∧ d.port = .free

/-- KEYLEN ∈ {16, 24, 32} (R3). -/
abbrev Device.KeyLegal (d : Device) : Prop := d.keylen = 16 ∨ d.keylen = 24 ∨ d.keylen = 32

/-- RADIX ∈ 2..62 (R4). -/
abbrev Device.RadixLegal (d : Device) : Prop := 2 ≤ d.rVal ∧ d.rVal ≤ 62

/-- The cipher under the command's key, Ciph(K, ·) (R9, R42). -/
def cipherOf (P : Params) (d : Device) : Block → Block := P.ciph d.keyBytes

/-- The first `x.length` bytes of a buffer are the digits `x`, each below the radix (R7, R106). -/
def HoldsDigits (P : Params) (d : Device) (b : Buf) (x : List Nat) : Prop :=
  memRead P d b 0 x.length = .ok (digitBytes x) ∧ ∀ c ∈ x, c < d.rVal

/-- T = TWEAK[0 ..< t] is the byte string `tw` (R49). -/
def HoldsTweak (P : Params) (d : Device) (tw : List Byte) : Prop :=
  tw.length = d.tVal ∧ memRead P d .tweak 0 tw.length = .ok tw

/-- The registers a radix command needs (R254 items 2, 3). -/
structure RadixReady (P : Params) (d : Device) : Prop where
  idle : d.Idle
  radix : d.RadixLegal
  len : d.nVal ≤ P.nMax

/-- The registers a cipher command needs (R254 items 1 to 4). -/
structure CipherReady (P : Params) (d : Device) : Prop extends RadixReady P d where
  key : d.KeyLegal
  tlen : d.tVal ≤ P.tweakMax

/-- The engine's next `c` answers are Ok (R224). -/
def Env.Answers (v : Env) (c : Nat) : Prop := ∀ a ∈ v.engine.take c, a = .ok

/-- The engine answers `c` requests Ok and then fails one (R224). -/
def Env.FailsAt (v : Env) (c : Nat) : Prop := v.Answers c ∧ v.engine[c]? = some .fail

/-! ### Cipher-call counts (R265) -/

/-- ENC or DEC with n ≥ 1. -/
def feistelCalls (n r t : Nat) : Nat := 1 + 10 * (qOf n r t + eOf n r)

/-- PRF. -/
def prfCalls (n r t : Nat) : Nat := 1 + qOf n r t + eOf n r

/-! ### What an instruction leaves alone -/

/-- The operand registers and buffers that no command changes (R259), and INTEN. -/
structure KeepsOperands (d e : Device) : Prop where
  inten : e.inten = d.inten
  radix : e.radix = d.radix
  keylen : e.keylen = d.keylen
  len : e.len = d.len
  tlen : e.tlen = d.tlen
  key : e.key = d.key
  tweak : e.tweak = d.tweak

/-- The working registers of the datapath (R25 to R28). -/
structure KeepsWorking (d e : Device) : Prop where
  i : e.i = d.i
  k : e.k = d.k
  j : e.j = d.j
  regA : e.regA = d.regA
  regB : e.regB = d.regB
  regF : e.regF = d.regF
  iv : e.iv = d.iv
  y : e.y = d.y
  strm : e.strm = d.strm

/-- DATA and OPB. -/
structure KeepsBuffers (d e : Device) : Prop where
  data : e.data = d.data
  opb : e.opb = d.opb

/-- From index n on, a buffer reads as before. -/
def KeepsFrom (n : Nat) (m m' : Memory) : Prop := ∀ a, n ≤ a → Memory.read m' a = Memory.read m a

/-! ### How a command ends -/

/-- What every command that was accepted and has ended leaves, whatever its outcome: idle, the START's CTRL and cmd
fields, the operands kept, and the agents' data moved on by the cipher answers taken (R170, R222, R259). -/
structure CommandEnd (c rd : BitVec 4) (calls : Nat) (s t : State) : Prop extends KeepsOperands s.dev t.dev where
  phase : t.dev.phase = .idle
  port : t.dev.port = .free
  cmd : t.dev.cmd = c
  ctrlCmd : t.dev.ctrlCmd = c
  ctrlRound : t.dev.ctrlRound = rd
  wbusy : t.dev.wbusy = s.dev.wbusy
  ciphcnt : t.dev.ciphcnt = BitVec.ofNat 32 calls
  env : t.env = { s.env with engine := s.env.engine.drop calls }

/-- A successful end (R179). -/
structure SuccessEnd (c rd : BitVec 4) (calls : Nat) (s t : State) : Prop extends CommandEnd c rd calls s t where
  done : t.dev.done = true
  err : t.dev.err = false
  errcode : t.dev.errcode = .none
  errinfo : t.dev.errinfo = 0

/-- An error end (R222): DATA and OPB as they were (R223). -/
structure ErrorEnd (c rd : BitVec 4) (calls : Nat) (code : ErrorCode) (info : BitVec 17) (s t : State) : Prop
    extends CommandEnd c rd calls s t, KeepsBuffers s.dev t.dev where
  done : t.dev.done = false
  err : t.dev.err = true
  errcode : t.dev.errcode = code
  errinfo : t.dev.errinfo = info

/-! ### The invariant of the reachable states -/

/-- A buffer in canonical form, inside its size. -/
def BufOk (size : Nat) (m : Memory) : Prop := Memory.wf m = true ∧ Memory.below size m = true

/-- In a round: the command is ENC, DEC or PRF, the half lengths alternate as R187 says, every digit is below r. -/
structure RoundInv (d : Device) : Prop where
  cmd : d.cmd = Cmd.enc ∨ d.cmd = Cmd.dec ∨ d.cmd = Cmd.prf
  encLen : d.cmd = Cmd.enc → d.regA.length = d.mVal ∧ d.regB.length = d.nVal - d.mVal
  decLen : d.cmd = Cmd.dec → d.regB.length = d.mVal ∧ d.regA.length = d.nVal - d.mVal
  prfLen : d.cmd = Cmd.prf → d.regB.length = d.nVal - d.mVal
  digitsA : ∀ c ∈ d.regA, c < d.rVal
  digitsB : ∀ c ∈ d.regB, c < d.rVal

/-- F is the round output: m(i) digits below r (R140). -/
def HasF (d : Device) : Prop := d.regF.length = d.mVal ∧ ∀ c ∈ d.regF, c < d.rVal

/-- The operands of MADD and MSUB are loaded (R173). -/
structure PairInv (d : Device) : Prop where
  lenA : d.regA.length = d.nVal
  lenF : d.regF.length = d.nVal
  digitsA : ∀ c ∈ d.regA, c < d.rVal
  digitsF : ∀ c ∈ d.regF, c < d.rVal

/-- What holds in each phase of a running command (R23, R187, R194). -/
def PhaseInv (P : Params) (d : Device) : Prop :=
  match d.phase with
  | .idle => True
  | .check => True
  | .load => d.cmd ≠ Cmd.ivgen ∧ symbolScan P d = .ok none
  | .hdr => d.cmd = Cmd.ivgen ∨ RoundInv d
  | .mac => RoundInv d ∧ 1 ≤ d.k.toNat ∧ d.k.toNat ≤ d.qVal
  | .expand => RoundInv d ∧ 1 ≤ d.j.toNat ∧ d.j.toNat ≤ d.eVal ∧ d.strm.length = 16 * d.j.toNat
  | .reduce => RoundInv d ∧ d.strm.length = 16 * (d.eVal + 1)
  | .add => (d.cmd = Cmd.madd ∧ PairInv d) ∨ (d.cmd = Cmd.enc ∧ RoundInv d ∧ HasF d)
  | .sub => (d.cmd = Cmd.msub ∧ PairInv d) ∨ (d.cmd = Cmd.dec ∧ RoundInv d ∧ HasF d)
  | .writeback =>
    ((d.cmd = Cmd.enc ∨ d.cmd = Cmd.dec) ∧ d.regA.length + d.regB.length = d.nVal) ∨
      (d.cmd = Cmd.prf ∧ HasF d) ∨ ((d.cmd = Cmd.madd ∨ d.cmd = Cmd.msub) ∧ d.regA.length = d.nVal)

/-- The invariant: canonical buffers inside their sizes (R60), the round index in 0..9 (R25), OVERFLOW never reported
(R226), a cipher request only in HDR, MAC and EXPAND (R194), the checks still true while the command runs (R47, R221),
and what holds in each phase. -/
structure DevInv (P : Params) (d : Device) : Prop where
  tweakOk : BufOk P.tweakMax d.tweak
  dataOk : BufOk P.nMax d.data
  opbOk : BufOk P.nMax d.opb
  roundLe : d.i.toNat ≤ 9
  noOverflow : d.errcode ≠ .overflow
  portFree : d.port ≠ .free → d.phase = .hdr ∨ d.phase = .mac ∨ d.phase = .expand
  checked : d.phase ≠ .idle → d.phase ≠ .check → registerError P d = none
  phaseInv : PhaseInv P d

/-- A safe run never leaves the invariant. -/
def Safe (s : State) : Prop := DevInv Config.params s.dev

end Sys2Proof.Machine
end

