-- ==== Sys2Proof/Certificates/Slice0/Obligations.lean ====
section
/-! DEFINITION. The statements about the machine. Each docstring names the rules of spec/ it rests on. -/
open Sys2Proof Sys2Proof.Machine

/-- Decoding an encoded well-formed command gives it back, and every START word encodes back up to its reserved bits. CW decoding loses no bit it must keep and keeps no reserved bit (R80, R81, R86). That START = 0 is no command is the reading of log 21. -/
def Obligations.DecodeEncodeRoundTrip : Prop :=
    (∀ i : Instr, i.wf = true → decode (encode i) = .ok i) ∧
    (∀ x : Word, x.getLsbD 0 = true → ∃ i, decode x = .ok i ∧ i.wf = true ∧ encode i = x &&& 0x00000FF1#32) ∧
    (∀ x : Word, x.getLsbD 0 = false → decode x = .error .noStart)

/-- The command words written out in the spec decode to their commands. Words of R81 and of 95_test_vectors section 3.6. -/
def Obligations.SpecCommandWordsDecode : Prop :=
    decode 0x00000011#32 = .ok (.enc 0) ∧ decode 0x00000021#32 = .ok (.dec 0) ∧ decode 0x00000031#32 = .ok (.prf 0) ∧
    decode 0x00000931#32 = .ok (.prf 9) ∧ decode 0x00000041#32 = .ok (.madd 0) ∧ decode 0x00000051#32 = .ok (.msub 0) ∧
    decode 0x00000061#32 = .ok (.ivgen 0) ∧ decode 0x00000001#32 = .ok (.illegal 0 0) ∧
    decode 0x00000071#32 = .ok (.illegal 7 0) ∧ decode 0xFFFFFFFF#32 = .ok (.illegal 15 15)

/-- A step runs the command the host's next access starts. The merged command move and the default schedule are the model's own (log 1, 3). -/
def Obligations.StepRunsFetchedCommand : Prop :=
    ∀ (s : State) (o : Offset) (x : Word) (i : Instr) (ops : List HostOp),
    target o = .ctrl → decode x = .ok i → s.env.script = .write o x :: ops →
    (∀ ms, s.env.sched = .command :: ms → step s = exec i { s with env := { s.env with sched := ms, script := ops } }) ∧
    (s.env.sched = [] → s.dev.busy = false → step s = exec i { s with env := { s.env with script := ops } })

/-- Reset values of every state component. R251's table, row by row. -/
def Obligations.ResetSetsEveryComponent : Prop :=
    let d := State.reset.dev
    d.phase = .idle ∧ d.cmd = 0 ∧ d.i = 0 ∧ d.k = 0 ∧ d.j = 0 ∧ d.regA = [] ∧ d.regB = [] ∧ d.regF = [] ∧
    blockBytes d.iv = List.replicate 16 0 ∧ blockBytes d.y = List.replicate 16 0 ∧ d.strm = [] ∧ d.port = .free ∧
    d.ctrlWord = 0 ∧ d.statusWord = 0 ∧ d.done = false ∧ d.err = false ∧ d.wbusy = false ∧ d.errcode = .none ∧
    d.inten = 0 ∧ d.radix = 0 ∧ d.keylen = 0 ∧ d.len = 0 ∧ d.tlen = 0 ∧ d.errinfo = 0 ∧ d.ciphcnt = 0 ∧
    d.key.toList = List.replicate 32 0 ∧
    (∀ a, Memory.read d.tweak a = none ∧ Memory.read d.data a = none ∧ Memory.read d.opb a = none) ∧
    d.irq = false ∧ idWord = 0x46465852#32 ∧
    (∀ P : Params, P.Legal → (capWord P).toNat = P.tweakMax * 2 ^ 16 + P.nMax) ∧
    ∀ (s : State) (ms : List Move), s.env.sched = .reset :: ms → ∃ t, step s = .next t ∧ t.dev = d

/-- A reset in any state sets every component to its reset value in one step. R250, R252; that the host's script survives the reset is log 17. -/
def Obligations.ResetMoveAbandonsEverything : Prop :=
    ∀ (s : State) (ms : List Move), s.env.sched = .reset :: ms →
    step s = .next { dev := Device.reset, env := { s.env with sched := ms } } ∧
    engineMove Config.params { dev := Device.reset, env := { s.env with sched := ms } } =
      { dev := Device.reset, env := { s.env with sched := ms } }

/-- The reset state meets the invariant. The starting point of the invariant. -/
def Obligations.ResetMeetsInvariant : Prop :=
    Safe State.reset

/-- Every step from a state that meets the invariant gives a state that meets it. R25, R47, R187, R194, R226 as one inductive invariant. -/
def Obligations.StepKeepsInvariant : Prop :=
    ∀ s t : State, Safe s → step s = .next t → Safe t

/-- From a state that meets the invariant the machine stops only on a buffer byte nothing has written. R50, R60, R111, R141, R194, R195, R226. The kinds of fault are the model's (log 10, 11, 12, 18). -/
def Obligations.OnlyUnwrittenBytesFault : Prop :=
    (∀ (s : State) (f : Fault), Safe s → step s = .fault f →
      ∃ b a, f = .unwrittenByte b a ∧ Memory.read (s.dev.buf b) a = none) ∧
    ∀ (s : State) (r : Refusal), step s ≠ .refused r

/-- ENC ends with DATA[0..<n] = FFX_ENC of DATA[0..<n]. R180 with R179, R186, R265: ENC's own effect. The half that enters round 9 is the A that is written back first (R176). -/
def Obligations.EncWritesFfxEnc : Prop :=
    ∀ (rd : BitVec 4) (s : State) (tw : List Byte) (x : List Nat),
    CipherReady Config.params s.dev → 1 ≤ s.dev.nVal → x.length = s.dev.nVal →
    HoldsTweak Config.params s.dev tw → HoldsDigits Config.params s.dev .data x →
    s.env.Answers (feistelCalls s.dev.nVal s.dev.rVal s.dev.tVal) →
    ∃ t, exec (.enc rd) s = .next t ∧
      SuccessEnd Cmd.enc rd (feistelCalls s.dev.nVal s.dev.rVal s.dev.tVal) s t ∧
      HoldsDigits Config.params t.dev .data (ffxEnc (cipherOf Config.params s.dev) tw s.dev.rVal x) ∧
      (ffxEnc (cipherOf Config.params s.dev) tw s.dev.rVal x).length = s.dev.nVal ∧
      KeepsFrom s.dev.nVal s.dev.data t.dev.data ∧ t.dev.opb = s.dev.opb ∧ t.dev.i = 9 ∧
      t.dev.iv = ivOf (cipherOf Config.params s.dev) s.dev.nVal s.dev.rVal s.dev.tVal ∧
      t.dev.y = macOf (cipherOf Config.params s.dev) tw s.dev.nVal s.dev.rVal 9
        ((ffxEnc (cipherOf Config.params s.dev) tw s.dev.rVal x).take s.dev.uVal) t.dev.iv

/-- DEC ends with DATA[0..<n] = FFX_DEC of DATA[0..<n]. R181 with R179, R186, R265: DEC's own effect. The half that enters round 0 is the B that is written back last (R177). -/
def Obligations.DecWritesFfxDec : Prop :=
    ∀ (rd : BitVec 4) (s : State) (tw : List Byte) (x : List Nat),
    CipherReady Config.params s.dev → 1 ≤ s.dev.nVal → x.length = s.dev.nVal →
    HoldsTweak Config.params s.dev tw → HoldsDigits Config.params s.dev .data x →
    s.env.Answers (feistelCalls s.dev.nVal s.dev.rVal s.dev.tVal) →
    ∃ t, exec (.dec rd) s = .next t ∧
      SuccessEnd Cmd.dec rd (feistelCalls s.dev.nVal s.dev.rVal s.dev.tVal) s t ∧
      HoldsDigits Config.params t.dev .data (ffxDec (cipherOf Config.params s.dev) tw s.dev.rVal x) ∧
      (ffxDec (cipherOf Config.params s.dev) tw s.dev.rVal x).length = s.dev.nVal ∧
      KeepsFrom s.dev.nVal s.dev.data t.dev.data ∧ t.dev.opb = s.dev.opb ∧ t.dev.i = 0 ∧
      t.dev.iv = ivOf (cipherOf Config.params s.dev) s.dev.nVal s.dev.rVal s.dev.tVal ∧
      t.dev.y = macOf (cipherOf Config.params s.dev) tw s.dev.nVal s.dev.rVal 0
        ((ffxDec (cipherOf Config.params s.dev) tw s.dev.rVal x).drop s.dev.uVal) t.dev.iv

/-- PRF ends with OPB[0..<m(i)] = RF of round ROUND. R182 with R144, R179, R265: PRF's own effect. -/
def Obligations.PrfWritesRoundFunction : Prop :=
    ∀ (rd : BitVec 4) (s : State) (tw : List Byte) (h : List Nat),
    CipherReady Config.params s.dev → 1 ≤ s.dev.nVal → rd.toNat ≤ 9 → h.length = wOf s.dev.nVal rd.toNat →
    HoldsTweak Config.params s.dev tw → HoldsDigits Config.params s.dev .data h →
    s.env.Answers (prfCalls s.dev.nVal s.dev.rVal s.dev.tVal) →
    ∃ t, exec (.prf rd) s = .next t ∧
      SuccessEnd Cmd.prf rd (prfCalls s.dev.nVal s.dev.rVal s.dev.tVal) s t ∧
      t.dev.iv = ivOf (cipherOf Config.params s.dev) s.dev.nVal s.dev.rVal s.dev.tVal ∧
      HoldsDigits Config.params t.dev .opb
        (roundFn (cipherOf Config.params s.dev) tw s.dev.nVal s.dev.rVal rd.toNat h t.dev.iv) ∧
      (roundFn (cipherOf Config.params s.dev) tw s.dev.nVal s.dev.rVal rd.toNat h t.dev.iv).length =
        mOf s.dev.nVal rd.toNat ∧
      KeepsFrom (mOf s.dev.nVal rd.toNat) s.dev.opb t.dev.opb ∧ t.dev.data = s.dev.data ∧ t.dev.i = rd ∧
      t.dev.y = macOf (cipherOf Config.params s.dev) tw s.dev.nVal s.dev.rVal rd.toNat h t.dev.iv

/-- MADD ends with DATA[0..<n] = RADD(DATA, OPB) mod r^n. R183 with R108, R173, R179: the command's own effect. -/
def Obligations.MaddWritesModularSum : Prop :=
    ∀ (rd : BitVec 4) (s : State) (x z : List Nat),
    RadixReady Config.params s.dev → 1 ≤ s.dev.nVal → x.length = s.dev.nVal → z.length = s.dev.nVal →
    HoldsDigits Config.params s.dev .data x → HoldsDigits Config.params s.dev .opb z →
    ∃ t, exec (.madd rd) s = .next t ∧ SuccessEnd Cmd.madd rd 0 s t ∧
      HoldsDigits Config.params t.dev .data (radd s.dev.rVal s.dev.nVal x z) ∧
      (radd s.dev.rVal s.dev.nVal x z).length = s.dev.nVal ∧
      KeepsFrom s.dev.nVal s.dev.data t.dev.data ∧ t.dev.opb = s.dev.opb ∧ t.dev.i = s.dev.i ∧ t.dev.k = s.dev.k ∧
      t.dev.j = s.dev.j ∧ t.dev.iv = s.dev.iv ∧ t.dev.y = s.dev.y ∧ t.dev.strm = s.dev.strm

/-- MSUB ends with DATA[0..<n] = RSUB(DATA, OPB) mod r^n. R184 with R109, R173, R179: the command's own effect. -/
def Obligations.MsubWritesModularDifference : Prop :=
    ∀ (rd : BitVec 4) (s : State) (x z : List Nat),
    RadixReady Config.params s.dev → 1 ≤ s.dev.nVal → x.length = s.dev.nVal → z.length = s.dev.nVal →
    HoldsDigits Config.params s.dev .data x → HoldsDigits Config.params s.dev .opb z →
    ∃ t, exec (.msub rd) s = .next t ∧ SuccessEnd Cmd.msub rd 0 s t ∧
      HoldsDigits Config.params t.dev .data (rsub s.dev.rVal s.dev.nVal x z) ∧
      (rsub s.dev.rVal s.dev.nVal x z).length = s.dev.nVal ∧
      KeepsFrom s.dev.nVal s.dev.data t.dev.data ∧ t.dev.opb = s.dev.opb ∧ t.dev.i = s.dev.i ∧ t.dev.k = s.dev.k ∧
      t.dev.j = s.dev.j ∧ t.dev.iv = s.dev.iv ∧ t.dev.y = s.dev.y ∧ t.dev.strm = s.dev.strm

/-- IVGEN ends with IV = Ciph(K, P). R185 with R133, R134, R179: IVGEN's own effect. -/
def Obligations.IvgenComputesHeaderCipher : Prop :=
    ∀ (rd : BitVec 4) (s : State), CipherReady Config.params s.dev → s.env.Answers 1 →
    ∃ t, exec (.ivgen rd) s = .next t ∧ SuccessEnd Cmd.ivgen rd 1 s t ∧ KeepsBuffers s.dev t.dev ∧
      t.dev.iv = ivOf (cipherOf Config.params s.dev) s.dev.nVal s.dev.rVal s.dev.tVal ∧
      KeepsWorking { s.dev with iv := t.dev.iv } t.dev

/-- A START whose CMD is no command is accepted and ends with ILLEGAL_COMMAND. The ILLEGAL row's own effect (R86, R220 to R222). -/
def Obligations.IllegalCommandEndsInError : Prop :=
    ∀ (c rd : BitVec 4) (s : State), (Instr.illegal c rd).wf = true → s.dev.Idle →
    ∃ t, exec (.illegal c rd) s = .next t ∧ ErrorEnd c rd 0 .illegalCommand 0 s t ∧ KeepsWorking s.dev t.dev

/-- ENC, DEC, MADD and MSUB of the empty message succeed with no cipher call and no write. The n = 0 forms of R172 and R191. -/
def Obligations.EmptyMessageSucceedsAtOnce : Prop :=
    (∀ (rd : BitVec 4) (s : State), CipherReady Config.params s.dev → s.dev.nVal = 0 →
      (∃ t, exec (.enc rd) s = .next t ∧ SuccessEnd Cmd.enc rd 0 s t ∧ KeepsWorking s.dev t.dev ∧ KeepsBuffers s.dev t.dev) ∧
      ∃ t, exec (.dec rd) s = .next t ∧ SuccessEnd Cmd.dec rd 0 s t ∧ KeepsWorking s.dev t.dev ∧ KeepsBuffers s.dev t.dev) ∧
    ∀ (rd : BitVec 4) (s : State), RadixReady Config.params s.dev → s.dev.nVal = 0 →
      (∃ t, exec (.madd rd) s = .next t ∧ SuccessEnd Cmd.madd rd 0 s t ∧ KeepsWorking s.dev t.dev ∧
        KeepsBuffers s.dev t.dev) ∧
      ∃ t, exec (.msub rd) s = .next t ∧ SuccessEnd Cmd.msub rd 0 s t ∧ KeepsWorking s.dev t.dev ∧ KeepsBuffers s.dev t.dev

/-- A START while busy changes nothing but WBUSY. The dropped START of R170 and R47. -/
def Obligations.StartWhileBusyIsDropped : Prop :=
    ∀ (i : Instr) (s : State), s.dev.phase ≠ .idle →
    exec i s = .next { s with dev := { s.dev with wbusy := true } }

/-- CHECK raises the first error of its fixed order. Conditions 1 to 7 of R221, each under the negation of the ones before it; the scan is `FirstBadSymbolIsReported`. -/
def Obligations.CheckReportsFirstFailure : Prop :=
    ∀ (i : Instr) (s : State), s.dev.Idle →
    let d := s.dev
    let cipher : Bool := i.cmd == 1#4 || i.cmd == 2#4 || i.cmd == 3#4 || i.cmd == 6#4
    let ends (code : ErrorCode) :=
      ∃ t, exec i s = .next t ∧ ErrorEnd i.cmd i.round 0 code 0 s t ∧ KeepsWorking s.dev t.dev
    if i.cmd = 0#4 ∨ 6 < i.cmd.toNat then ends .illegalCommand
    else if cipher = true ∧ ¬ d.KeyLegal then ends .invalidKeyLength
    else if ¬ d.RadixLegal then ends .invalidRadix
    else if 256 < d.nVal then ends .lengthRange
    else if cipher = true ∧ 256 < d.tVal then ends .lengthRange
    else if i.cmd = 3#4 ∧ d.nVal = 0 then ends .lengthRange
    else if i.cmd = 3#4 ∧ 9 < i.round.toNat then ends .invalidRound
    else True

/-- CHECK reports the first invalid symbol, DATA before OPB. Condition 8 of R221 with R40's ERRINFO. The scan's order, and that an invalid symbol ends it before a later byte that nothing has written is read, so that INVALID_SYMBOL wins there over R221's sentence 'A byte in that range that was never written is a fault', is the model's reading (log 8, DEDUCED). -/
def Obligations.FirstBadSymbolIsReported : Prop :=
    (∀ (i : Instr) (s : State) (p : Nat) (c : Byte), s.dev.Idle →
      registerError Config.params (s.dev.start i.cmd i.round) = none → i.cmd ≠ Cmd.ivgen →
      p < (if i.cmd = Cmd.prf then wOf s.dev.nVal i.round.toNat else s.dev.nVal) →
      (∀ a, a < p → ∃ c, Memory.read s.dev.data a = some c ∧ c.toNat < s.dev.rVal) →
      Memory.read s.dev.data p = some c → s.dev.rVal ≤ c.toNat →
      ∃ t, exec i s = .next t ∧ ErrorEnd i.cmd i.round 0 .invalidSymbol (BitVec.ofNat 17 p) s t ∧
        KeepsWorking s.dev t.dev) ∧
    ∀ (i : Instr) (s : State) (p : Nat) (c : Byte), s.dev.Idle →
      registerError Config.params (s.dev.start i.cmd i.round) = none → (i.cmd = Cmd.madd ∨ i.cmd = Cmd.msub) →
      p < s.dev.nVal →
      (∀ a, a < s.dev.nVal → ∃ c, Memory.read s.dev.data a = some c ∧ c.toNat < s.dev.rVal) →
      (∀ a, a < p → ∃ c, Memory.read s.dev.opb a = some c ∧ c.toNat < s.dev.rVal) →
      Memory.read s.dev.opb p = some c → s.dev.rVal ≤ c.toNat →
      ∃ t, exec i s = .next t ∧ ErrorEnd i.cmd i.round 0 .invalidSymbol (BitVec.ofNat 17 (65536 + p)) s t ∧
        KeepsWorking s.dev t.dev

/-- A command that comes to read a DATA, OPB or TWEAK byte nothing has written stops on that byte. R50: a step that would read such a byte is a fault in the model, named by the byte. That the scan goes upward, DATA before OPB, and ends at an error found earlier is log 8; that MAC reads only the tweak bytes of its own block, so that the calls before that block are made first, is log 9. -/
def Obligations.UnwrittenOperandByteFaults : Prop :=
    (∀ (i : Instr) (s : State) (p : Nat), s.dev.Idle →
      registerError Config.params (s.dev.start i.cmd i.round) = none → i.cmd ≠ Cmd.ivgen →
      p < (if i.cmd = Cmd.prf then wOf s.dev.nVal i.round.toNat else s.dev.nVal) →
      (∀ a, a < p → ∃ c, Memory.read s.dev.data a = some c ∧ c.toNat < s.dev.rVal) →
      Memory.read s.dev.data p = none → exec i s = .fault (.unwrittenByte .data p)) ∧
    (∀ (i : Instr) (s : State) (p : Nat), s.dev.Idle →
      registerError Config.params (s.dev.start i.cmd i.round) = none → (i.cmd = Cmd.madd ∨ i.cmd = Cmd.msub) →
      p < s.dev.nVal →
      (∀ a, a < s.dev.nVal → ∃ c, Memory.read s.dev.data a = some c ∧ c.toNat < s.dev.rVal) →
      (∀ a, a < p → ∃ c, Memory.read s.dev.opb a = some c ∧ c.toNat < s.dev.rVal) →
      Memory.read s.dev.opb p = none → exec i s = .fault (.unwrittenByte .opb p)) ∧
    ∀ (i : Instr) (s : State) (x : List Nat) (p : Nat), s.dev.Idle →
      registerError Config.params (s.dev.start i.cmd i.round) = none →
      (i.cmd = Cmd.enc ∨ i.cmd = Cmd.dec ∨ i.cmd = Cmd.prf) → 1 ≤ s.dev.nVal →
      x.length = (if i.cmd = Cmd.prf then wOf s.dev.nVal i.round.toNat else s.dev.nVal) →
      HoldsDigits Config.params s.dev .data x → p < s.dev.tVal →
      (∀ a, a < p → ∃ c, Memory.read s.dev.tweak a = some c) → Memory.read s.dev.tweak p = none →
      s.env.Answers (1 + p / 16) → exec i s = .fault (.unwrittenByte .tweak p)

/-- Straight after reset every command fails in CHECK. R255. -/
def Obligations.FreshMachineFailsEveryCommand : Prop :=
    ∀ (rd : BitVec 4) (s : State), s.dev = Device.reset →
    (∀ i, i = Instr.enc rd ∨ i = .dec rd ∨ i = .prf rd ∨ i = .ivgen rd →
      ∃ t, exec i s = .next t ∧ ErrorEnd i.cmd rd 0 .invalidKeyLength 0 s t) ∧
    (∀ i, i = Instr.madd rd ∨ i = .msub rd → ∃ t, exec i s = .next t ∧ ErrorEnd i.cmd rd 0 .invalidRadix 0 s t) ∧
    ∃ t, exec (.illegal 0 rd) s = .next t ∧ ErrorEnd 0 rd 0 .illegalCommand 0 s t

/-- A failed cipher call ends the command there with CIPHER_FAILURE. R222 to R224 and the CIPHER_FAILURE row of R265. -/
def Obligations.CipherFailureEndsCommand : Prop :=
    (∀ (i : Instr) (s : State) (tw : List Byte) (x : List Nat) (c : Nat), (i.cmd = Cmd.enc ∨ i.cmd = Cmd.dec) →
      CipherReady Config.params s.dev → 1 ≤ s.dev.nVal → x.length = s.dev.nVal →
      HoldsTweak Config.params s.dev tw → HoldsDigits Config.params s.dev .data x →
      c < feistelCalls s.dev.nVal s.dev.rVal s.dev.tVal → s.env.FailsAt c →
      ∃ t, exec i s = .next t ∧ ErrorEnd i.cmd i.round (c + 1) .cipherFailure 0 s t) ∧
    (∀ (rd : BitVec 4) (s : State) (tw : List Byte) (h : List Nat) (c : Nat),
      CipherReady Config.params s.dev → 1 ≤ s.dev.nVal → rd.toNat ≤ 9 → h.length = wOf s.dev.nVal rd.toNat →
      HoldsTweak Config.params s.dev tw → HoldsDigits Config.params s.dev .data h →
      c < prfCalls s.dev.nVal s.dev.rVal s.dev.tVal → s.env.FailsAt c →
      ∃ t, exec (.prf rd) s = .next t ∧ ErrorEnd Cmd.prf rd (c + 1) .cipherFailure 0 s t) ∧
    ∀ (rd : BitVec 4) (s : State), CipherReady Config.params s.dev → s.env.FailsAt 0 →
      ∃ t, exec (.ivgen rd) s = .next t ∧ ErrorEnd Cmd.ivgen rd 1 .cipherFailure 0 s t ∧ KeepsWorking s.dev t.dev

/-- A command that ends with an error leaves DATA and OPB exactly as they were at its START. R223: no partial results. -/
def Obligations.ErrorsLeaveNoPartialResult : Prop :=
    (∀ (i : Instr) (s t : State), s.dev.phase = .idle → exec i s = .next t → t.dev.err = true →
      t.dev.data = s.dev.data ∧ t.dev.opb = s.dev.opb) ∧
    (∀ d e : Device, d.phase ≠ .writeback → ctlStep Config.params d = .ok e → e.data = d.data ∧ e.opb = d.opb) ∧
    ∀ d e : Device, d.phase = .writeback → d.port = .free → ctlStep Config.params d = .ok e →
      e.err = d.err ∧
      ((d.cmd = Cmd.enc ∨ d.cmd = Cmd.dec) →
        memRead Config.params e .data 0 d.nVal = .ok (digitBytes (d.regA ++ d.regB)) ∧ e.opb = d.opb) ∧
      (d.cmd = Cmd.prf → memRead Config.params e .opb 0 d.mVal = .ok (digitBytes d.regF) ∧ e.data = d.data) ∧
      ((d.cmd = Cmd.madd ∨ d.cmd = Cmd.msub) →
        memRead Config.params e .data 0 d.nVal = .ok (digitBytes d.regA) ∧ e.opb = d.opb)

/-- What ENC and DEC leave unchanged. Frame of ENC and DEC (R82, R178, R259); the status register's DONE, ERR and ERRCODE, CTRL, ERRINFO, CIPHCNT and the working registers are the command's to write (R170, R222). -/
def Obligations.FeistelCommandsFrame : Prop :=
    ∀ (i : Instr) (s t : State), (i.cmd = Cmd.enc ∨ i.cmd = Cmd.dec) → s.dev.phase = .idle → exec i s = .next t →
    KeepsOperands s.dev t.dev ∧ t.dev.opb = s.dev.opb ∧ KeepsFrom s.dev.nVal s.dev.data t.dev.data ∧
    t.dev.wbusy = s.dev.wbusy ∧ t.env = { s.env with engine := t.env.engine }

/-- What PRF leaves unchanged. Frame of PRF (R82, R178, R259). -/
def Obligations.PrfFrame : Prop :=
    ∀ (rd : BitVec 4) (s t : State), s.dev.phase = .idle → exec (.prf rd) s = .next t →
    KeepsOperands s.dev t.dev ∧ t.dev.data = s.dev.data ∧
    KeepsFrom (mOf s.dev.nVal rd.toNat) s.dev.opb t.dev.opb ∧
    t.dev.wbusy = s.dev.wbusy ∧ t.env = { s.env with engine := t.env.engine }

/-- What MADD and MSUB leave unchanged. Frame of MADD and MSUB (R82, R173, R178, R259). -/
def Obligations.RadixCommandsFrame : Prop :=
    ∀ (i : Instr) (s t : State), (i.cmd = Cmd.madd ∨ i.cmd = Cmd.msub) → s.dev.Idle → exec i s = .next t →
    KeepsOperands s.dev t.dev ∧ t.dev.opb = s.dev.opb ∧ KeepsFrom s.dev.nVal s.dev.data t.dev.data ∧
    t.dev.i = s.dev.i ∧ t.dev.k = s.dev.k ∧ t.dev.j = s.dev.j ∧ t.dev.iv = s.dev.iv ∧ t.dev.y = s.dev.y ∧
    t.dev.strm = s.dev.strm ∧ t.dev.wbusy = s.dev.wbusy ∧ t.dev.ciphcnt = 0 ∧ t.env = s.env

/-- What IVGEN leaves unchanged. Frame of IVGEN (R82, R185, R259). -/
def Obligations.IvgenFrame : Prop :=
    ∀ (rd : BitVec 4) (s t : State), s.dev.phase = .idle → exec (.ivgen rd) s = .next t →
    KeepsOperands s.dev t.dev ∧ KeepsBuffers s.dev t.dev ∧ KeepsWorking { s.dev with iv := t.dev.iv } t.dev ∧
    t.dev.wbusy = s.dev.wbusy ∧ t.env = { s.env with engine := t.env.engine }

/-- The merged command move is a run of single host, controller and engine steps. A command's meaning adds no behaviour to the single steps of R170, R194 and R66 (log 3). -/
def Obligations.MergedCommandIsRunOfSingleSteps : Prop :=
    ∀ (i : Instr) (s t : State), i.wf = true → exec i s = .next t →
    ∃ ms : List Move, (∀ m ∈ ms, m = .controller ∨ m = .engine) ∧
      Sys2Proof.core.run (ms.length + 1)
        { s with env := { s.env with sched := .host :: ms, script := .write 0x008 (encode i) :: s.env.script } } =
        .next { t with env := { t.env with sched := [] } }

/-- Two successful runs of a command from equal operands write equal results. R192: the results R82 lists are a function of the operands R82 lists and of Ciph. ENC and DEC of the empty message write none of IVR, YR and RIDX (R172); PRF succeeds only for n ≥ 1. -/
def Obligations.ResultsDependOnlyOnOperands : Prop :=
    ∀ (i : Instr) (s s' t t' : State), s.dev.phase = .idle → s'.dev.phase = .idle →
    exec i s = .next t → exec i s' = .next t' → t.dev.done = true → t'.dev.done = true →
    s.dev.radix = s'.dev.radix → s.dev.len = s'.dev.len →
    (usesCipher i.cmd = true → s.dev.keyBytes = s'.dev.keyBytes ∧ s.dev.tlen = s'.dev.tlen) →
    (i.cmd = Cmd.enc ∨ i.cmd = Cmd.dec ∨ i.cmd = Cmd.prf →
      ∀ a, a < s.dev.tVal → Memory.read s.dev.tweak a = Memory.read s'.dev.tweak a) →
    (i.cmd ≠ Cmd.ivgen → ∀ a, a < (if i.cmd = Cmd.prf then wOf s.dev.nVal i.round.toNat else s.dev.nVal) →
      Memory.read s.dev.data a = Memory.read s'.dev.data a) →
    ((i.cmd = Cmd.madd ∨ i.cmd = Cmd.msub) →
      ∀ a, a < s.dev.nVal → Memory.read s.dev.opb a = Memory.read s'.dev.opb a) →
    ((i.cmd = Cmd.enc ∨ i.cmd = Cmd.dec ∨ i.cmd = Cmd.madd ∨ i.cmd = Cmd.msub) →
      ∀ a, a < s.dev.nVal → Memory.read t.dev.data a = Memory.read t'.dev.data a) ∧
    (i.cmd = Cmd.prf →
      ∀ a, a < mOf s.dev.nVal i.round.toNat → Memory.read t.dev.opb a = Memory.read t'.dev.opb a) ∧
    ((i.cmd = Cmd.enc ∨ i.cmd = Cmd.dec ∨ i.cmd = Cmd.prf) → 1 ≤ s.dev.nVal →
      t.dev.iv = t'.dev.iv ∧ t.dev.y = t'.dev.y ∧ t.dev.i = t'.dev.i) ∧
    (i.cmd = Cmd.ivgen → t.dev.iv = t'.dev.iv) ∧ t.dev.ciphcnt = t'.dev.ciphcnt

/-- DEC right after ENC restores DATA. The machine form of R188's round trip. -/
def Obligations.DecAfterEncRestoresData : Prop :=
    ∀ (a b : BitVec 4) (s : State) (tw : List Byte) (x : List Nat),
    CipherReady Config.params s.dev → x.length = s.dev.nVal →
    HoldsTweak Config.params s.dev tw → HoldsDigits Config.params s.dev .data x →
    s.env.Answers (2 * feistelCalls s.dev.nVal s.dev.rVal s.dev.tVal) →
    ∃ t u, exec (.enc a) s = .next t ∧ t.dev.done = true ∧ exec (.dec b) t = .next u ∧ u.dev.done = true ∧
      (∀ p, Memory.read u.dev.data p = Memory.read s.dev.data p) ∧ u.dev.opb = s.dev.opb

/-- FFX_DEC inverts FFX_ENC for every key, tweak, radix and digit sequence. R188 over the functions of R186. It holds of any function in the cipher's place: decryption uses forward calls only (R189). -/
def Obligations.FfxDecInvertsFfxEnc : Prop :=
    ∀ (E : Block → Block) (tw : List Byte) (r : Nat) (x : List Nat), 2 ≤ r → (∀ c ∈ x, c < r) →
    ffxDec E tw r (ffxEnc E tw r x) = x

/-- FFX_ENC and FFX_DEC keep the length and every digit below the radix. R190 with R111 and R187, over the functions of R186. -/
def Obligations.FfxKeepsLengthAndRadix : Prop :=
    ∀ (E : Block → Block) (tw : List Byte) (r : Nat) (x : List Nat), 2 ≤ r → (∀ c ∈ x, c < r) →
    (ffxEnc E tw r x).length = x.length ∧ (∀ c ∈ ffxEnc E tw r x, c < r) ∧
    (ffxDec E tw r x).length = x.length ∧ ∀ c ∈ ffxDec E tw r x, c < r

/-- The half lengths alternate from round to round. R187 over the rounds of R186. -/
def Obligations.RoundHalvesAlternate : Prop :=
    ∀ (E : Block → Block) (tw : List Byte) (r : Nat) (iv : Block) (x : List Nat) (i : Nat), i ≤ 9 →
    ((encRounds E tw x.length r iv (splitHalves x) i).1.length = mOf x.length i ∧
      (encRounds E tw x.length r iv (splitHalves x) i).2.length = x.length - mOf x.length i) ∧
    ((decRounds E tw x.length r iv (splitHalves x) (9 - i)).2.length = mOf x.length i ∧
      (decRounds E tw x.length r iv (splitHalves x) (9 - i)).1.length = x.length - mOf x.length i) ∧
    ∀ h, (roundFn E tw x.length r i h iv).length = mOf x.length i

/-- The conversion laws of NUM, STR and [x]^k. R107, clause by clause. -/
def Obligations.NumStrConversionLaws : Prop :=
    (∀ (r m : Nat) (ds : List Nat), 2 ≤ r → r ≤ 62 → ds.length = m → (∀ c ∈ ds, c < r) →
      num r ds < r ^ m ∧ str r m (num r ds) = ds) ∧
    (∀ r m x : Nat, 2 ≤ r → r ≤ 62 → x < r ^ m → num r (str r m x) = x) ∧
    ∀ k x : Nat, x < 256 ^ k → num256 (bytesBE k x) = x

/-- RADD and RSUB undo each other. R112's law. -/
def Obligations.RaddRsubInverse : Prop :=
    ∀ (r : Nat) (x y : List Nat), 2 ≤ r → r ≤ 62 → y.length = x.length → (∀ c ∈ x, c < r) → (∀ c ∈ y, c < r) →
    rsub r x.length (radd r x.length x y) y = x ∧ radd r x.length (rsub r x.length x y) y = x

/-- Digit-serial addition and subtraction give RADD and RSUB. R110. -/
def Obligations.DigitSerialArithmeticAgrees : Prop :=
    ∀ (r : Nat) (x y : List Nat), 2 ≤ r → r ≤ 62 → y.length = x.length → (∀ c ∈ x, c < r) → (∀ c ∈ y, c < r) →
    raddSerial r x y = radd r x.length x y ∧ rsubSerial r x y = rsub r x.length x y

/-- Adding r^L once when the difference is negative gives RSUB. The source's form of subtraction, R109. -/
def Obligations.BorrowFormOfRsubAgrees : Prop :=
    ∀ (r : Nat) (x y : List Nat), 2 ≤ r → r ≤ 62 → y.length = x.length → (∀ c ∈ x, c < r) → (∀ c ∈ y, c < r) →
    rsub r x.length x y =
      if num r y ≤ num r x then str r x.length (num r x - num r y)
      else str r x.length (num r x + r ^ x.length - num r y)

/-- BITS(v, r) is the least k with 2^k >= r^v, and a numeral of a half always fits b bytes. R131's definition of BITS and R141's no-truncation claim. -/
def Obligations.HalfByteCountIsExact : Prop :=
    (∀ v r k : Nat, 1 ≤ r → (bits v r ≤ k ↔ r ^ v ≤ 2 ^ k)) ∧
    ∀ (n r : Nat) (h : List Nat), 2 ≤ r → r ≤ 62 → h.length ≤ vOf n → (∀ c ∈ h, c < r) → num r h < 256 ^ bOf n r

/-- Q has exactly 16 q bytes, q is at least 1 and is ceil((t + b + 1)/16). R132, R135, R136, R138. -/
def Obligations.PrfInputHasWholeBlocks : Prop :=
    ∀ (E : Block → Block) (tw : List Byte) (n r i : Nat) (h : List Nat) (y : Block),
    (qString tw n r i h).length = 16 * qOf n r tw.length ∧ 1 ≤ qOf n r tw.length ∧
    qOf n r tw.length = (tw.length + bOf n r + 1 + 15) / 16 ∧ padOf n r tw.length < 16 ∧
    (keyStream E n r y).length = dOf n r + 4 ∧ dOf n r % 4 = 0 ∧ bOf n r ≤ dOf n r ∧ dOf n r < bOf n r + 4

/-- The issue steps of HDR, MAC and EXPAND post P, Y xor Q_k and Y xor [j]^16. R145, R147, R149. That MAC reads only the tweak bytes of its own block is the model's (log 9); the block is that of the whole Q. -/
def Obligations.IssueStepsPostTheRequests : Prop :=
    ∀ d : Device, d.port = .free →
    (d.phase = .hdr → ctlStep Config.params d =
      .ok { d with port := .req d.keyBytes (header d.rVal d.nVal d.tVal), ciphcnt := d.ciphcnt + 1 }) ∧
    (∀ tw, d.phase = .mac → HoldsTweak Config.params d tw → num d.rVal d.half < 256 ^ d.bVal →
      1 ≤ d.k.toNat → d.k.toNat ≤ d.qVal → ctlStep Config.params d =
      .ok { d with
        port := .req d.keyBytes (d.y ^^^ qBlock (qString tw d.nVal d.rVal d.iVal d.half) d.k.toNat)
        ciphcnt := d.ciphcnt + 1 }) ∧
    (d.phase = .expand → ctlStep Config.params d =
      .ok { d with port := .req d.keyBytes (d.y ^^^ BitVec.ofNat 128 d.j.toNat), ciphcnt := d.ciphcnt + 1 })

/-- A request waits for the engine, and only the engine serves it. R66 and the waiting rows of R194; the draw is the head of Env.engine (log 4), and a disabled move does nothing (log 1). -/
def Obligations.PortProtocolAlternates : Prop :=
    ∀ (s : State) (key : List Byte) (x : Block) (ms : List Move),
    (s.dev.port = .req key x → s.env.sched = .controller :: ms →
      step s = .next { s with env := { s.env with sched := ms } }) ∧
    (s.dev.port = .req key x → s.env.sched = .engine :: ms → s.env.engine.headD .ok = .ok →
      step s = .next { dev := { s.dev with port := .rsp (.ok (Config.params.ciph key x)) },
                       env := { s.env with sched := ms, engine := s.env.engine.tail } }) ∧
    (s.dev.port = .req key x → s.env.sched = .engine :: ms → s.env.engine.headD .ok = .fail →
      step s = .next { dev := { s.dev with port := .rsp .fail },
                       env := { s.env with sched := ms, engine := s.env.engine.tail } }) ∧
    (s.dev.waiting = false → s.env.sched = .engine :: ms → step s = .next { s with env := { s.env with sched := ms } })

/-- Consuming Rsp(Fail) raises CIPHER_FAILURE in HDR, MAC and EXPAND and keeps everything else. R222, R224. -/
def Obligations.FailedAnswerRaisesInEveryPhase : Prop :=
    ∀ d : Device, (d.phase = .hdr ∨ d.phase = .mac ∨ d.phase = .expand) → d.port = .rsp .fail →
    ctlStep Config.params d =
      .ok { d with port := .free, phase := .idle, err := true, errcode := .cipherFailure }

/-- A host read or poll leaves FFXR as it is and delivers the word. R65, R88; where the delivered word is kept is log 2. -/
def Obligations.HostReadsHaveNoSideEffect : Prop :=
    ∀ (s : State) (o : Offset) (mask val : Word) (ops : List HostOp) (ms : List Move), s.env.sched = .host :: ms →
    (s.env.script = .read o :: ops → ∃ t, step s = .next t ∧ t.dev = s.dev ∧ t.env.script = ops ∧ t.env.sched = ms ∧
      t.env.engine = s.env.engine ∧ t.env.rdata = hostRead Config.params o s.dev s.env.draws) ∧
    (s.env.script = .poll o mask val :: ops → ∃ t, step s = .next t ∧ t.dev = s.dev ∧ t.env.sched = ms ∧
      t.env.engine = s.env.engine ∧ t.env.rdata = hostRead Config.params o s.dev s.env.draws ∧
      (t.env.rdata &&& mask = val → t.env.script = ops) ∧
      (t.env.rdata &&& mask ≠ val → t.env.script = s.env.script))

/-- A host write move performs exactly the write. R65, R69, R70. -/
def Obligations.HostWriteStepWritesTheWindow : Prop :=
    ∀ (s : State) (o : Offset) (x : Word) (ops : List HostOp) (ms : List Move), s.env.sched = .host :: ms →
    s.env.script = .write o x :: ops →
    step s = .next { dev := hostWrite Config.params o x s.dev, env := { s.env with sched := ms, script := ops } }

/-- A write of a protected register or window takes effect while idle and only sets WBUSY while busy. R47. While idle: CTRL by R33 and R170, RADIX R36, KEYLEN R37, LEN R38, TLEN R39, KEY R42, the windows R63 and R69, the bytes of a word R61. The buffers' 256 bytes are this instance's (log 6). -/
def Obligations.ProtectedWritesWhileBusyAreDropped : Prop :=
    ∀ (d : Device) (o : Offset) (x : Word),
    let a := 4 * (o.toNat / 4)
    let e := hostWrite Config.params o x d
    (a = 0x008 ∨ a = 0x014 ∨ a = 0x018 ∨ a = 0x01C ∨ a = 0x020 ∨ (0x040 ≤ a ∧ a < 0x060) ∨ 0x10000 ≤ a) →
    (d.phase ≠ .idle → e = { d with wbusy := true }) ∧
    (d.phase = .idle →
      (a = 0x008 → x.getLsbD 0 = false →
        e = { d with ctrlCmd := x.extractLsb' 4 4, ctrlRound := x.extractLsb' 8 4 }) ∧
      (a = 0x008 → x.getLsbD 0 = true → e = { d with
        ctrlCmd := x.extractLsb' 4 4, ctrlRound := x.extractLsb' 8 4, cmd := x.extractLsb' 4 4, done := false
        err := false, errcode := .none, errinfo := 0, ciphcnt := 0, phase := .check }) ∧
      (a = 0x014 → e = { d with radix := x.extractLsb' 0 8 }) ∧
      (a = 0x018 → e = { d with keylen := x.extractLsb' 0 6 }) ∧
      (a = 0x01C → e = { d with len := x.extractLsb' 0 16 }) ∧
      (a = 0x020 → e = { d with tlen := x.extractLsb' 0 16 }) ∧
      (∀ w, w < 8 → a = 0x040 + 4 * w → e = { d with key := e.key } ∧ ∀ p, p < 32 →
        e.key[p]? = if p / 4 = w then some (x.extractLsb' (24 - 8 * (p % 4)) 8) else d.key[p]?) ∧
      (0x10000 ≤ a →
        let b : Buf := if a < 0x20000 then .tweak else if a < 0x30000 then .data else .opb
        let q := a % 0x10000
        e = d.setBuf b (e.buf b) ∧ ∀ p, Memory.read (e.buf b) p =
          if q < 256 ∧ q ≤ p ∧ p < q + 4 then some (x.extractLsb' (24 - 8 * (p - q)) 8)
          else Memory.read (d.buf b) p))

/-- A CTRL write with START = 1 while idle starts the command. R170's accepted START, and R71 item 4. -/
def Obligations.StartAcceptanceWrite : Prop :=
    ∀ (d : Device) (x : Word), d.phase = .idle → x.getLsbD 0 = true →
    let e := hostWrite Config.params 0x008 x d
    e = { d with
      ctrlCmd := x.extractLsb' 4 4, ctrlRound := x.extractLsb' 8 4, cmd := x.extractLsb' 4 4, done := false
      err := false, errcode := .none, errinfo := 0, ciphcnt := 0, phase := .check } ∧
    (e.statusWord).getLsbD 0 = true ∧ (e.statusWord).getLsbD 3 = d.wbusy

/-- STATUS, INTEN and the read-only and unmapped offsets behave the same idle or busy. R34, R35, R69, R77. -/
def Obligations.UnprotectedWritesActAtAnyTime : Prop :=
    ∀ (d : Device) (o : Offset) (x : Word),
    let a := 4 * (o.toNat / 4)
    (a = 0x00C → hostWrite Config.params o x d =
      { d with done := d.done && !x.getLsbD 1, err := d.err && !x.getLsbD 2, wbusy := d.wbusy && !x.getLsbD 3 }) ∧
    (a = 0x010 → hostWrite Config.params o x d = { d with inten := x.extractLsb' 0 3 }) ∧
    ((a = 0x000 ∨ a = 0x004 ∨ a = 0x024 ∨ a = 0x028 ∨ (0x02C ≤ a ∧ a < 0x040) ∨ (0x060 ≤ a ∧ a < 0x10000)) →
      hostWrite Config.params o x d = d)

/-- Offset bits [1:0] of a host access are ignored. R64's host part. -/
def Obligations.OffsetLowBitsAreIgnored : Prop :=
    (∀ (d : Device) (o : Offset) (x : Word) (n : Nat),
      hostWrite Config.params o x d = hostWrite Config.params (o &&& 0x3FFFC#18) x d ∧
      hostRead Config.params o d n = hostRead Config.params (o &&& 0x3FFFC#18) d n) ∧
    ∀ (s : State) (ms : List Move), s.env.sched = .host :: ms → ∃ t, step s = .next t

/-- A buffer word written while idle is read back, byte 4p+c in bits [31-8c : 24-8c], and nothing else changes. R61, R63, R68, R69. The buffers' 256 bytes are this instance's (log 6). -/
def Obligations.BufferWindowWordAccess : Prop :=
    ∀ (d : Device) (b : Buf) (base : Nat) (o : Offset) (x : Word) (n : Nat),
    ((b = .tweak ∧ base = 0x10000) ∨ (b = .data ∧ base = 0x20000) ∨ (b = .opb ∧ base = 0x30000)) →
    base ≤ o.toNat → o.toNat < base + 0x10000 →
    let a := 4 * ((o.toNat - base) / 4)
    (d.phase = .idle → a < 256 →
      (∀ c, c < 4 → Memory.read ((hostWrite Config.params o x d).buf b) (a + c) = some (x.extractLsb' (24 - 8 * c) 8)) ∧
      (∀ p, (p < a ∨ a + 4 ≤ p) → Memory.read ((hostWrite Config.params o x d).buf b) p = Memory.read (d.buf b) p) ∧
      hostWrite Config.params o x d = d.setBuf b ((hostWrite Config.params o x d).buf b) ∧
      hostRead Config.params o (hostWrite Config.params o x d) n = x) ∧
    (d.phase = .idle → 256 ≤ a →
      hostWrite Config.params o x d = d ∧ hostRead Config.params o d n = 0) ∧
    (d.phase ≠ .idle → hostRead Config.params o d n = 0)

/-- KEYw takes a big-endian word while idle, always reads 0, and no host read depends on KEY. R42, R61, R264. -/
def Obligations.KeyIsWriteOnly : Prop :=
    (∀ (d : Device) (w : Nat) (x : Word) (n : Nat), w < 8 →
      let o : Offset := BitVec.ofNat 18 (0x040 + 4 * w)
      (d.phase = .idle →
        hostWrite Config.params o x d = { d with key := (hostWrite Config.params o x d).key } ∧
        (∀ c, c < 4 → (hostWrite Config.params o x d).key[4 * w + c]? = some (x.extractLsb' (24 - 8 * c) 8)) ∧
        ∀ p, (p < 4 * w ∨ 4 * w + 4 ≤ p) → (hostWrite Config.params o x d).key[p]? = d.key[p]?) ∧
      hostRead Config.params o d n = 0) ∧
    ∀ (d : Device) (key : Vector Byte 32) (o : Offset) (n : Nat),
      hostRead Config.params o { d with key := key } n = hostRead Config.params o d n

/-- The words that reads of the registers return. R31 to R44, R68. -/
def Obligations.RegisterReadWords : Prop :=
    ∀ (d : Device) (n : Nat) (o : Offset),
    let a := 4 * (o.toNat / 4)
    let v := (hostRead Config.params o d n).toNat
    (a = 0x000 → v = 0x46465852) ∧ (a = 0x004 → v = 256 * 2 ^ 16 + 256) ∧
    (a = 0x008 → v = d.ctrlRound.toNat * 2 ^ 8 + d.ctrlCmd.toNat * 2 ^ 4) ∧
    (a = 0x00C → v = d.i.toNat * 2 ^ 20 + d.phase.code.toNat * 2 ^ 16 + d.errcode.code.toNat * 2 ^ 8
      + d.wbusy.toNat * 8 + d.err.toNat * 4 + d.done.toNat * 2 + (decide (d.phase ≠ .idle)).toNat) ∧
    (a = 0x010 → v = d.inten.toNat) ∧ (a = 0x014 → v = d.radix.toNat) ∧ (a = 0x018 → v = d.keylen.toNat) ∧
    (a = 0x01C → v = d.len.toNat) ∧ (a = 0x020 → v = d.tlen.toNat) ∧ (a = 0x024 → v = d.errinfo.toNat) ∧
    (a = 0x028 → v = d.ciphcnt.toNat) ∧
    (∀ w, w < 4 → a = 0x060 + 4 * w → v = d.iv.toNat / 2 ^ (96 - 32 * w) % 2 ^ 32) ∧
    (∀ w, w < 4 → a = 0x070 + 4 * w → v = d.y.toNat / 2 ^ (96 - 32 * w) % 2 ^ 32) ∧
    ((0x02C ≤ a ∧ a < 0x060) ∨ (0x080 ≤ a ∧ a < 0x10000) → v = 0)

/-- irq is the OR of the enabled pending flags, read through the registers. R46, with STATUS bits 1, 2, 3 and INTEN bits 0, 1, 2. -/
def Obligations.IrqIsTheEnabledPendingLevel : Prop :=
    (∀ d : Device, d.irq = true ↔
      (d.statusWord.getLsbD 1 = true ∧ d.inten.getLsbD 0 = true) ∨
      (d.statusWord.getLsbD 2 = true ∧ d.inten.getLsbD 1 = true) ∨
      (d.statusWord.getLsbD 3 = true ∧ d.inten.getLsbD 2 = true)) ∧ State.reset.dev.irq = false

/-- The SETKEY script leaves the key bytes in KEY and the length in KEYLEN. R89's SETKEY over R42 and R61. -/
def Obligations.SetKeyScriptLoadsTheKey : Prop :=
    ∀ (s : State) (kb : List Byte), s.dev.phase = .idle →
    (kb.length = 16 ∨ kb.length = 24 ∨ kb.length = 32) →
    ∃ t, Sys2Proof.core.run (scriptSetKey kb).length
        { s with env := { s.env with
          sched := List.replicate (scriptSetKey kb).length .host, script := scriptSetKey kb } } = .next t ∧
      t.dev.keyBytes = kb ∧ t.dev.KeyLegal ∧ (∀ p, kb.length ≤ p → t.dev.key[p]? = s.dev.key[p]?) ∧
      t.dev = { s.dev with key := t.dev.key, keylen := t.dev.keylen } ∧ t.env.script = []

/-- The LOADBUF script leaves the byte string in the buffer, zero-filled to a word. R89's LOADBUF over R61 and R63. -/
def Obligations.LoadBufScriptLoadsTheBuffer : Prop :=
    ∀ (s : State) (b : Buf) (bs : List Byte), s.dev.phase = .idle → bs.length ≤ Params.size Config.params b →
    ∃ t, Sys2Proof.core.run (scriptLoadBuf (windowBase b) bs).length
        { s with env := { s.env with
          sched := List.replicate (scriptLoadBuf (windowBase b) bs).length .host
          script := scriptLoadBuf (windowBase b) bs } } = .next t ∧
      (∀ a, a < 4 * wordCount bs.length → Memory.read (t.dev.buf b) a = some (bs.getD a 0)) ∧
      KeepsFrom (4 * wordCount bs.length) (s.dev.buf b) (t.dev.buf b) ∧
      t.dev = s.dev.setBuf b (t.dev.buf b) ∧ t.env.script = []
end

