-- ==== Sys2Proof/Laws/Config.lean ====
section
/-! SUPPORT. What Config.params fixes of the parameters of 00_scope R8, so that no proof unfolds it, and that its values
are legal. -/
namespace Sys2Proof

@[simp] theorem Config.params_nMax : Config.params.nMax = 256 := rfl

@[simp] theorem Config.params_tweakMax : Config.params.tweakMax = 256 := rfl

theorem Config.params_base : Config.params.base = Config.baseIndex * 2 ^ 18 := by rw [Config.params]

@[simp] theorem Config.params_size (b : Machine.Buf) : Machine.Params.size Config.params b = 256 := by cases b <;> rfl

/-- The parameters of the modelled instance are legal (R8). -/
theorem Config.params_legal : Config.params.Legal where
  nMax_range := by simp
  nMax_mult := by simp
  tweakMax_range := by simp
  tweakMax_mult := by simp
  base_aligned := by rw [Config.params_base, Nat.mul_mod_left]

end Sys2Proof
end

