-- ==== Sys2Proof/Laws/State.lean ====
section
/-! SUPPORT. One lemma per component for each named update of `Device`, all by unfolding, so that no later proof unfolds a
record update; and which derived quantities an update leaves alone. -/
namespace Sys2Proof.Machine

/-! ### complete() (R179) -/
@[simp] theorem Device.complete_phase (d : Device) : d.complete.phase = .idle := rfl
@[simp] theorem Device.complete_cmd (d : Device) : d.complete.cmd = d.cmd := rfl
@[simp] theorem Device.complete_i (d : Device) : d.complete.i = d.i := rfl
@[simp] theorem Device.complete_k (d : Device) : d.complete.k = d.k := rfl
@[simp] theorem Device.complete_j (d : Device) : d.complete.j = d.j := rfl
@[simp] theorem Device.complete_regA (d : Device) : d.complete.regA = d.regA := rfl
@[simp] theorem Device.complete_regB (d : Device) : d.complete.regB = d.regB := rfl
@[simp] theorem Device.complete_regF (d : Device) : d.complete.regF = d.regF := rfl
@[simp] theorem Device.complete_iv (d : Device) : d.complete.iv = d.iv := rfl
@[simp] theorem Device.complete_y (d : Device) : d.complete.y = d.y := rfl
@[simp] theorem Device.complete_strm (d : Device) : d.complete.strm = d.strm := rfl
@[simp] theorem Device.complete_port (d : Device) : d.complete.port = d.port := rfl
@[simp] theorem Device.complete_ctrlCmd (d : Device) : d.complete.ctrlCmd = d.ctrlCmd := rfl
@[simp] theorem Device.complete_ctrlRound (d : Device) : d.complete.ctrlRound = d.ctrlRound := rfl
@[simp] theorem Device.complete_done (d : Device) : d.complete.done = true := rfl
@[simp] theorem Device.complete_err (d : Device) : d.complete.err = d.err := rfl
@[simp] theorem Device.complete_wbusy (d : Device) : d.complete.wbusy = d.wbusy := rfl
@[simp] theorem Device.complete_errcode (d : Device) : d.complete.errcode = .none := rfl
@[simp] theorem Device.complete_inten (d : Device) : d.complete.inten = d.inten := rfl
@[simp] theorem Device.complete_radix (d : Device) : d.complete.radix = d.radix := rfl
@[simp] theorem Device.complete_keylen (d : Device) : d.complete.keylen = d.keylen := rfl
@[simp] theorem Device.complete_len (d : Device) : d.complete.len = d.len := rfl
@[simp] theorem Device.complete_tlen (d : Device) : d.complete.tlen = d.tlen := rfl
@[simp] theorem Device.complete_errinfo (d : Device) : d.complete.errinfo = d.errinfo := rfl
@[simp] theorem Device.complete_ciphcnt (d : Device) : d.complete.ciphcnt = d.ciphcnt := rfl
@[simp] theorem Device.complete_key (d : Device) : d.complete.key = d.key := rfl
@[simp] theorem Device.complete_tweak (d : Device) : d.complete.tweak = d.tweak := rfl
@[simp] theorem Device.complete_data (d : Device) : d.complete.data = d.data := rfl
@[simp] theorem Device.complete_opb (d : Device) : d.complete.opb = d.opb := rfl

/-! ### raise (R222) -/
@[simp] theorem Device.raise_phase (code : ErrorCode) (info : BitVec 17) (d : Device) : (d.raise code info).phase = .idle := rfl
@[simp] theorem Device.raise_cmd (code : ErrorCode) (info : BitVec 17) (d : Device) : (d.raise code info).cmd = d.cmd := rfl
@[simp] theorem Device.raise_i (code : ErrorCode) (info : BitVec 17) (d : Device) : (d.raise code info).i = d.i := rfl
@[simp] theorem Device.raise_k (code : ErrorCode) (info : BitVec 17) (d : Device) : (d.raise code info).k = d.k := rfl
@[simp] theorem Device.raise_j (code : ErrorCode) (info : BitVec 17) (d : Device) : (d.raise code info).j = d.j := rfl
@[simp] theorem Device.raise_regA (code : ErrorCode) (info : BitVec 17) (d : Device) : (d.raise code info).regA = d.regA := rfl
@[simp] theorem Device.raise_regB (code : ErrorCode) (info : BitVec 17) (d : Device) : (d.raise code info).regB = d.regB := rfl
@[simp] theorem Device.raise_regF (code : ErrorCode) (info : BitVec 17) (d : Device) : (d.raise code info).regF = d.regF := rfl
@[simp] theorem Device.raise_iv (code : ErrorCode) (info : BitVec 17) (d : Device) : (d.raise code info).iv = d.iv := rfl
@[simp] theorem Device.raise_y (code : ErrorCode) (info : BitVec 17) (d : Device) : (d.raise code info).y = d.y := rfl
@[simp] theorem Device.raise_strm (code : ErrorCode) (info : BitVec 17) (d : Device) : (d.raise code info).strm = d.strm := rfl
@[simp] theorem Device.raise_port (code : ErrorCode) (info : BitVec 17) (d : Device) : (d.raise code info).port = d.port := rfl
@[simp] theorem Device.raise_ctrlCmd (code : ErrorCode) (info : BitVec 17) (d : Device) : (d.raise code info).ctrlCmd = d.ctrlCmd := rfl
@[simp] theorem Device.raise_ctrlRound (code : ErrorCode) (info : BitVec 17) (d : Device) : (d.raise code info).ctrlRound = d.ctrlRound := rfl
@[simp] theorem Device.raise_done (code : ErrorCode) (info : BitVec 17) (d : Device) : (d.raise code info).done = d.done := rfl
@[simp] theorem Device.raise_err (code : ErrorCode) (info : BitVec 17) (d : Device) : (d.raise code info).err = true := rfl
@[simp] theorem Device.raise_wbusy (code : ErrorCode) (info : BitVec 17) (d : Device) : (d.raise code info).wbusy = d.wbusy := rfl
@[simp] theorem Device.raise_errcode (code : ErrorCode) (info : BitVec 17) (d : Device) : (d.raise code info).errcode = code := rfl
@[simp] theorem Device.raise_inten (code : ErrorCode) (info : BitVec 17) (d : Device) : (d.raise code info).inten = d.inten := rfl
@[simp] theorem Device.raise_radix (code : ErrorCode) (info : BitVec 17) (d : Device) : (d.raise code info).radix = d.radix := rfl
@[simp] theorem Device.raise_keylen (code : ErrorCode) (info : BitVec 17) (d : Device) : (d.raise code info).keylen = d.keylen := rfl
@[simp] theorem Device.raise_len (code : ErrorCode) (info : BitVec 17) (d : Device) : (d.raise code info).len = d.len := rfl
@[simp] theorem Device.raise_tlen (code : ErrorCode) (info : BitVec 17) (d : Device) : (d.raise code info).tlen = d.tlen := rfl
@[simp] theorem Device.raise_errinfo (code : ErrorCode) (info : BitVec 17) (d : Device) : (d.raise code info).errinfo = if code = .invalidSymbol then info else d.errinfo := rfl
@[simp] theorem Device.raise_ciphcnt (code : ErrorCode) (info : BitVec 17) (d : Device) : (d.raise code info).ciphcnt = d.ciphcnt := rfl
@[simp] theorem Device.raise_key (code : ErrorCode) (info : BitVec 17) (d : Device) : (d.raise code info).key = d.key := rfl
@[simp] theorem Device.raise_tweak (code : ErrorCode) (info : BitVec 17) (d : Device) : (d.raise code info).tweak = d.tweak := rfl
@[simp] theorem Device.raise_data (code : ErrorCode) (info : BitVec 17) (d : Device) : (d.raise code info).data = d.data := rfl
@[simp] theorem Device.raise_opb (code : ErrorCode) (info : BitVec 17) (d : Device) : (d.raise code info).opb = d.opb := rfl

/-! ### a CTRL write without START (R33) -/
@[simp] theorem Device.storeCtrl_phase (c rd : BitVec 4) (d : Device) : (d.storeCtrl c rd).phase = d.phase := rfl
@[simp] theorem Device.storeCtrl_cmd (c rd : BitVec 4) (d : Device) : (d.storeCtrl c rd).cmd = d.cmd := rfl
@[simp] theorem Device.storeCtrl_i (c rd : BitVec 4) (d : Device) : (d.storeCtrl c rd).i = d.i := rfl
@[simp] theorem Device.storeCtrl_k (c rd : BitVec 4) (d : Device) : (d.storeCtrl c rd).k = d.k := rfl
@[simp] theorem Device.storeCtrl_j (c rd : BitVec 4) (d : Device) : (d.storeCtrl c rd).j = d.j := rfl
@[simp] theorem Device.storeCtrl_regA (c rd : BitVec 4) (d : Device) : (d.storeCtrl c rd).regA = d.regA := rfl
@[simp] theorem Device.storeCtrl_regB (c rd : BitVec 4) (d : Device) : (d.storeCtrl c rd).regB = d.regB := rfl
@[simp] theorem Device.storeCtrl_regF (c rd : BitVec 4) (d : Device) : (d.storeCtrl c rd).regF = d.regF := rfl
@[simp] theorem Device.storeCtrl_iv (c rd : BitVec 4) (d : Device) : (d.storeCtrl c rd).iv = d.iv := rfl
@[simp] theorem Device.storeCtrl_y (c rd : BitVec 4) (d : Device) : (d.storeCtrl c rd).y = d.y := rfl
@[simp] theorem Device.storeCtrl_strm (c rd : BitVec 4) (d : Device) : (d.storeCtrl c rd).strm = d.strm := rfl
@[simp] theorem Device.storeCtrl_port (c rd : BitVec 4) (d : Device) : (d.storeCtrl c rd).port = d.port := rfl
@[simp] theorem Device.storeCtrl_ctrlCmd (c rd : BitVec 4) (d : Device) : (d.storeCtrl c rd).ctrlCmd = c := rfl
@[simp] theorem Device.storeCtrl_ctrlRound (c rd : BitVec 4) (d : Device) : (d.storeCtrl c rd).ctrlRound = rd := rfl
@[simp] theorem Device.storeCtrl_done (c rd : BitVec 4) (d : Device) : (d.storeCtrl c rd).done = d.done := rfl
@[simp] theorem Device.storeCtrl_err (c rd : BitVec 4) (d : Device) : (d.storeCtrl c rd).err = d.err := rfl
@[simp] theorem Device.storeCtrl_wbusy (c rd : BitVec 4) (d : Device) : (d.storeCtrl c rd).wbusy = d.wbusy := rfl
@[simp] theorem Device.storeCtrl_errcode (c rd : BitVec 4) (d : Device) : (d.storeCtrl c rd).errcode = d.errcode := rfl
@[simp] theorem Device.storeCtrl_inten (c rd : BitVec 4) (d : Device) : (d.storeCtrl c rd).inten = d.inten := rfl
@[simp] theorem Device.storeCtrl_radix (c rd : BitVec 4) (d : Device) : (d.storeCtrl c rd).radix = d.radix := rfl
@[simp] theorem Device.storeCtrl_keylen (c rd : BitVec 4) (d : Device) : (d.storeCtrl c rd).keylen = d.keylen := rfl
@[simp] theorem Device.storeCtrl_len (c rd : BitVec 4) (d : Device) : (d.storeCtrl c rd).len = d.len := rfl
@[simp] theorem Device.storeCtrl_tlen (c rd : BitVec 4) (d : Device) : (d.storeCtrl c rd).tlen = d.tlen := rfl
@[simp] theorem Device.storeCtrl_errinfo (c rd : BitVec 4) (d : Device) : (d.storeCtrl c rd).errinfo = d.errinfo := rfl
@[simp] theorem Device.storeCtrl_ciphcnt (c rd : BitVec 4) (d : Device) : (d.storeCtrl c rd).ciphcnt = d.ciphcnt := rfl
@[simp] theorem Device.storeCtrl_key (c rd : BitVec 4) (d : Device) : (d.storeCtrl c rd).key = d.key := rfl
@[simp] theorem Device.storeCtrl_tweak (c rd : BitVec 4) (d : Device) : (d.storeCtrl c rd).tweak = d.tweak := rfl
@[simp] theorem Device.storeCtrl_data (c rd : BitVec 4) (d : Device) : (d.storeCtrl c rd).data = d.data := rfl
@[simp] theorem Device.storeCtrl_opb (c rd : BitVec 4) (d : Device) : (d.storeCtrl c rd).opb = d.opb := rfl

/-! ### an accepted START (R170) -/
@[simp] theorem Device.start_phase (c rd : BitVec 4) (d : Device) : (d.start c rd).phase = .check := rfl
@[simp] theorem Device.start_cmd (c rd : BitVec 4) (d : Device) : (d.start c rd).cmd = c := rfl
@[simp] theorem Device.start_i (c rd : BitVec 4) (d : Device) : (d.start c rd).i = d.i := rfl
@[simp] theorem Device.start_k (c rd : BitVec 4) (d : Device) : (d.start c rd).k = d.k := rfl
@[simp] theorem Device.start_j (c rd : BitVec 4) (d : Device) : (d.start c rd).j = d.j := rfl
@[simp] theorem Device.start_regA (c rd : BitVec 4) (d : Device) : (d.start c rd).regA = d.regA := rfl
@[simp] theorem Device.start_regB (c rd : BitVec 4) (d : Device) : (d.start c rd).regB = d.regB := rfl
@[simp] theorem Device.start_regF (c rd : BitVec 4) (d : Device) : (d.start c rd).regF = d.regF := rfl
@[simp] theorem Device.start_iv (c rd : BitVec 4) (d : Device) : (d.start c rd).iv = d.iv := rfl
@[simp] theorem Device.start_y (c rd : BitVec 4) (d : Device) : (d.start c rd).y = d.y := rfl
@[simp] theorem Device.start_strm (c rd : BitVec 4) (d : Device) : (d.start c rd).strm = d.strm := rfl
@[simp] theorem Device.start_port (c rd : BitVec 4) (d : Device) : (d.start c rd).port = d.port := rfl
@[simp] theorem Device.start_ctrlCmd (c rd : BitVec 4) (d : Device) : (d.start c rd).ctrlCmd = c := rfl
@[simp] theorem Device.start_ctrlRound (c rd : BitVec 4) (d : Device) : (d.start c rd).ctrlRound = rd := rfl
@[simp] theorem Device.start_done (c rd : BitVec 4) (d : Device) : (d.start c rd).done = false := rfl
@[simp] theorem Device.start_err (c rd : BitVec 4) (d : Device) : (d.start c rd).err = false := rfl
@[simp] theorem Device.start_wbusy (c rd : BitVec 4) (d : Device) : (d.start c rd).wbusy = d.wbusy := rfl
@[simp] theorem Device.start_errcode (c rd : BitVec 4) (d : Device) : (d.start c rd).errcode = .none := rfl
@[simp] theorem Device.start_inten (c rd : BitVec 4) (d : Device) : (d.start c rd).inten = d.inten := rfl
@[simp] theorem Device.start_radix (c rd : BitVec 4) (d : Device) : (d.start c rd).radix = d.radix := rfl
@[simp] theorem Device.start_keylen (c rd : BitVec 4) (d : Device) : (d.start c rd).keylen = d.keylen := rfl
@[simp] theorem Device.start_len (c rd : BitVec 4) (d : Device) : (d.start c rd).len = d.len := rfl
@[simp] theorem Device.start_tlen (c rd : BitVec 4) (d : Device) : (d.start c rd).tlen = d.tlen := rfl
@[simp] theorem Device.start_errinfo (c rd : BitVec 4) (d : Device) : (d.start c rd).errinfo = 0 := rfl
@[simp] theorem Device.start_ciphcnt (c rd : BitVec 4) (d : Device) : (d.start c rd).ciphcnt = 0 := rfl
@[simp] theorem Device.start_key (c rd : BitVec 4) (d : Device) : (d.start c rd).key = d.key := rfl
@[simp] theorem Device.start_tweak (c rd : BitVec 4) (d : Device) : (d.start c rd).tweak = d.tweak := rfl
@[simp] theorem Device.start_data (c rd : BitVec 4) (d : Device) : (d.start c rd).data = d.data := rfl
@[simp] theorem Device.start_opb (c rd : BitVec 4) (d : Device) : (d.start c rd).opb = d.opb := rfl

/-! ### a dropped write (R47) -/
@[simp] theorem Device.dropWrite_phase (d : Device) : d.dropWrite.phase = d.phase := rfl
@[simp] theorem Device.dropWrite_cmd (d : Device) : d.dropWrite.cmd = d.cmd := rfl
@[simp] theorem Device.dropWrite_i (d : Device) : d.dropWrite.i = d.i := rfl
@[simp] theorem Device.dropWrite_k (d : Device) : d.dropWrite.k = d.k := rfl
@[simp] theorem Device.dropWrite_j (d : Device) : d.dropWrite.j = d.j := rfl
@[simp] theorem Device.dropWrite_regA (d : Device) : d.dropWrite.regA = d.regA := rfl
@[simp] theorem Device.dropWrite_regB (d : Device) : d.dropWrite.regB = d.regB := rfl
@[simp] theorem Device.dropWrite_regF (d : Device) : d.dropWrite.regF = d.regF := rfl
@[simp] theorem Device.dropWrite_iv (d : Device) : d.dropWrite.iv = d.iv := rfl
@[simp] theorem Device.dropWrite_y (d : Device) : d.dropWrite.y = d.y := rfl
@[simp] theorem Device.dropWrite_strm (d : Device) : d.dropWrite.strm = d.strm := rfl
@[simp] theorem Device.dropWrite_port (d : Device) : d.dropWrite.port = d.port := rfl
@[simp] theorem Device.dropWrite_ctrlCmd (d : Device) : d.dropWrite.ctrlCmd = d.ctrlCmd := rfl
@[simp] theorem Device.dropWrite_ctrlRound (d : Device) : d.dropWrite.ctrlRound = d.ctrlRound := rfl
@[simp] theorem Device.dropWrite_done (d : Device) : d.dropWrite.done = d.done := rfl
@[simp] theorem Device.dropWrite_err (d : Device) : d.dropWrite.err = d.err := rfl
@[simp] theorem Device.dropWrite_wbusy (d : Device) : d.dropWrite.wbusy = true := rfl
@[simp] theorem Device.dropWrite_errcode (d : Device) : d.dropWrite.errcode = d.errcode := rfl
@[simp] theorem Device.dropWrite_inten (d : Device) : d.dropWrite.inten = d.inten := rfl
@[simp] theorem Device.dropWrite_radix (d : Device) : d.dropWrite.radix = d.radix := rfl
@[simp] theorem Device.dropWrite_keylen (d : Device) : d.dropWrite.keylen = d.keylen := rfl
@[simp] theorem Device.dropWrite_len (d : Device) : d.dropWrite.len = d.len := rfl
@[simp] theorem Device.dropWrite_tlen (d : Device) : d.dropWrite.tlen = d.tlen := rfl
@[simp] theorem Device.dropWrite_errinfo (d : Device) : d.dropWrite.errinfo = d.errinfo := rfl
@[simp] theorem Device.dropWrite_ciphcnt (d : Device) : d.dropWrite.ciphcnt = d.ciphcnt := rfl
@[simp] theorem Device.dropWrite_key (d : Device) : d.dropWrite.key = d.key := rfl
@[simp] theorem Device.dropWrite_tweak (d : Device) : d.dropWrite.tweak = d.tweak := rfl
@[simp] theorem Device.dropWrite_data (d : Device) : d.dropWrite.data = d.data := rfl
@[simp] theorem Device.dropWrite_opb (d : Device) : d.dropWrite.opb = d.opb := rfl

/-! ### issue (R66) -/
@[simp] theorem Device.issue_phase (x : Block) (d : Device) : (d.issue x).phase = d.phase := rfl
@[simp] theorem Device.issue_cmd (x : Block) (d : Device) : (d.issue x).cmd = d.cmd := rfl
@[simp] theorem Device.issue_i (x : Block) (d : Device) : (d.issue x).i = d.i := rfl
@[simp] theorem Device.issue_k (x : Block) (d : Device) : (d.issue x).k = d.k := rfl
@[simp] theorem Device.issue_j (x : Block) (d : Device) : (d.issue x).j = d.j := rfl
@[simp] theorem Device.issue_regA (x : Block) (d : Device) : (d.issue x).regA = d.regA := rfl
@[simp] theorem Device.issue_regB (x : Block) (d : Device) : (d.issue x).regB = d.regB := rfl
@[simp] theorem Device.issue_regF (x : Block) (d : Device) : (d.issue x).regF = d.regF := rfl
@[simp] theorem Device.issue_iv (x : Block) (d : Device) : (d.issue x).iv = d.iv := rfl
@[simp] theorem Device.issue_y (x : Block) (d : Device) : (d.issue x).y = d.y := rfl
@[simp] theorem Device.issue_strm (x : Block) (d : Device) : (d.issue x).strm = d.strm := rfl
@[simp] theorem Device.issue_port (x : Block) (d : Device) : (d.issue x).port = .req d.keyBytes x := rfl
@[simp] theorem Device.issue_ctrlCmd (x : Block) (d : Device) : (d.issue x).ctrlCmd = d.ctrlCmd := rfl
@[simp] theorem Device.issue_ctrlRound (x : Block) (d : Device) : (d.issue x).ctrlRound = d.ctrlRound := rfl
@[simp] theorem Device.issue_done (x : Block) (d : Device) : (d.issue x).done = d.done := rfl
@[simp] theorem Device.issue_err (x : Block) (d : Device) : (d.issue x).err = d.err := rfl
@[simp] theorem Device.issue_wbusy (x : Block) (d : Device) : (d.issue x).wbusy = d.wbusy := rfl
@[simp] theorem Device.issue_errcode (x : Block) (d : Device) : (d.issue x).errcode = d.errcode := rfl
@[simp] theorem Device.issue_inten (x : Block) (d : Device) : (d.issue x).inten = d.inten := rfl
@[simp] theorem Device.issue_radix (x : Block) (d : Device) : (d.issue x).radix = d.radix := rfl
@[simp] theorem Device.issue_keylen (x : Block) (d : Device) : (d.issue x).keylen = d.keylen := rfl
@[simp] theorem Device.issue_len (x : Block) (d : Device) : (d.issue x).len = d.len := rfl
@[simp] theorem Device.issue_tlen (x : Block) (d : Device) : (d.issue x).tlen = d.tlen := rfl
@[simp] theorem Device.issue_errinfo (x : Block) (d : Device) : (d.issue x).errinfo = d.errinfo := rfl
@[simp] theorem Device.issue_ciphcnt (x : Block) (d : Device) : (d.issue x).ciphcnt = d.ciphcnt + 1 := rfl
@[simp] theorem Device.issue_key (x : Block) (d : Device) : (d.issue x).key = d.key := rfl
@[simp] theorem Device.issue_tweak (x : Block) (d : Device) : (d.issue x).tweak = d.tweak := rfl
@[simp] theorem Device.issue_data (x : Block) (d : Device) : (d.issue x).data = d.data := rfl
@[simp] theorem Device.issue_opb (x : Block) (d : Device) : (d.issue x).opb = d.opb := rfl

/-! ### the port after consume (R66) -/
@[simp] theorem Device.freePort_phase (d : Device) : d.freePort.phase = d.phase := rfl
@[simp] theorem Device.freePort_cmd (d : Device) : d.freePort.cmd = d.cmd := rfl
@[simp] theorem Device.freePort_i (d : Device) : d.freePort.i = d.i := rfl
@[simp] theorem Device.freePort_k (d : Device) : d.freePort.k = d.k := rfl
@[simp] theorem Device.freePort_j (d : Device) : d.freePort.j = d.j := rfl
@[simp] theorem Device.freePort_regA (d : Device) : d.freePort.regA = d.regA := rfl
@[simp] theorem Device.freePort_regB (d : Device) : d.freePort.regB = d.regB := rfl
@[simp] theorem Device.freePort_regF (d : Device) : d.freePort.regF = d.regF := rfl
@[simp] theorem Device.freePort_iv (d : Device) : d.freePort.iv = d.iv := rfl
@[simp] theorem Device.freePort_y (d : Device) : d.freePort.y = d.y := rfl
@[simp] theorem Device.freePort_strm (d : Device) : d.freePort.strm = d.strm := rfl
@[simp] theorem Device.freePort_port (d : Device) : d.freePort.port = .free := rfl
@[simp] theorem Device.freePort_ctrlCmd (d : Device) : d.freePort.ctrlCmd = d.ctrlCmd := rfl
@[simp] theorem Device.freePort_ctrlRound (d : Device) : d.freePort.ctrlRound = d.ctrlRound := rfl
@[simp] theorem Device.freePort_done (d : Device) : d.freePort.done = d.done := rfl
@[simp] theorem Device.freePort_err (d : Device) : d.freePort.err = d.err := rfl
@[simp] theorem Device.freePort_wbusy (d : Device) : d.freePort.wbusy = d.wbusy := rfl
@[simp] theorem Device.freePort_errcode (d : Device) : d.freePort.errcode = d.errcode := rfl
@[simp] theorem Device.freePort_inten (d : Device) : d.freePort.inten = d.inten := rfl
@[simp] theorem Device.freePort_radix (d : Device) : d.freePort.radix = d.radix := rfl
@[simp] theorem Device.freePort_keylen (d : Device) : d.freePort.keylen = d.keylen := rfl
@[simp] theorem Device.freePort_len (d : Device) : d.freePort.len = d.len := rfl
@[simp] theorem Device.freePort_tlen (d : Device) : d.freePort.tlen = d.tlen := rfl
@[simp] theorem Device.freePort_errinfo (d : Device) : d.freePort.errinfo = d.errinfo := rfl
@[simp] theorem Device.freePort_ciphcnt (d : Device) : d.freePort.ciphcnt = d.ciphcnt := rfl
@[simp] theorem Device.freePort_key (d : Device) : d.freePort.key = d.key := rfl
@[simp] theorem Device.freePort_tweak (d : Device) : d.freePort.tweak = d.tweak := rfl
@[simp] theorem Device.freePort_data (d : Device) : d.freePort.data = d.data := rfl
@[simp] theorem Device.freePort_opb (d : Device) : d.freePort.opb = d.opb := rfl

/-! ### the start of the next round (R176, R177) -/
@[simp] theorem Device.nextRound_phase (r : BitVec 4) (d : Device) : (d.nextRound r).phase = .mac := rfl
@[simp] theorem Device.nextRound_cmd (r : BitVec 4) (d : Device) : (d.nextRound r).cmd = d.cmd := rfl
@[simp] theorem Device.nextRound_i (r : BitVec 4) (d : Device) : (d.nextRound r).i = r := rfl
@[simp] theorem Device.nextRound_k (r : BitVec 4) (d : Device) : (d.nextRound r).k = 1 := rfl
@[simp] theorem Device.nextRound_j (r : BitVec 4) (d : Device) : (d.nextRound r).j = d.j := rfl
@[simp] theorem Device.nextRound_regA (r : BitVec 4) (d : Device) : (d.nextRound r).regA = d.regA := rfl
@[simp] theorem Device.nextRound_regB (r : BitVec 4) (d : Device) : (d.nextRound r).regB = d.regB := rfl
@[simp] theorem Device.nextRound_regF (r : BitVec 4) (d : Device) : (d.nextRound r).regF = d.regF := rfl
@[simp] theorem Device.nextRound_iv (r : BitVec 4) (d : Device) : (d.nextRound r).iv = d.iv := rfl
@[simp] theorem Device.nextRound_y (r : BitVec 4) (d : Device) : (d.nextRound r).y = d.iv := rfl
@[simp] theorem Device.nextRound_strm (r : BitVec 4) (d : Device) : (d.nextRound r).strm = d.strm := rfl
@[simp] theorem Device.nextRound_port (r : BitVec 4) (d : Device) : (d.nextRound r).port = d.port := rfl
@[simp] theorem Device.nextRound_ctrlCmd (r : BitVec 4) (d : Device) : (d.nextRound r).ctrlCmd = d.ctrlCmd := rfl
@[simp] theorem Device.nextRound_ctrlRound (r : BitVec 4) (d : Device) : (d.nextRound r).ctrlRound = d.ctrlRound := rfl
@[simp] theorem Device.nextRound_done (r : BitVec 4) (d : Device) : (d.nextRound r).done = d.done := rfl
@[simp] theorem Device.nextRound_err (r : BitVec 4) (d : Device) : (d.nextRound r).err = d.err := rfl
@[simp] theorem Device.nextRound_wbusy (r : BitVec 4) (d : Device) : (d.nextRound r).wbusy = d.wbusy := rfl
@[simp] theorem Device.nextRound_errcode (r : BitVec 4) (d : Device) : (d.nextRound r).errcode = d.errcode := rfl
@[simp] theorem Device.nextRound_inten (r : BitVec 4) (d : Device) : (d.nextRound r).inten = d.inten := rfl
@[simp] theorem Device.nextRound_radix (r : BitVec 4) (d : Device) : (d.nextRound r).radix = d.radix := rfl
@[simp] theorem Device.nextRound_keylen (r : BitVec 4) (d : Device) : (d.nextRound r).keylen = d.keylen := rfl
@[simp] theorem Device.nextRound_len (r : BitVec 4) (d : Device) : (d.nextRound r).len = d.len := rfl
@[simp] theorem Device.nextRound_tlen (r : BitVec 4) (d : Device) : (d.nextRound r).tlen = d.tlen := rfl
@[simp] theorem Device.nextRound_errinfo (r : BitVec 4) (d : Device) : (d.nextRound r).errinfo = d.errinfo := rfl
@[simp] theorem Device.nextRound_ciphcnt (r : BitVec 4) (d : Device) : (d.nextRound r).ciphcnt = d.ciphcnt := rfl
@[simp] theorem Device.nextRound_key (r : BitVec 4) (d : Device) : (d.nextRound r).key = d.key := rfl
@[simp] theorem Device.nextRound_tweak (r : BitVec 4) (d : Device) : (d.nextRound r).tweak = d.tweak := rfl
@[simp] theorem Device.nextRound_data (r : BitVec 4) (d : Device) : (d.nextRound r).data = d.data := rfl
@[simp] theorem Device.nextRound_opb (r : BitVec 4) (d : Device) : (d.nextRound r).opb = d.opb := rfl

/-! ### a STATUS write (R34) -/
@[simp] theorem Device.clearFlags_phase (x : Word) (d : Device) : (d.clearFlags x).phase = d.phase := rfl
@[simp] theorem Device.clearFlags_cmd (x : Word) (d : Device) : (d.clearFlags x).cmd = d.cmd := rfl
@[simp] theorem Device.clearFlags_i (x : Word) (d : Device) : (d.clearFlags x).i = d.i := rfl
@[simp] theorem Device.clearFlags_k (x : Word) (d : Device) : (d.clearFlags x).k = d.k := rfl
@[simp] theorem Device.clearFlags_j (x : Word) (d : Device) : (d.clearFlags x).j = d.j := rfl
@[simp] theorem Device.clearFlags_regA (x : Word) (d : Device) : (d.clearFlags x).regA = d.regA := rfl
@[simp] theorem Device.clearFlags_regB (x : Word) (d : Device) : (d.clearFlags x).regB = d.regB := rfl
@[simp] theorem Device.clearFlags_regF (x : Word) (d : Device) : (d.clearFlags x).regF = d.regF := rfl
@[simp] theorem Device.clearFlags_iv (x : Word) (d : Device) : (d.clearFlags x).iv = d.iv := rfl
@[simp] theorem Device.clearFlags_y (x : Word) (d : Device) : (d.clearFlags x).y = d.y := rfl
@[simp] theorem Device.clearFlags_strm (x : Word) (d : Device) : (d.clearFlags x).strm = d.strm := rfl
@[simp] theorem Device.clearFlags_port (x : Word) (d : Device) : (d.clearFlags x).port = d.port := rfl
@[simp] theorem Device.clearFlags_ctrlCmd (x : Word) (d : Device) : (d.clearFlags x).ctrlCmd = d.ctrlCmd := rfl
@[simp] theorem Device.clearFlags_ctrlRound (x : Word) (d : Device) : (d.clearFlags x).ctrlRound = d.ctrlRound := rfl
@[simp] theorem Device.clearFlags_done (x : Word) (d : Device) : (d.clearFlags x).done = (d.done && !x.getLsbD 1) := rfl
@[simp] theorem Device.clearFlags_err (x : Word) (d : Device) : (d.clearFlags x).err = (d.err && !x.getLsbD 2) := rfl
@[simp] theorem Device.clearFlags_wbusy (x : Word) (d : Device) : (d.clearFlags x).wbusy = (d.wbusy && !x.getLsbD 3) := rfl
@[simp] theorem Device.clearFlags_errcode (x : Word) (d : Device) : (d.clearFlags x).errcode = d.errcode := rfl
@[simp] theorem Device.clearFlags_inten (x : Word) (d : Device) : (d.clearFlags x).inten = d.inten := rfl
@[simp] theorem Device.clearFlags_radix (x : Word) (d : Device) : (d.clearFlags x).radix = d.radix := rfl
@[simp] theorem Device.clearFlags_keylen (x : Word) (d : Device) : (d.clearFlags x).keylen = d.keylen := rfl
@[simp] theorem Device.clearFlags_len (x : Word) (d : Device) : (d.clearFlags x).len = d.len := rfl
@[simp] theorem Device.clearFlags_tlen (x : Word) (d : Device) : (d.clearFlags x).tlen = d.tlen := rfl
@[simp] theorem Device.clearFlags_errinfo (x : Word) (d : Device) : (d.clearFlags x).errinfo = d.errinfo := rfl
@[simp] theorem Device.clearFlags_ciphcnt (x : Word) (d : Device) : (d.clearFlags x).ciphcnt = d.ciphcnt := rfl
@[simp] theorem Device.clearFlags_key (x : Word) (d : Device) : (d.clearFlags x).key = d.key := rfl
@[simp] theorem Device.clearFlags_tweak (x : Word) (d : Device) : (d.clearFlags x).tweak = d.tweak := rfl
@[simp] theorem Device.clearFlags_data (x : Word) (d : Device) : (d.clearFlags x).data = d.data := rfl
@[simp] theorem Device.clearFlags_opb (x : Word) (d : Device) : (d.clearFlags x).opb = d.opb := rfl

/-! ### setBuf (R60) -/
@[simp] theorem Device.setBuf_phase (d : Device) (b : Buf) (m : Memory) : (d.setBuf b m).phase = d.phase := by cases b <;> rfl
@[simp] theorem Device.setBuf_cmd (d : Device) (b : Buf) (m : Memory) : (d.setBuf b m).cmd = d.cmd := by cases b <;> rfl
@[simp] theorem Device.setBuf_i (d : Device) (b : Buf) (m : Memory) : (d.setBuf b m).i = d.i := by cases b <;> rfl
@[simp] theorem Device.setBuf_k (d : Device) (b : Buf) (m : Memory) : (d.setBuf b m).k = d.k := by cases b <;> rfl
@[simp] theorem Device.setBuf_j (d : Device) (b : Buf) (m : Memory) : (d.setBuf b m).j = d.j := by cases b <;> rfl
@[simp] theorem Device.setBuf_regA (d : Device) (b : Buf) (m : Memory) : (d.setBuf b m).regA = d.regA := by cases b <;> rfl
@[simp] theorem Device.setBuf_regB (d : Device) (b : Buf) (m : Memory) : (d.setBuf b m).regB = d.regB := by cases b <;> rfl
@[simp] theorem Device.setBuf_regF (d : Device) (b : Buf) (m : Memory) : (d.setBuf b m).regF = d.regF := by cases b <;> rfl
@[simp] theorem Device.setBuf_iv (d : Device) (b : Buf) (m : Memory) : (d.setBuf b m).iv = d.iv := by cases b <;> rfl
@[simp] theorem Device.setBuf_y (d : Device) (b : Buf) (m : Memory) : (d.setBuf b m).y = d.y := by cases b <;> rfl
@[simp] theorem Device.setBuf_strm (d : Device) (b : Buf) (m : Memory) : (d.setBuf b m).strm = d.strm := by cases b <;> rfl
@[simp] theorem Device.setBuf_port (d : Device) (b : Buf) (m : Memory) : (d.setBuf b m).port = d.port := by cases b <;> rfl
@[simp] theorem Device.setBuf_ctrlCmd (d : Device) (b : Buf) (m : Memory) : (d.setBuf b m).ctrlCmd = d.ctrlCmd := by cases b <;> rfl
@[simp] theorem Device.setBuf_ctrlRound (d : Device) (b : Buf) (m : Memory) : (d.setBuf b m).ctrlRound = d.ctrlRound := by cases b <;> rfl
@[simp] theorem Device.setBuf_done (d : Device) (b : Buf) (m : Memory) : (d.setBuf b m).done = d.done := by cases b <;> rfl
@[simp] theorem Device.setBuf_err (d : Device) (b : Buf) (m : Memory) : (d.setBuf b m).err = d.err := by cases b <;> rfl
@[simp] theorem Device.setBuf_wbusy (d : Device) (b : Buf) (m : Memory) : (d.setBuf b m).wbusy = d.wbusy := by cases b <;> rfl
@[simp] theorem Device.setBuf_errcode (d : Device) (b : Buf) (m : Memory) : (d.setBuf b m).errcode = d.errcode := by cases b <;> rfl
@[simp] theorem Device.setBuf_inten (d : Device) (b : Buf) (m : Memory) : (d.setBuf b m).inten = d.inten := by cases b <;> rfl
@[simp] theorem Device.setBuf_radix (d : Device) (b : Buf) (m : Memory) : (d.setBuf b m).radix = d.radix := by cases b <;> rfl
@[simp] theorem Device.setBuf_keylen (d : Device) (b : Buf) (m : Memory) : (d.setBuf b m).keylen = d.keylen := by cases b <;> rfl
@[simp] theorem Device.setBuf_len (d : Device) (b : Buf) (m : Memory) : (d.setBuf b m).len = d.len := by cases b <;> rfl
@[simp] theorem Device.setBuf_tlen (d : Device) (b : Buf) (m : Memory) : (d.setBuf b m).tlen = d.tlen := by cases b <;> rfl
@[simp] theorem Device.setBuf_errinfo (d : Device) (b : Buf) (m : Memory) : (d.setBuf b m).errinfo = d.errinfo := by cases b <;> rfl
@[simp] theorem Device.setBuf_ciphcnt (d : Device) (b : Buf) (m : Memory) : (d.setBuf b m).ciphcnt = d.ciphcnt := by cases b <;> rfl
@[simp] theorem Device.setBuf_key (d : Device) (b : Buf) (m : Memory) : (d.setBuf b m).key = d.key := by cases b <;> rfl
@[simp] theorem Device.setBuf_buf_same (d : Device) (b : Buf) (m : Memory) : (d.setBuf b m).buf b = m := by cases b <;> rfl
theorem Device.setBuf_buf_other (d : Device) (b c : Buf) (m : Memory) (h : c ≠ b) : (d.setBuf b m).buf c = d.buf c := by
  cases b <;> cases c <;> first | rfl | exact absurd rfl h
@[simp] theorem Device.setBuf_self (d : Device) (b : Buf) : d.setBuf b (d.buf b) = d := by cases b <;> rfl
@[simp] theorem Device.buf_tweak (d : Device) : d.buf .tweak = d.tweak := rfl
@[simp] theorem Device.buf_data (d : Device) : d.buf .data = d.data := rfl
@[simp] theorem Device.buf_opb (d : Device) : d.buf .opb = d.opb := rfl

end Sys2Proof.Machine
end

