-- ==== Sys2Proof/Laws/Memory.lean ====
section
/-! SUPPORT. Buffer memory: read after write, and that every operation that changes a buffer keeps the canonical form
and the buffer's size (10_state R45, R50, 20_memory R60). -/
namespace Sys2Proof.Machine

@[simp] theorem Memory.read_nil (a : Nat) : Memory.read [] a = none := rfl

/-- A byte just written reads as written. -/
@[simp] theorem Memory.read_write_same (m : Memory) (a : Nat) (v : Byte) :
    Memory.read (Memory.write m a v) a = some v := by
  induction m with
  | nil => simp [Memory.write, Memory.read]
  | cons c m ih =>
    obtain ⟨b, w⟩ := c
    by_cases h1 : a < b
    · simp [Memory.write, h1, Memory.read]
    · by_cases h2 : a = b
      · simp [Memory.write, h2, Memory.read]
      · simp [Memory.write, h1, h2, Memory.read, ih]

/-- A write leaves every other index alone. -/
theorem Memory.read_write_other (m : Memory) (a p : Nat) (v : Byte) (h : p ≠ a) :
    Memory.read (Memory.write m a v) p = Memory.read m p := by
  induction m with
  | nil => simp [Memory.write, Memory.read, h, Memory.unlisted]
  | cons c m ih =>
    obtain ⟨b, w⟩ := c
    by_cases h1 : a < b
    · simp [Memory.write, h1, Memory.read, h]
    · by_cases h2 : a = b
      · subst h2; simp [Memory.write, Memory.read, h]
      · simp [Memory.write, h1, h2, Memory.read, ih]

theorem Memory.wfFrom_mono {lo lo' : Nat} {m : Memory} (h : Memory.wfFrom lo m = true) (hl : lo' ≤ lo) :
    Memory.wfFrom lo' m = true := by
  cases m with
  | nil => rfl
  | cons c m =>
    obtain ⟨b, w⟩ := c
    simp only [Memory.wfFrom, Bool.and_eq_true, decide_eq_true_eq] at h ⊢
    exact ⟨by omega, h.2⟩

theorem Memory.wfFrom_write {lo : Nat} {m : Memory} {a : Nat} (v : Byte) (h : Memory.wfFrom lo m = true)
    (hl : lo ≤ a) : Memory.wfFrom lo (Memory.write m a v) = true := by
  induction m generalizing lo with
  | nil => simp [Memory.write, Memory.wfFrom, hl]
  | cons c m ih =>
    obtain ⟨b, w⟩ := c
    simp only [Memory.wfFrom, Bool.and_eq_true, decide_eq_true_eq] at h
    by_cases h1 : a < b
    · simp [Memory.write, h1, Memory.wfFrom, hl, h.2]
    · by_cases h2 : a = b
      · subst h2; simp [Memory.write, Memory.wfFrom, hl, h.2]
      · have := ih h.2 (by omega : b + 1 ≤ a)
        simp [Memory.write, h1, h2, Memory.wfFrom, h.1, this]

/-- A write keeps the canonical form. -/
theorem Memory.wf_write {m : Memory} (a : Nat) (v : Byte) (h : Memory.wf m = true) :
    Memory.wf (Memory.write m a v) = true :=
  Memory.wfFrom_write v h (Nat.zero_le a)

theorem Memory.below_write {size : Nat} {m : Memory} {a : Nat} (v : Byte) (h : Memory.below size m = true)
    (ha : a < size) : Memory.below size (Memory.write m a v) = true := by
  induction m with
  | nil => simp [Memory.write, Memory.below, ha]
  | cons c m ih =>
    obtain ⟨b, w⟩ := c
    simp only [Memory.below, List.all_cons, Bool.and_eq_true, decide_eq_true_eq] at h ih
    by_cases h1 : a < b
    · simp only [Memory.write, h1, if_true, Memory.below, List.all_cons, Bool.and_eq_true, decide_eq_true_eq]
      exact ⟨ha, h.1, h.2⟩
    · by_cases h2 : a = b
      · subst h2
        simp only [Memory.write, h1, if_true, if_false, Memory.below, List.all_cons, Bool.and_eq_true,
          decide_eq_true_eq]
        exact ⟨h.1, h.2⟩
      · simp only [Memory.write, h1, h2, if_false, Memory.below, List.all_cons, Bool.and_eq_true, decide_eq_true_eq]
        exact ⟨h.1, ih h.2⟩

/-- A run of writes keeps the canonical form. -/
theorem Memory.wf_writeBytes {m : Memory} (a : Nat) (vs : List Byte) (h : Memory.wf m = true) :
    Memory.wf (Memory.writeBytes m a vs) = true := by
  induction vs generalizing m a with
  | nil => exact h
  | cons v vs ih => exact ih (a + 1) (Memory.wf_write a v h)

theorem Memory.below_writeBytes {size : Nat} {m : Memory} {a : Nat} (vs : List Byte)
    (h : Memory.below size m = true) (ha : a + vs.length ≤ size) :
    Memory.below size (Memory.writeBytes m a vs) = true := by
  induction vs generalizing m a with
  | nil => exact h
  | cons v vs ih =>
    simp only [List.length_cons] at ha
    exact ih (Memory.below_write v h (by omega)) (by omega)

/-- A run of writes leaves every index outside it alone. -/
theorem Memory.read_writeBytes_other (m : Memory) (a p : Nat) (vs : List Byte) (h : p < a ∨ a + vs.length ≤ p) :
    Memory.read (Memory.writeBytes m a vs) p = Memory.read m p := by
  induction vs generalizing m a with
  | nil => rfl
  | cons v vs ih =>
    simp only [List.length_cons] at h
    rw [Memory.writeBytes, ih _ _ (by omega), Memory.read_write_other _ _ _ _ (by omega)]

/-- Inside a run of writes, the byte written. -/
theorem Memory.read_writeBytes_inside (m : Memory) (a c : Nat) (vs : List Byte) (h : c < vs.length) :
    Memory.read (Memory.writeBytes m a vs) (a + c) = some vs[c] := by
  induction vs generalizing m a c with
  | nil => simp at h
  | cons v vs ih =>
    cases c with
    | zero => rw [Memory.writeBytes, Memory.read_writeBytes_other _ _ _ _ (by omega)]; simp
    | succ c =>
      simp only [List.length_cons] at h
      have := ih (Memory.write m a v) (a + 1) c (by omega)
      rw [Memory.writeBytes, show a + (c + 1) = a + 1 + c by omega, this]; rfl

/-- Reading n bytes succeeds exactly when each has a value, and gives them in order. -/
theorem Memory.readBytes_ok_iff (bf : Buf) (m : Memory) (a n : Nat) (vs : List Byte) :
    Memory.readBytes bf m a n = .ok vs ↔
      vs.length = n ∧ ∀ c, (h : c < vs.length) → Memory.read m (a + c) = some vs[c] := by
  induction n generalizing a vs with
  | zero =>
    simp only [Memory.readBytes, Except.ok.injEq]
    exact ⟨by rintro rfl; simp, fun h => (List.length_eq_zero_iff.mp h.1).symm⟩
  | succ n ih =>
    simp only [Memory.readBytes]
    cases hr : Memory.read m a with
    | none =>
      constructor
      · intro h; cases h
      rintro ⟨hl, hv⟩
      have := hv 0 (by omega)
      simp [hr] at this
    | some v =>
      cases ht : Memory.readBytes bf m (a + 1) n with
      | error f =>
        constructor
        · intro h; cases h
        rintro ⟨hl, hv⟩
        obtain - | ⟨w, ws⟩ := vs
        · simp at hl
        · have : Memory.readBytes bf m (a + 1) n = .ok ws := by
            rw [ih]
            refine ⟨by simpa using hl, fun c hc => ?_⟩
            have := hv (c + 1) (by simp; omega)
            rw [show a + (c + 1) = a + 1 + c by omega] at this
            simpa using this
          rw [ht] at this; cases this
      | ok ws =>
        obtain ⟨hwl, hwv⟩ := (ih (a + 1) ws).mp ht
        simp only [Except.ok.injEq]
        constructor
        · rintro rfl
          refine ⟨by simp [hwl], fun c hc => ?_⟩
          cases c with
          | zero => simpa using hr
          | succ c =>
            rw [show a + (c + 1) = a + 1 + c by omega]
            simpa using hwv c (by simpa using hc)
        · rintro ⟨hl, hv⟩
          obtain - | ⟨w, ws'⟩ := vs
          · simp at hl
          · have h0 := hv 0 (by simp)
            simp only [Nat.add_zero, hr, List.getElem_cons_zero, Option.some.injEq] at h0
            subst h0
            congr 1
            apply List.ext_getElem (by simp only [List.length_cons] at hl; omega)
            intro c h1 h2
            have e1 := hwv c h1
            have e2 := hv (c + 1) (by simp; omega)
            rw [show a + (c + 1) = a + 1 + c by omega] at e2
            rw [e1] at e2
            simpa using e2

/-- Reading n bytes fails only at an index among them that has no value. -/
theorem Memory.readBytes_error {bf : Buf} {m : Memory} {a n : Nat} {f : Fault}
    (h : Memory.readBytes bf m a n = .error f) :
    ∃ p, f = .unwrittenByte bf p ∧ a ≤ p ∧ p < a + n ∧ Memory.read m p = none := by
  induction n generalizing a with
  | zero => cases h
  | succ n ih =>
    simp only [Memory.readBytes] at h
    cases hr : Memory.read m a with
    | none => rw [hr] at h; cases h; exact ⟨a, rfl, le_refl a, by omega, hr⟩
    | some v =>
      rw [hr] at h
      cases ht : Memory.readBytes bf m (a + 1) n with
      | error g =>
        rw [ht] at h; cases h
        obtain ⟨p, hp, h1, h2, h3⟩ := ih ht
        exact ⟨p, hp, by omega, by omega, h3⟩
      | ok ws => rw [ht] at h; cases h

/-- What was written is read back. -/
theorem Memory.readBytes_writeBytes (bf : Buf) (m : Memory) (a : Nat) (vs : List Byte) :
    Memory.readBytes bf (Memory.writeBytes m a vs) a vs.length = .ok vs :=
  (Memory.readBytes_ok_iff ..).mpr ⟨rfl, fun c h => Memory.read_writeBytes_inside m a c vs h⟩

/-- A bounded write, when it answers, changes one buffer and keeps its canonical form and size (R60). -/
theorem memWrite_ok {P : Params} {d e : Device} {b : Buf} {a n : Nat} {v : List Byte}
    (h : memWrite P d b a n v = .ok e) :
    v.length = n ∧ a + n ≤ Params.size P b ∧ e = d.setBuf b (Memory.writeBytes (d.buf b) a v) := by
  unfold memWrite at h
  split at h
  · split at h
    · cases h; exact ⟨‹_›, ‹_›, rfl⟩
    · cases h
  · cases h

/-- A host write of a buffer word keeps the canonical form of every buffer. -/
theorem writeBufWord_wf (P : Params) (b c : Buf) (a : Nat) (x : Word) (d : Device)
    (h : Memory.wf (d.buf c) = true) : Memory.wf ((writeBufWord P b a x d).buf c) = true := by
  unfold writeBufWord
  split
  · by_cases hc : c = b
    · subst hc; rw [Device.setBuf_buf_same]; exact Memory.wf_writeBytes _ _ h
    · rw [Device.setBuf_buf_other _ _ _ _ hc]; exact h
  · exact h

/-- The reset buffers are canonical. -/
theorem reset_wf (b : Buf) : Memory.wf (State.reset.dev.buf b) = true := by cases b <;> rfl

end Sys2Proof.Machine
end

