-- ==== Sys2Proof/Laws/Radix.lean ====
section
/-! SUPPORT. Small lemmas of the radix functions (40_radix_arith R100 to R109): how NUM takes sequences apart, and the
length and digits of STR, [x]^k, RADD and RSUB. -/
namespace Sys2Proof.Machine

@[simp] theorem num_nil (r : Nat) : num r [] = 0 := rfl

theorem foldl_num (r a : Nat) (ds : List Nat) :
    ds.foldl (fun acc x => acc * r + x) a = a * r ^ ds.length + num r ds := by
  induction ds generalizing a with
  | nil => simp
  | cons d ds ih =>
    simp only [List.foldl_cons, List.length_cons, num]
    rw [ih, ih (0 * r + d), pow_succ]
    ring

/-- NUM of a sequence in two parts (R100). -/
theorem num_append (r : Nat) (xs ys : List Nat) : num r (xs ++ ys) = num r xs * r ^ ys.length + num r ys := by
  rw [num, List.foldl_append]
  exact foldl_num r _ ys

theorem num_cons (r x : Nat) (xs : List Nat) : num r (x :: xs) = x * r ^ xs.length + num r xs := by
  rw [← List.singleton_append, num_append]
  simp [num]

/-- Appending the least significant digit (R100). -/
theorem num_concat (r x : Nat) (xs : List Nat) : num r (xs ++ [x]) = num r xs * r + x := by
  simp [num]

/-- A sequence of digits below r is worth less than r^length (R100). -/
theorem num_lt {r : Nat} {ds : List Nat} (h : ∀ c ∈ ds, c < r) : num r ds < r ^ ds.length := by
  induction ds with
  | nil => simp
  | cons d ds ih =>
    have hd := h d (by simp)
    have ht := ih fun c hc => h c (by simp [hc])
    have hm : (d + 1) * r ^ ds.length ≤ r * r ^ ds.length := Nat.mul_le_mul_right _ hd
    rw [num_cons, List.length_cons, pow_succ, Nat.mul_comm (r ^ _) r]
    rw [Nat.add_mul, Nat.one_mul] at hm
    omega

@[simp] theorem length_str (r m x : Nat) : (str r m x).length = m := by
  induction m generalizing x with
  | zero => rfl
  | succ m ih => simp [str, ih]

/-- Every digit of STR is below the radix (R101). -/
theorem str_digit_lt {r m x c : Nat} (hr : 0 < r) (h : c ∈ str r m x) : c < r := by
  induction m generalizing x with
  | zero => simp [str] at h
  | succ m ih =>
    simp only [str, List.mem_append, List.mem_singleton] at h
    rcases h with h | rfl
    · exact ih h
    · exact Nat.mod_lt _ hr

theorem strChecked_of_lt {r m x : Nat} (h : x < r ^ m) : strChecked r m x = .ok (str r m x) := by
  simp [strChecked, h]

theorem strChecked_ok {r m x : Nat} {ds : List Nat} (h : strChecked r m x = .ok ds) :
    x < r ^ m ∧ ds = str r m x := by
  unfold strChecked at h
  split at h
  · cases h; exact ⟨‹_›, rfl⟩
  · cases h

theorem raddNum_lt {r l : Nat} (x y : List Nat) (hr : 0 < r) : raddNum r l x y < r ^ l :=
  Nat.mod_lt _ (Nat.pow_pos hr)

theorem rsubNum_lt {r l : Nat} (x y : List Nat) (hr : 0 < r) : rsubNum r l x y < r ^ l := by
  have hp : (0 : Int) < ((r ^ l : Nat) : Int) := by exact_mod_cast Nat.pow_pos hr
  have h := Int.emod_lt_of_pos ((num r x : Int) - num r y) hp
  have h0 := Int.emod_nonneg ((num r x : Int) - num r y) (ne_of_gt hp)
  unfold rsubNum
  omega

theorem raddStep_eq {r : Nat} (l : Nat) (x y : List Nat) (hr : 0 < r) : raddStep r l x y = .ok (radd r l x y) :=
  strChecked_of_lt (raddNum_lt x y hr)

theorem rsubStep_eq {r : Nat} (l : Nat) (x y : List Nat) (hr : 0 < r) : rsubStep r l x y = .ok (rsub r l x y) :=
  strChecked_of_lt (rsubNum_lt x y hr)

@[simp] theorem length_radd (r l : Nat) (x y : List Nat) : (radd r l x y).length = l := length_str ..

@[simp] theorem length_rsub (r l : Nat) (x y : List Nat) : (rsub r l x y).length = l := length_str ..

@[simp] theorem length_bytesBE (k x : Nat) : (bytesBE k x).length = k := by simp [bytesBE]

@[simp] theorem length_blockBytes (z : Block) : (blockBytes z).length = 16 := length_bytesBE ..

@[simp] theorem length_digitBytes (ds : List Nat) : (digitBytes ds).length = ds.length := by simp [digitBytes]

/-- Digits that fit a byte come back from it (R7). -/
theorem digitsOf_digitBytes {ds : List Nat} (h : ∀ c ∈ ds, c < 256) : digitsOf (digitBytes ds) = ds := by
  induction ds with
  | nil => rfl
  | cons d ds ih =>
    have hd : d % 256 = d := Nat.mod_eq_of_lt (h d (by simp))
    have := ih fun c hc => h c (by simp [hc])
    simp only [digitsOf, digitBytes, List.map_cons, BitVec.toNat_ofNat] at this ⊢
    rw [this]
    simp [hd]

/-- u + v = n (R49). -/
theorem uOf_add_vOf (n : Nat) : uOf n + vOf n = n := by unfold uOf vOf; omega

theorem mOf_le (n i : Nat) : mOf n i ≤ n := by unfold mOf uOf vOf; split <;> omega

/-- Consecutive rounds take the two halves in turn (R139, R187). -/
theorem mOf_succ (n i : Nat) : mOf n (i + 1) = n - mOf n i := by
  have h : i % 2 = 0 ∨ i % 2 = 1 := by omega
  unfold mOf uOf vOf
  rcases h with h | h
  · rw [if_pos (by omega), if_neg (by omega)]
  · rw [if_neg (by omega), if_pos (by omega)]; omega

/-- PRF's input half has the length the half has in that round (R182). -/
theorem wOf_eq (n i : Nat) : wOf n i = n - mOf n i := by
  have h : i % 2 = 0 ∨ i % 2 = 1 := by omega
  unfold wOf mOf uOf vOf
  rcases h with h | h
  · rw [if_pos h, if_neg (by omega)]
  · rw [if_neg (by omega), if_pos h]; omega

end Sys2Proof.Machine
end

