-- ==== Sys2Proof/Laws/Controller.lean ====
section
/-! SUPPORT. The step table of 42_feistel_controller R194 row by row, what every controller step keeps, and how the
merged run of a command is taken apart into single steps. -/
namespace Sys2Proof.Machine

/-! ### Rows of the table -/

theorem ctlStep_idle {P : Params} {d : Device} (h : d.phase = .idle) : ctlStep P d = .ok d := by
  simp [ctlStep, h]

theorem ctlStep_waiting {P : Params} {d : Device} (h : d.waiting = true) : ctlStep P d = .ok d := by
  unfold Device.waiting at h
  split at h
  · rename_i hp; unfold ctlStep; rw [hp]; cases d.phase <;> rfl
  · cases h
  · cases h

theorem ctlStep_check {P : Params} {d : Device} (h : d.phase = .check) (hp : d.port = .free) :
    ctlStep P d = checkStep P d := by simp [ctlStep, h, hp]

theorem ctlStep_load {P : Params} {d : Device} (h : d.phase = .load) (hp : d.port = .free) :
    ctlStep P d = loadStep P d := by simp [ctlStep, h, hp]

theorem ctlStep_hdr {P : Params} {d : Device} (h : d.phase = .hdr) (hp : d.port = .free) :
    ctlStep P d = .ok (hdrIssue d) := by simp [ctlStep, h, hp]

theorem ctlStep_hdr_rsp {P : Params} {d : Device} {res : CipherResult} (h : d.phase = .hdr) (hp : d.port = .rsp res) :
    ctlStep P d = .ok (hdrConsume res d) := by simp [ctlStep, h, hp]

theorem ctlStep_mac {P : Params} {d : Device} (h : d.phase = .mac) (hp : d.port = .free) :
    ctlStep P d = macIssue P d := by simp [ctlStep, h, hp]

theorem ctlStep_mac_rsp {P : Params} {d : Device} {res : CipherResult} (h : d.phase = .mac) (hp : d.port = .rsp res) :
    ctlStep P d = .ok (macConsume res d) := by simp [ctlStep, h, hp]

theorem ctlStep_expand {P : Params} {d : Device} (h : d.phase = .expand) (hp : d.port = .free) :
    ctlStep P d = .ok (expandIssue d) := by simp [ctlStep, h, hp]

theorem ctlStep_expand_rsp {P : Params} {d : Device} {res : CipherResult} (h : d.phase = .expand)
    (hp : d.port = .rsp res) : ctlStep P d = .ok (expandConsume res d) := by simp [ctlStep, h, hp]

theorem ctlStep_reduce {P : Params} {d : Device} (h : d.phase = .reduce) (hp : d.port = .free) :
    ctlStep P d = reduceStep d := by simp [ctlStep, h, hp]

theorem ctlStep_add {P : Params} {d : Device} (h : d.phase = .add) (hp : d.port = .free) :
    ctlStep P d = addStep d := by simp [ctlStep, h, hp]

theorem ctlStep_sub {P : Params} {d : Device} (h : d.phase = .sub) (hp : d.port = .free) :
    ctlStep P d = subStep d := by simp [ctlStep, h, hp]

theorem ctlStep_writeback {P : Params} {d : Device} (h : d.phase = .writeback) (hp : d.port = .free) :
    ctlStep P d = writebackStep P d := by simp [ctlStep, h, hp]

/-- Everything a controller step that answers can be: no step (idle, or waiting for the engine), or one row of the
table (R194). -/
theorem ctlStep_cases {P : Params} {d e : Device} (h : ctlStep P d = .ok e) :
    e = d ∨
    (d.phase = .check ∧ d.port = .free ∧ checkStep P d = .ok e) ∨
    (d.phase = .load ∧ d.port = .free ∧ loadStep P d = .ok e) ∨
    (d.phase = .hdr ∧ d.port = .free ∧ e = hdrIssue d) ∨
    (d.phase = .hdr ∧ ∃ res, d.port = .rsp res ∧ e = hdrConsume res d) ∨
    (d.phase = .mac ∧ d.port = .free ∧ macIssue P d = .ok e) ∨
    (d.phase = .mac ∧ ∃ res, d.port = .rsp res ∧ e = macConsume res d) ∨
    (d.phase = .expand ∧ d.port = .free ∧ e = expandIssue d) ∨
    (d.phase = .expand ∧ ∃ res, d.port = .rsp res ∧ e = expandConsume res d) ∨
    (d.phase = .reduce ∧ d.port = .free ∧ reduceStep d = .ok e) ∨
    (d.phase = .add ∧ d.port = .free ∧ addStep d = .ok e) ∨
    (d.phase = .sub ∧ d.port = .free ∧ subStep d = .ok e) ∨
    (d.phase = .writeback ∧ d.port = .free ∧ writebackStep P d = .ok e) := by
  cases hp : d.port with
  | req key x =>
    rw [ctlStep_waiting (by simp [Device.waiting, hp])] at h
    exact .inl (by cases h; rfl)
  | free =>
    cases hph : d.phase <;> simp [ctlStep, hph, hp] at h <;> simp_all
  | rsp res =>
    cases hph : d.phase <;> simp [ctlStep, hph, hp] at h <;> simp_all

/-! ### The merged run, step by step -/

/-- n steps of controller or engine, each from a busy state. -/
inductive Steps (P : Params) : Nat → State → State → Prop where
  | refl (s : State) : Steps P 0 s s
  | step {n : Nat} {s t u : State} : s.dev.busy = true → advance P s = .ok t → Steps P n t u → Steps P (n + 1) s u

theorem Steps.one {P : Params} {s t : State} (hb : s.dev.busy = true) (h : advance P s = .ok t) : Steps P 1 s t :=
  .step hb h (.refl t)

theorem Steps.trans {P : Params} {n m : Nat} {s t u : State} (h : Steps P n s t) (h' : Steps P m t u) :
    Steps P (n + m) s u := by
  induction h with
  | refl s => simpa using h'
  | step hb ha _ ih => rw [Nat.add_right_comm]; exact .step hb ha (ih h')

/-- Steps taken off the front of a run. -/
theorem runToIdle_steps {P : Params} {n : Nat} (m : Nat) {s t : State} (h : Steps P n s t) :
    runToIdle P (n + m) s = runToIdle P m t := by
  induction h with
  | refl s => simp
  | step hb ha _ ih => rw [Nat.add_right_comm]; simp only [runToIdle, hb, if_true, ha]; exact ih

theorem runToIdle_idle {P : Params} {s : State} (m : Nat) (h : s.dev.busy = false) : runToIdle P m s = .ok s := by
  cases m <;> simp [runToIdle, h]

/-- A run whose steps end idle within the fuel answers where they end. -/
theorem runToIdle_of_steps {P : Params} {n m : Nat} {s t : State} (h : Steps P n s t) (ht : t.dev.busy = false)
    (hn : n ≤ m) : runToIdle P m s = .ok t := by
  obtain ⟨k, rfl⟩ := Nat.exists_eq_add_of_le hn
  rw [runToIdle_steps k h, runToIdle_idle k ht]

/-- A run that answers is a sequence of steps that ends idle. -/
theorem steps_of_runToIdle {P : Params} {m : Nat} {s t : State} (h : runToIdle P m s = .ok t) :
    t.dev.busy = false ∧ ∃ n, n ≤ m ∧ Steps P n s t := by
  induction m generalizing s with
  | zero =>
    unfold runToIdle at h
    split at h
    · cases h
    · rename_i hb; cases h; exact ⟨by simpa using hb, 0, le_refl 0, .refl _⟩
  | succ m ih =>
    unfold runToIdle at h
    split at h
    · split at h
      · cases h
      · obtain ⟨hb, n, hn, hs⟩ := ih h
        exact ⟨hb, n + 1, by omega, .step ‹_› ‹_› hs⟩
    · rename_i hb; cases h; exact ⟨by simpa using hb, 0, by omega, .refl _⟩

/-- What every single step keeps, steps keep. -/
theorem Steps.keeps {P : Params} {R : State → State → Prop} (hr : ∀ s, R s s)
    (ht : ∀ s t u, R s t → R t u → R s u) (h1 : ∀ s t, s.dev.busy = true → advance P s = .ok t → R s t)
    {n : Nat} {s t : State} (h : Steps P n s t) : R s t := by
  induction h with
  | refl s => exact hr s
  | step hb ha _ ih => exact ht _ _ _ (h1 _ _ hb ha) ih

/-- A command that answers, while idle, is its START followed by steps that end idle (R170, R180 to R185). -/
theorem runCommand_next {P : Params} {c rd : BitVec 4} {s t : State} (hi : s.dev.busy = false)
    (h : runCommand P c rd s = .next t) :
    t.dev.busy = false ∧ ∃ n, n ≤ commandBound s.dev.nVal s.dev.rVal s.dev.tVal ∧
      Steps P n { s with dev := s.dev.start c rd } t := by
  unfold runCommand at h
  rw [if_neg (by simp [hi])] at h
  unfold toOutcome at h
  split at h
  · cases h
  · cases h; exact steps_of_runToIdle ‹_›

/-- Steps that end idle within the bound are the command's outcome. -/
theorem runCommand_of_steps {P : Params} {c rd : BitVec 4} {s t : State} {n : Nat} (hi : s.dev.busy = false)
    (h : Steps P n { s with dev := s.dev.start c rd } t) (ht : t.dev.busy = false)
    (hn : n ≤ commandBound s.dev.nVal s.dev.rVal s.dev.tVal) : runCommand P c rd s = .next t := by
  unfold runCommand
  rw [if_neg (by simp [hi]), runToIdle_of_steps h ht hn]
  rfl

/-! ### What controller and engine steps keep -/

/-- The registers and buffers only the host writes (R47, R259). -/
structure KeepsHostState (d e : Device) : Prop extends KeepsOperands d e where
  wbusy : e.wbusy = d.wbusy
  ctrlCmd : e.ctrlCmd = d.ctrlCmd
  ctrlRound : e.ctrlRound = d.ctrlRound
  cmd : e.cmd = d.cmd

theorem KeepsHostState.refl (d : Device) : KeepsHostState d d := ⟨⟨rfl, rfl, rfl, rfl, rfl, rfl, rfl⟩, rfl, rfl, rfl, rfl⟩

theorem KeepsHostState.trans {d e f : Device} (h : KeepsHostState d e) (g : KeepsHostState e f) :
    KeepsHostState d f :=
  ⟨⟨g.inten.trans h.inten, g.radix.trans h.radix, g.keylen.trans h.keylen, g.len.trans h.len, g.tlen.trans h.tlen,
    g.key.trans h.key, g.tweak.trans h.tweak⟩, g.wbusy.trans h.wbusy, g.ctrlCmd.trans h.ctrlCmd,
    g.ctrlRound.trans h.ctrlRound, g.cmd.trans h.cmd⟩

end Sys2Proof.Machine
end

