-- ==== Sys2Proof/Laws/Keeps.lean ====
section
/-! SUPPORT. What every controller and engine step keeps (10_state R47, 70_reset_and_hazards R259): the operands, CTRL,
WBUSY and the latched command, whatever the step; DATA and OPB in every step but WRITEBACK (60_exceptions R223); and the
agents' data, but for the draws the engine takes. -/
namespace Sys2Proof.Machine

/-! ### Step by step -/

theorem complete_keeps (d : Device) : KeepsHostState d d.complete := ⟨⟨rfl, rfl, rfl, rfl, rfl, rfl, rfl⟩, rfl, rfl, rfl, rfl⟩

theorem raise_keeps (c : ErrorCode) (x : BitVec 17) (d : Device) : KeepsHostState d (d.raise c x) :=
  ⟨⟨rfl, rfl, rfl, rfl, rfl, rfl, rfl⟩, rfl, rfl, rfl, rfl⟩

theorem issue_keeps (x : Block) (d : Device) : KeepsHostState d (d.issue x) :=
  ⟨⟨rfl, rfl, rfl, rfl, rfl, rfl, rfl⟩, rfl, rfl, rfl, rfl⟩

theorem freePort_keeps (d : Device) : KeepsHostState d d.freePort := ⟨⟨rfl, rfl, rfl, rfl, rfl, rfl, rfl⟩, rfl, rfl, rfl, rfl⟩

theorem serve_keeps (P : Params) (a : EngineDraw) (d : Device) :
    KeepsHostState d (d.serve P a) ∧ KeepsBuffers d (d.serve P a) := by
  unfold Device.serve
  split <;> exact ⟨⟨⟨rfl, rfl, rfl, rfl, rfl, rfl, rfl⟩, rfl, rfl, rfl, rfl⟩, rfl, rfl⟩

theorem hdrConsume_keeps (res : CipherResult) (d : Device) :
    KeepsHostState d (hdrConsume res d) ∧ KeepsBuffers d (hdrConsume res d) := by
  unfold hdrConsume
  split
  · exact ⟨⟨⟨rfl, rfl, rfl, rfl, rfl, rfl, rfl⟩, rfl, rfl, rfl, rfl⟩, rfl, rfl⟩
  · split <;> exact ⟨⟨⟨rfl, rfl, rfl, rfl, rfl, rfl, rfl⟩, rfl, rfl, rfl, rfl⟩, rfl, rfl⟩

theorem macConsume_keeps (res : CipherResult) (d : Device) :
    KeepsHostState d (macConsume res d) ∧ KeepsBuffers d (macConsume res d) := by
  unfold macConsume
  split
  · exact ⟨⟨⟨rfl, rfl, rfl, rfl, rfl, rfl, rfl⟩, rfl, rfl, rfl, rfl⟩, rfl, rfl⟩
  · split
    · exact ⟨⟨⟨rfl, rfl, rfl, rfl, rfl, rfl, rfl⟩, rfl, rfl, rfl, rfl⟩, rfl, rfl⟩
    · split <;> exact ⟨⟨⟨rfl, rfl, rfl, rfl, rfl, rfl, rfl⟩, rfl, rfl, rfl, rfl⟩, rfl, rfl⟩

theorem expandConsume_keeps (res : CipherResult) (d : Device) :
    KeepsHostState d (expandConsume res d) ∧ KeepsBuffers d (expandConsume res d) := by
  unfold expandConsume
  split
  · exact ⟨⟨⟨rfl, rfl, rfl, rfl, rfl, rfl, rfl⟩, rfl, rfl, rfl, rfl⟩, rfl, rfl⟩
  · split <;> exact ⟨⟨⟨rfl, rfl, rfl, rfl, rfl, rfl, rfl⟩, rfl, rfl, rfl, rfl⟩, rfl, rfl⟩

theorem macIssue_ok {P : Params} {d e : Device} (h : macIssue P d = .ok e) :
    ∃ s, qBlockBytes P d = .ok s ∧ e = d.issue (d.y ^^^ blockOf s) := by
  unfold macIssue at h
  split at h
  · cases h
  · cases h; exact ⟨_, ‹_›, rfl⟩

theorem reduceStep_ok {d e : Device} (h : reduceStep d = .ok e) :
    ∃ f, strChecked d.rVal d.mVal (num256 (d.strm.take (d.dVal + 4)) % d.rVal ^ d.mVal) = .ok f ∧
      e = { d with strm := d.strm.take (d.dVal + 4), regF := f, phase := afterReduce d.cmd } := by
  unfold reduceStep at h
  simp only at h
  split at h
  · cases h
  · cases h; exact ⟨_, ‹_›, rfl⟩

/-- What CHECK can do: raise the first register error, raise the first bad symbol, or pass (R172, R221). -/
theorem checkStep_ok {P : Params} {d e : Device} (h : checkStep P d = .ok e) :
    (∃ c, registerError P d = some c ∧ e = d.raise c 0) ∨
    (registerError P d = none ∧ ∃ x, symbolScan P d = .ok (some x) ∧ e = d.raise .invalidSymbol x) ∨
    (registerError P d = none ∧ symbolScan P d = .ok none ∧ e = checkPassed d) := by
  unfold checkStep at h
  split at h
  · cases h; exact .inl ⟨_, ‹_›, rfl⟩
  · split at h
    · cases h
    · cases h; exact .inr (.inl ⟨‹_›, _, ‹_›, rfl⟩)
    · cases h; exact .inr (.inr ⟨‹_›, ‹_›, rfl⟩)

theorem checkPassed_keeps (d : Device) : KeepsHostState d (checkPassed d) ∧ KeepsBuffers d (checkPassed d) := by
  unfold checkPassed
  split
  · exact ⟨⟨⟨rfl, rfl, rfl, rfl, rfl, rfl, rfl⟩, rfl, rfl, rfl, rfl⟩, rfl, rfl⟩
  · split <;> exact ⟨⟨⟨rfl, rfl, rfl, rfl, rfl, rfl, rfl⟩, rfl, rfl, rfl, rfl⟩, rfl, rfl⟩

theorem loadSplit_ok {P : Params} {d e : Device} (h : loadSplit P d = .ok e) :
    ∃ a b, memRead P d .data 0 d.uVal = .ok a ∧ memRead P d .data d.uVal d.vVal = .ok b ∧
      e = { d with regA := digitsOf a, regB := digitsOf b, regF := [], phase := .hdr } := by
  unfold loadSplit at h
  split at h
  · cases h
  · split at h
    · cases h
    · cases h; exact ⟨_, _, ‹_›, ‹_›, rfl⟩

theorem loadPair_ok {P : Params} {ph : Phase} {d e : Device} (h : loadPair P ph d = .ok e) :
    ∃ a b, memRead P d .data 0 d.nVal = .ok a ∧ memRead P d .opb 0 d.nVal = .ok b ∧
      e = { d with regA := digitsOf a, regF := digitsOf b, regB := [], phase := ph } := by
  unfold loadPair at h
  split at h
  · cases h
  · split at h
    · cases h
    · cases h; exact ⟨_, _, ‹_›, ‹_›, rfl⟩

theorem loadPrf_ok {P : Params} {d e : Device} (h : loadPrf P d = .ok e) :
    ∃ b, memRead P d .data 0 d.wVal = .ok b ∧
      e = { d with i := d.ctrlRound, regB := digitsOf b, regA := [], regF := [], phase := .hdr } := by
  unfold loadPrf at h
  split at h
  · cases h
  · cases h; exact ⟨_, ‹_›, rfl⟩

theorem loadStep_keeps {P : Params} {d e : Device} (h : loadStep P d = .ok e) :
    KeepsHostState d e ∧ KeepsBuffers d e := by
  unfold loadStep loadEnc loadDec loadMadd loadMsub at h
  split at h
  · obtain ⟨a, b, -, -, rfl⟩ := loadSplit_ok h
    exact ⟨⟨⟨rfl, rfl, rfl, rfl, rfl, rfl, rfl⟩, rfl, rfl, rfl, rfl⟩, rfl, rfl⟩
  split at h
  · obtain ⟨a, b, -, -, rfl⟩ := loadSplit_ok h
    exact ⟨⟨⟨rfl, rfl, rfl, rfl, rfl, rfl, rfl⟩, rfl, rfl, rfl, rfl⟩, rfl, rfl⟩
  split at h
  · obtain ⟨b, -, rfl⟩ := loadPrf_ok h
    exact ⟨⟨⟨rfl, rfl, rfl, rfl, rfl, rfl, rfl⟩, rfl, rfl, rfl, rfl⟩, rfl, rfl⟩
  split at h
  · obtain ⟨a, b, -, -, rfl⟩ := loadPair_ok h
    exact ⟨⟨⟨rfl, rfl, rfl, rfl, rfl, rfl, rfl⟩, rfl, rfl, rfl, rfl⟩, rfl, rfl⟩
  split at h
  · obtain ⟨a, b, -, -, rfl⟩ := loadPair_ok h
    exact ⟨⟨⟨rfl, rfl, rfl, rfl, rfl, rfl, rfl⟩, rfl, rfl, rfl, rfl⟩, rfl, rfl⟩
  · cases h

theorem addMadd_ok {d e : Device} (h : addMadd d = .ok e) :
    ∃ a, raddStep d.rVal d.nVal d.regA d.regF = .ok a ∧ e = { d with regA := a, phase := .writeback } := by
  unfold addMadd at h
  split at h
  · cases h
  · cases h; exact ⟨_, ‹_›, rfl⟩

theorem subMsub_ok {d e : Device} (h : subMsub d = .ok e) :
    ∃ a, rsubStep d.rVal d.nVal d.regA d.regF = .ok a ∧ e = { d with regA := a, phase := .writeback } := by
  unfold subMsub at h
  split at h
  · cases h
  · cases h; exact ⟨_, ‹_›, rfl⟩

theorem addEnc_ok {d e : Device} (h : addEnc d = .ok e) :
    ∃ c, raddStep d.rVal d.regA.length d.regA d.regF = .ok c ∧
      e = if d.i.toNat < 9 then Device.nextRound (d.i + 1) { d with regA := d.regB, regB := c }
        else { d with regA := d.regB, regB := c, phase := .writeback } := by
  unfold addEnc at h
  split at h
  · cases h
  · cases h; exact ⟨_, ‹_›, rfl⟩

theorem subDec_ok {d e : Device} (h : subDec d = .ok e) :
    ∃ c, rsubStep d.rVal d.regB.length d.regB d.regF = .ok c ∧
      e = if 0 < d.i.toNat then Device.nextRound (d.i - 1) { d with regB := d.regA, regA := c }
        else { d with regB := d.regA, regA := c, phase := .writeback } := by
  unfold subDec at h
  split at h
  · cases h
  · cases h; exact ⟨_, ‹_›, rfl⟩

theorem addStep_keeps {d e : Device} (h : addStep d = .ok e) : KeepsHostState d e ∧ KeepsBuffers d e := by
  unfold addStep at h
  split at h
  · obtain ⟨a, -, rfl⟩ := addMadd_ok h
    exact ⟨⟨⟨rfl, rfl, rfl, rfl, rfl, rfl, rfl⟩, rfl, rfl, rfl, rfl⟩, rfl, rfl⟩
  split at h
  · obtain ⟨c, -, rfl⟩ := addEnc_ok h
    split <;> exact ⟨⟨⟨rfl, rfl, rfl, rfl, rfl, rfl, rfl⟩, rfl, rfl, rfl, rfl⟩, rfl, rfl⟩
  · cases h

theorem subStep_keeps {d e : Device} (h : subStep d = .ok e) : KeepsHostState d e ∧ KeepsBuffers d e := by
  unfold subStep at h
  split at h
  · obtain ⟨a, -, rfl⟩ := subMsub_ok h
    exact ⟨⟨⟨rfl, rfl, rfl, rfl, rfl, rfl, rfl⟩, rfl, rfl, rfl, rfl⟩, rfl, rfl⟩
  split at h
  · obtain ⟨c, -, rfl⟩ := subDec_ok h
    split <;> exact ⟨⟨⟨rfl, rfl, rfl, rfl, rfl, rfl, rfl⟩, rfl, rfl, rfl, rfl⟩, rfl, rfl⟩
  · cases h

/-- WRITEBACK of a result, when it answers: the bytes written, and complete() (R178, R179). -/
theorem writeResult_ok {P : Params} {b : Buf} {n : Nat} {v : List Nat} {d e : Device}
    (h : writeResult P b n v d = .ok e) :
    v.length = n ∧ n ≤ Params.size P b ∧
      e = (d.setBuf b (Memory.writeBytes (d.buf b) 0 (digitBytes v))).complete := by
  unfold writeResult at h
  split at h
  · cases h
  · rename_i hw
    cases h
    obtain ⟨hl, hn, rfl⟩ := memWrite_ok hw
    exact ⟨by simpa using hl, by omega, rfl⟩

theorem writeResult_keeps {P : Params} {b : Buf} {n : Nat} {v : List Nat} {d e : Device} (hb : b ≠ .tweak)
    (h : writeResult P b n v d = .ok e) : KeepsHostState d e := by
  obtain ⟨-, -, rfl⟩ := writeResult_ok h
  cases b with
  | tweak => exact absurd rfl hb
  | data => exact ⟨⟨rfl, rfl, rfl, rfl, rfl, rfl, rfl⟩, rfl, rfl, rfl, rfl⟩
  | opb => exact ⟨⟨rfl, rfl, rfl, rfl, rfl, rfl, rfl⟩, rfl, rfl, rfl, rfl⟩

theorem writebackStep_keeps {P : Params} {d e : Device} (h : writebackStep P d = .ok e) : KeepsHostState d e := by
  unfold writebackStep writeHalves writePrf writeSum at h
  split at h
  · exact writeResult_keeps (by decide) h
  split at h
  · exact writeResult_keeps (by decide) h
  split at h
  · exact writeResult_keeps (by decide) h
  · cases h

/-! ### Any step -/

/-- A controller step keeps what only the host writes. -/
theorem ctlStep_keeps {P : Params} {d e : Device} (h : ctlStep P d = .ok e) : KeepsHostState d e := by
  obtain rfl | ⟨-, -, h⟩ | ⟨-, -, h⟩ | ⟨-, -, rfl⟩ | ⟨-, res, -, rfl⟩ | ⟨-, -, h⟩ | ⟨-, res, -, rfl⟩ | ⟨-, -, rfl⟩ |
    ⟨-, res, -, rfl⟩ | ⟨-, -, h⟩ | ⟨-, -, h⟩ | ⟨-, -, h⟩ | ⟨-, -, h⟩ := ctlStep_cases h
  · exact .refl _
  · obtain ⟨c, -, rfl⟩ | ⟨-, x, -, rfl⟩ | ⟨-, -, rfl⟩ := checkStep_ok h
    · exact raise_keeps ..
    · exact raise_keeps ..
    · exact (checkPassed_keeps d).1
  · exact (loadStep_keeps h).1
  · exact issue_keeps ..
  · exact (hdrConsume_keeps res d).1
  · obtain ⟨s, -, rfl⟩ := macIssue_ok h; exact issue_keeps ..
  · exact (macConsume_keeps res d).1
  · exact issue_keeps ..
  · exact (expandConsume_keeps res d).1
  · obtain ⟨f, -, rfl⟩ := reduceStep_ok h
    exact ⟨⟨rfl, rfl, rfl, rfl, rfl, rfl, rfl⟩, rfl, rfl, rfl, rfl⟩
  · exact (addStep_keeps h).1
  · exact (subStep_keeps h).1
  · exact writebackStep_keeps h

/-- The agents' data after a controller or engine step: some draws fewer, nothing else. -/
def KeepsAgents (s t : State) : Prop := ∃ k, t.env = { s.env with engine := s.env.engine.drop k }

theorem KeepsAgents.refl (s : State) : KeepsAgents s s := ⟨0, rfl⟩

theorem KeepsAgents.trans {s t u : State} (h : KeepsAgents s t) (g : KeepsAgents t u) : KeepsAgents s u := by
  obtain ⟨k, hk⟩ := h
  obtain ⟨l, hl⟩ := g
  exact ⟨k + l, by rw [hl, hk]; simp [List.drop_drop]⟩

theorem controllerMove_ok {P : Params} {s t : State} (h : controllerMove P s = .ok t) :
    ∃ e, ctlStep P s.dev = .ok e ∧ t = { s with dev := e } := by
  unfold controllerMove at h
  split at h
  · cases h
  · cases h; exact ⟨_, ‹_›, rfl⟩

/-- An advance is the engine's answer or a controller step (R66, R194). -/
theorem advance_cases {P : Params} {s t : State} (h : advance P s = .ok t) :
    (s.dev.waiting = true ∧
      t = { dev := s.dev.serve P s.env.nextDraw, env := { s.env with engine := s.env.engine.tail } }) ∨
    (s.dev.waiting = false ∧ ∃ e, ctlStep P s.dev = .ok e ∧ t = { s with dev := e }) := by
  unfold advance at h
  cases hw : s.dev.waiting with
  | true => rw [hw] at h; simp only [if_true, engineMove, hw] at h; cases h; exact .inl ⟨rfl, rfl⟩
  | false => rw [hw] at h; exact .inr ⟨rfl, controllerMove_ok h⟩

theorem advance_keeps {P : Params} {s t : State} (h : advance P s = .ok t) :
    KeepsHostState s.dev t.dev ∧ KeepsAgents s t := by
  obtain ⟨-, rfl⟩ | ⟨-, e, he, rfl⟩ := advance_cases h
  · exact ⟨(serve_keeps ..).1, 1, by simp⟩
  · exact ⟨ctlStep_keeps he, 0, rfl⟩

theorem Steps.keepsHost {P : Params} {n : Nat} {s t : State} (h : Steps P n s t) :
    KeepsHostState s.dev t.dev ∧ KeepsAgents s t :=
  h.keeps (R := fun s t => KeepsHostState s.dev t.dev ∧ KeepsAgents s t) (fun _ => ⟨.refl _, .refl _⟩)
    (fun _ _ _ h g => ⟨h.1.trans g.1, h.2.trans g.2⟩) fun _ _ _ h => advance_keeps h

end Sys2Proof.Machine
end

