-- ==== Sys2Proof/Laws/Round.lean ====
section
/-! SUPPORT. The round function as the controller runs it (41_round_function R145 to R151): one cipher call as three
steps, the CBC-MAC chain, the key-stream expansion, and the whole of a round's RF. -/
namespace Sys2Proof.Machine

/-! ### The bytes a MAC step reads (R135, R136, R147) -/

/-- Part of what a longer read delivers. -/
theorem Memory.readBytes_part {bf : Buf} {m : Memory} {vs : List Byte} (h : Memory.readBytes bf m 0 vs.length = .ok vs)
    {a c : Nat} (hac : a + c ≤ vs.length) : Memory.readBytes bf m a c = .ok ((vs.drop a).take c) := by
  rw [Memory.readBytes_ok_iff] at h ⊢
  refine ⟨by simp; omega, fun p hp => ?_⟩
  simp only [List.length_take, List.length_drop, Nat.lt_min] at hp
  have := h.2 (a + p) (by omega)
  simpa using this

theorem memRead_ok {P : Params} {d : Device} {b : Buf} {a n : Nat} {vs : List Byte} (h : memRead P d b a n = .ok vs) :
    a + n ≤ Params.size P b ∧ Memory.readBytes b (d.buf b) a n = .ok vs := by
  unfold memRead at h
  split at h
  · exact ⟨‹_›, h⟩
  · cases h

/-- Part of what a longer bounded read delivers. -/
theorem memRead_part {P : Params} {d : Device} {b : Buf} {vs : List Byte} (h : memRead P d b 0 vs.length = .ok vs)
    {a c : Nat} (hac : a + c ≤ vs.length) : memRead P d b a c = .ok ((vs.drop a).take c) := by
  obtain ⟨hn, hr⟩ := memRead_ok h
  unfold memRead
  rw [if_pos (by omega), Memory.readBytes_part hr hac]

@[simp] theorem length_qTail (n r t i : Nat) (h : List Nat) :
    (qTail n r t i h).length = padOf n r t + 1 + bOf n r := by
  simp [qTail, Nat.add_assoc]

@[simp] theorem length_qString (tw : List Byte) (n r i : Nat) (h : List Nat) :
    (qString tw n r i h).length = tw.length + (padOf n r tw.length + 1 + bOf n r) := by
  simp [qString]

/-- Where the tweak is written and the numeral fits, the block a MAC step reads is block k of Q. -/
theorem qBlockBytes_eq {P : Params} {d : Device} {tw : List Byte} (ht : HoldsTweak P d tw)
    (hf : num d.rVal d.half < 256 ^ d.bVal) (h1 : 1 ≤ d.k.toNat) (hq : d.k.toNat ≤ d.qVal) :
    qBlockBytes P d =
      .ok (((qString tw d.nVal d.rVal d.iVal d.half).drop (16 * (d.k.toNat - 1))).take 16) := by
  obtain ⟨hl, hm⟩ := ht
  have hr := memRead_part hm (a := min (16 * (d.k.toNat - 1)) d.tVal) (c := min 16 (d.tVal - 16 * (d.k.toNat - 1)))
    (by omega)
  unfold qBlockBytes
  simp only
  rw [if_pos ⟨h1, hq⟩, if_pos hf, hr]
  simp only [qString, List.drop_append, List.take_append, List.length_drop, hl, Except.ok.injEq]
  congr 1
  · by_cases h : 16 * (d.k.toNat - 1) ≤ d.tVal
    · rw [Nat.min_eq_left h]
      by_cases h' : 16 ≤ d.tVal - 16 * (d.k.toNat - 1)
      · rw [Nat.min_eq_left h']
      · rw [Nat.min_eq_right (by omega), List.take_of_length_le (by simp; omega), List.take_of_length_le (by simp; omega)]
    · rw [Nat.min_eq_right (by omega), List.drop_of_length_le (by omega), List.drop_of_length_le (by omega)]
      simp
  · congr 1
    omega

/-! ### One cipher call (R66) -/

/-- The engine's answer to a request for x under a draw. -/
def answer (P : Params) (d : Device) (a : EngineDraw) (x : Block) : CipherResult :=
  match a with
  | .ok => .ok (P.ciph d.keyBytes x)
  | .fail => .fail

/-- s with another device, after c of the engine's draws. -/
def State.after (s : State) (d : Device) (c : Nat) : State :=
  { dev := d, env := { s.env with engine := s.env.engine.drop c } }

@[simp] theorem State.after_dev (s : State) (d : Device) (c : Nat) : (s.after d c).dev = d := rfl

@[simp] theorem State.after_after (s : State) (d e : Device) (a c : Nat) :
    (s.after d a).after e c = s.after e (a + c) := by simp [State.after, List.drop_drop]

/-- Issue, serve, consume: a cipher call is three steps and takes one draw. `hc` is what the consume step makes of the
answer. -/
theorem Steps.call {P : Params} {s : State} {x : Block} {e : Device} (hb : s.dev.busy = true)
    (hp : s.dev.port = .free) (hi : ctlStep P s.dev = .ok (s.dev.issue x))
    (hc : ctlStep P { s.dev.issue x with port := .rsp (answer P s.dev s.env.nextDraw x) } = .ok e) :
    Steps P 3 s (s.after e 1) := by
  have w1 : s.dev.waiting = false := by simp [Device.waiting, hp]
  refine .step (t := { s with dev := s.dev.issue x }) hb (by simp [advance, w1, controllerMove, hi]) ?_
  refine .step (t := s.after { s.dev.issue x with port := .rsp (answer P s.dev s.env.nextDraw x) } 1) hb ?_ ?_
  · simp only [advance, engineMove, Device.waiting, Device.issue, if_true, State.after, List.drop_one]
    rfl
  · refine .one hb ?_
    simp only [advance, Device.waiting, State.after, Bool.false_eq_true, if_false, controllerMove, hc]

/-- A controller step from a state that does not wait. -/
theorem Steps.controller {P : Params} {s : State} {e : Device} (hb : s.dev.busy = true) (hp : s.dev.port = .free)
    (h : ctlStep P s.dev = .ok e) : Steps P 1 s (s.after e 0) :=
  .one hb (by simp [advance, Device.waiting, hp, controllerMove, h, State.after])

theorem Env.nextDraw_of_answers {v : Env} {c : Nat} (h : v.Answers (c + 1)) : v.nextDraw = .ok := by
  unfold Env.nextDraw
  cases he : v.engine with
  | nil => rfl
  | cons a l => exact h a (by simp [he])

theorem Env.answers_mono {v : Env} {c k : Nat} (h : v.Answers k) (hc : c ≤ k) : v.Answers c := fun a ha =>
  h a ((List.take_prefix_take_left hc).subset ha)

/-- Draws beyond the ones taken are still Ok. -/
theorem State.answers_after {s : State} {d : Device} {a c : Nat} (h : s.env.Answers (a + c)) :
    (s.after d a).env.Answers c := by
  intro x hx
  refine h x ?_
  simp only [State.after] at hx
  rw [List.take_drop] at hx
  exact List.mem_of_mem_drop hx

/-! ### HDR (R145, R146) -/

/-- The device after HDR of a round command (R146). -/
def hdrDone (d : Device) (z : Block) : Device :=
  { d with iv := z, y := z, k := 1, phase := .mac, ciphcnt := d.ciphcnt + 1, port := .free }

/-- HDR of a round command: IV and Y are Ciph(K, P), and MAC starts. -/
theorem steps_hdr {P : Params} {s : State} (hph : s.dev.phase = .hdr) (hp : s.dev.port = .free)
    (hc : s.dev.cmd ≠ Cmd.ivgen) (ha : s.env.nextDraw = .ok) :
    Steps P 3 s
      (s.after (hdrDone s.dev (ivOf (cipherOf P s.dev) s.dev.nVal s.dev.rVal s.dev.tVal)) 1) := by
  refine Steps.call (by simp [Device.busy, hph]) hp (ctlStep_hdr hph hp) ?_
  rw [ctlStep_hdr_rsp (by exact hph) rfl]
  simp [hdrConsume, ha, answer, Device.issue, Device.freePort, hc, ivOf, cipherOf, hdrDone]

/-- HDR of IVGEN: IV is Ciph(K, P), and the command ends (R185). -/
theorem steps_hdr_ivgen {P : Params} {s : State} (hph : s.dev.phase = .hdr) (hp : s.dev.port = .free)
    (hc : s.dev.cmd = Cmd.ivgen) (ha : s.env.nextDraw = .ok) :
    Steps P 3 s
      (s.after (Device.complete { s.dev with
          iv := ivOf (cipherOf P s.dev) s.dev.nVal s.dev.rVal s.dev.tVal
          ciphcnt := s.dev.ciphcnt + 1, port := .free }) 1) := by
  refine Steps.call (by simp [Device.busy, hph]) hp (ctlStep_hdr hph hp) ?_
  rw [ctlStep_hdr_rsp (by exact hph) rfl]
  simp [hdrConsume, ha, answer, Device.issue, Device.freePort, hc, ivOf, cipherOf]

/-! ### MAC (R147, R148) -/

/-- MAC on a written tweak whose numeral fits: the request is Y ⊕ Q_k. -/
theorem macIssue_eq {P : Params} {d : Device} {tw : List Byte} (ht : HoldsTweak P d tw)
    (hf : num d.rVal d.half < 256 ^ d.bVal) (h1 : 1 ≤ d.k.toNat) (hq : d.k.toNat ≤ d.qVal) :
    macIssue P d = .ok (d.issue (d.y ^^^ qBlock (qString tw d.nVal d.rVal d.iVal d.half) d.k.toNat)) := by
  unfold macIssue
  rw [qBlockBytes_eq ht hf h1 hq]
  rfl

/-- Consuming a MAC block that is not the round's last (R148). -/
theorem macConsume_more {d : Device} (z : Block) (h : d.k.toNat < d.qVal) :
    macConsume (.ok z) d = { d.freePort with y := z, k := d.k + 1 } := by
  unfold macConsume
  exact if_pos h

/-- Consuming the last MAC block of a round without expansion (R148). -/
theorem macConsume_last_reduce {d : Device} (z : Block) (h : ¬ d.k.toNat < d.qVal) (he : d.eVal = 0) :
    macConsume (.ok z) d = { d.freePort with y := z, strm := blockBytes z, phase := .reduce } := by
  unfold macConsume
  exact (if_neg h).trans (if_pos he)

/-- Consuming the last MAC block of a round with expansion (R148). -/
theorem macConsume_last_expand {d : Device} (z : Block) (h : ¬ d.k.toNat < d.qVal) (he : d.eVal ≠ 0) :
    macConsume (.ok z) d = { d.freePort with y := z, strm := blockBytes z, j := 1, phase := .expand } := by
  unfold macConsume
  exact (if_neg h).trans (if_neg he)

/-- The device after a MAC block that is not the round's last, answered z (R148). -/
def macNext (d : Device) (z : Block) : Device :=
  { d with y := z, k := d.k + 1, ciphcnt := d.ciphcnt + 1, port := .free }

/-- One MAC block answered Ok, not the last of the round. -/
theorem steps_mac_block {P : Params} {s : State} {tw : List Byte} (hph : s.dev.phase = .mac)
    (hp : s.dev.port = .free) (ht : HoldsTweak P s.dev tw) (hf : num s.dev.rVal s.dev.half < 256 ^ s.dev.bVal)
    (h1 : 1 ≤ s.dev.k.toNat) (hq : s.dev.k.toNat < s.dev.qVal) (ha : s.env.nextDraw = .ok) :
    Steps P 3 s
      (s.after (macNext s.dev (cipherOf P s.dev
          (s.dev.y ^^^ qBlock (qString tw s.dev.nVal s.dev.rVal s.dev.iVal s.dev.half) s.dev.k.toNat))) 1) := by
  refine Steps.call (by simp [Device.busy, hph]) hp
    ((ctlStep_mac hph hp).trans (macIssue_eq ht hf h1 (le_of_lt hq))) ?_
  rw [ctlStep_mac_rsp (by exact hph) rfl, ha]
  exact congrArg Except.ok (macConsume_more _ (by exact hq))

/-- The device after the last MAC block of a round, answered z (R148). -/
def macLast (d : Device) (z : Block) : Device :=
  { d with
    y := z, strm := blockBytes z, j := if d.eVal = 0 then d.j else 1
    phase := if d.eVal = 0 then .reduce else .expand, ciphcnt := d.ciphcnt + 1, port := .free }

/-- The last MAC block of the round, answered Ok. -/
theorem steps_mac_last {P : Params} {s : State} {tw : List Byte} (hph : s.dev.phase = .mac)
    (hp : s.dev.port = .free) (ht : HoldsTweak P s.dev tw) (hf : num s.dev.rVal s.dev.half < 256 ^ s.dev.bVal)
    (h1 : 1 ≤ s.dev.k.toNat) (hq : s.dev.k.toNat = s.dev.qVal) (ha : s.env.nextDraw = .ok) :
    Steps P 3 s
      (s.after (macLast s.dev (cipherOf P s.dev
          (s.dev.y ^^^ qBlock (qString tw s.dev.nVal s.dev.rVal s.dev.iVal s.dev.half) s.dev.k.toNat))) 1) := by
  refine Steps.call (by simp [Device.busy, hph]) hp
    ((ctlStep_mac hph hp).trans (macIssue_eq ht hf h1 (le_of_eq hq))) ?_
  rw [ctlStep_mac_rsp (by exact hph) rfl, ha]
  have hl : ¬ s.dev.k.toNat < s.dev.qVal := by omega
  by_cases he : s.dev.eVal = 0
  · refine congrArg Except.ok ((macConsume_last_reduce _ (by exact hl) (by exact he)).trans ?_)
    unfold macLast
    rw [if_pos he, if_pos he]
    rfl
  · refine congrArg Except.ok ((macConsume_last_expand _ (by exact hl) (by exact he)).trans ?_)
    unfold macLast
    rw [if_neg he, if_neg he]
    rfl

/-- The device after a whole MAC phase that ends with chain value z after c calls. -/
def macDone (d : Device) (c : Nat) (z : Block) : Device :=
  { d with
    y := z, strm := blockBytes z, k := BitVec.ofNat 16 d.qVal, j := if d.eVal = 0 then d.j else 1
    phase := if d.eVal = 0 then .reduce else .expand, ciphcnt := d.ciphcnt + BitVec.ofNat 32 c, port := .free }

/-- CIPHCNT counts one call and then c (R41). -/
theorem count_succ (x : BitVec 32) (c : Nat) : x + 1 + BitVec.ofNat 32 c = x + BitVec.ofNat 32 (c + 1) := by
  rw [BitVec.add_assoc, Nat.add_comm c 1, BitVec.ofNat_add]
  rfl

theorem count_add (x : BitVec 32) (a c : Nat) :
    x + BitVec.ofNat 32 a + BitVec.ofNat 32 c = x + BitVec.ofNat 32 (a + c) := by
  rw [BitVec.add_assoc, ← BitVec.ofNat_add]

theorem macDone_strm (d : Device) (c : Nat) (z : Block) : (macDone d c z).strm = blockBytes z := by simp only [macDone]

theorem macDone_y (d : Device) (c : Nat) (z : Block) : (macDone d c z).y = z := by simp only [macDone]

theorem macDone_macNext (d : Device) (z w : Block) (c : Nat) : macDone (macNext d z) c w = macDone d (c + 1) w :=
  congrArg (fun x =>
    { d with
      y := w, strm := blockBytes w, k := BitVec.ofNat 16 d.qVal, j := if d.eVal = 0 then d.j else 1
      phase := if d.eVal = 0 then .reduce else .expand, ciphcnt := x, port := .free }) (count_succ d.ciphcnt c)

/-- The MAC phase from block k on, every call answered Ok: the chain of R137 to its end. -/
theorem steps_mac {P : Params} {tw : List Byte} {iv : Block} (c : Nat) {s : State} (hph : s.dev.phase = .mac)
    (hp : s.dev.port = .free) (ht : HoldsTweak P s.dev tw) (hf : num s.dev.rVal s.dev.half < 256 ^ s.dev.bVal)
    (h1 : 1 ≤ s.dev.k.toNat) (hq : s.dev.k.toNat + c = s.dev.qVal) (hb : s.dev.qVal < 2 ^ 16)
    (hy : s.dev.y = macChain (cipherOf P s.dev) (qString tw s.dev.nVal s.dev.rVal s.dev.iVal s.dev.half) iv
      (s.dev.k.toNat - 1))
    (ha : s.env.Answers (c + 1)) :
    Steps P (3 * (c + 1)) s
      (s.after (macDone s.dev (c + 1) (macChain (cipherOf P s.dev)
          (qString tw s.dev.nVal s.dev.rVal s.dev.iVal s.dev.half) iv s.dev.qVal)) (c + 1)) := by
  induction c generalizing s with
  | zero =>
    have h := steps_mac_last hph hp ht hf h1 (by omega) (Env.nextDraw_of_answers ha)
    have hk : s.dev.k = BitVec.ofNat 16 s.dev.qVal := by rw [← hq]; simp
    have hq' : s.dev.qVal = s.dev.k.toNat - 1 + 1 := by omega
    have e : macLast s.dev (cipherOf P s.dev
        (s.dev.y ^^^ qBlock (qString tw s.dev.nVal s.dev.rVal s.dev.iVal s.dev.half) s.dev.k.toNat)) =
        macDone s.dev 1 (macChain (cipherOf P s.dev)
          (qString tw s.dev.nVal s.dev.rVal s.dev.iVal s.dev.half) iv s.dev.qVal) := by
      rw [hq', macChain, ← hy, ← hq', ← hq]
      unfold macLast macDone
      rw [← hk]
      rfl
    rw [e] at h
    simpa using h
  | succ c ih =>
    have h := steps_mac_block hph hp ht hf h1 (by omega) (Env.nextDraw_of_answers ha)
    have hk : (s.dev.k + 1).toNat = s.dev.k.toNat + 1 := by
      rw [BitVec.toNat_add]; simp; omega
    have hz : cipherOf P s.dev
        (s.dev.y ^^^ qBlock (qString tw s.dev.nVal s.dev.rVal s.dev.iVal s.dev.half) s.dev.k.toNat) =
        macChain (cipherOf P s.dev) (qString tw s.dev.nVal s.dev.rVal s.dev.iVal s.dev.half) iv
          ((s.dev.k + 1).toNat - 1) := by
      rw [hk, show s.dev.k.toNat + 1 - 1 = (s.dev.k.toNat - 1) + 1 by omega, macChain,
        show s.dev.k.toNat - 1 + 1 = s.dev.k.toNat by omega, ← hy]
    have g := ih (s := s.after (macNext s.dev _) 1) hph rfl ht hf (by show 1 ≤ (s.dev.k + 1).toNat; omega)
      (by show (s.dev.k + 1).toNat + c = s.dev.qVal; omega) hb hz
      (State.answers_after (by rwa [Nat.add_comm 1]))
    have t := h.trans g
    rw [show 3 + 3 * (c + 1) = 3 * (c + 1 + 1) by omega] at t
    rw [State.after_after, State.after_dev, macDone_macNext, Nat.add_comm 1] at t
    exact t

/-! ### EXPAND (R149, R150) -/

/-- Consuming an expansion block that is not the last (R150). -/
theorem expandConsume_more {d : Device} (z : Block) (h : d.j.toNat < d.eVal) :
    expandConsume (.ok z) d = { d.freePort with strm := d.strm ++ blockBytes z, j := d.j + 1 } := by
  unfold expandConsume
  exact if_pos h

/-- Consuming the last expansion block (R150). -/
theorem expandConsume_last {d : Device} (z : Block) (h : ¬ d.j.toNat < d.eVal) :
    expandConsume (.ok z) d = { d.freePort with strm := d.strm ++ blockBytes z, phase := .reduce } := by
  unfold expandConsume
  exact if_neg h

/-- The device after an expansion block that is not the last, answered z. -/
def expandNext (d : Device) (z : Block) : Device :=
  { d with strm := d.strm ++ blockBytes z, j := d.j + 1, ciphcnt := d.ciphcnt + 1, port := .free }

/-- The device after the last expansion block of the round, answered z. -/
def expandLast (d : Device) (z : Block) : Device :=
  { d with strm := d.strm ++ blockBytes z, phase := .reduce, ciphcnt := d.ciphcnt + 1, port := .free }

/-- One expansion block answered Ok, not the last. -/
theorem steps_expand_block {P : Params} {s : State} (hph : s.dev.phase = .expand) (hp : s.dev.port = .free)
    (hj : s.dev.j.toNat < s.dev.eVal) (ha : s.env.nextDraw = .ok) :
    Steps P 3 s
      (s.after (expandNext s.dev (cipherOf P s.dev (s.dev.y ^^^ blockOf (bytesBE 16 s.dev.j.toNat)))) 1) := by
  refine Steps.call (by simp [Device.busy, hph]) hp (ctlStep_expand hph hp) ?_
  rw [ctlStep_expand_rsp (by exact hph) rfl, ha]
  exact congrArg Except.ok (expandConsume_more _ (by exact hj))

/-- The last expansion block, answered Ok. -/
theorem steps_expand_last {P : Params} {s : State} (hph : s.dev.phase = .expand) (hp : s.dev.port = .free)
    (hj : ¬ s.dev.j.toNat < s.dev.eVal) (ha : s.env.nextDraw = .ok) :
    Steps P 3 s
      (s.after (expandLast s.dev (cipherOf P s.dev (s.dev.y ^^^ blockOf (bytesBE 16 s.dev.j.toNat)))) 1) := by
  refine Steps.call (by simp [Device.busy, hph]) hp (ctlStep_expand hph hp) ?_
  rw [ctlStep_expand_rsp (by exact hph) rfl, ha]
  exact congrArg Except.ok (expandConsume_last _ (by exact hj))

/-- The device after a whole EXPAND phase that leaves the string w after c calls. -/
def expandDone (d : Device) (c : Nat) (w : List Byte) : Device :=
  { d with
    strm := w, j := BitVec.ofNat 16 d.eVal, phase := .reduce, ciphcnt := d.ciphcnt + BitVec.ofNat 32 c, port := .free }

theorem expandDone_expandNext (d : Device) (z : Block) (w : List Byte) (c : Nat) :
    expandDone (expandNext d z) c w = expandDone d (c + 1) w :=
  congrArg (fun x =>
    { d with strm := w, j := BitVec.ofNat 16 d.eVal, phase := .reduce, ciphcnt := x, port := .free })
    (count_succ d.ciphcnt c)

theorem expandChain_zero (E : Block → Block) (y : Block) : expandChain E y 0 = blockBytes y := by rw [expandChain]

/-- The EXPAND phase from block j on, every call answered Ok (R138). -/
theorem steps_expand {P : Params} (c : Nat) {s : State} (hph : s.dev.phase = .expand) (hp : s.dev.port = .free)
    (h1 : 1 ≤ s.dev.j.toNat) (hj : s.dev.j.toNat + c = s.dev.eVal) (hb : s.dev.eVal < 2 ^ 16)
    (hs : s.dev.strm = expandChain (cipherOf P s.dev) s.dev.y (s.dev.j.toNat - 1))
    (ha : s.env.Answers (c + 1)) :
    Steps P (3 * (c + 1)) s
      (s.after (expandDone s.dev (c + 1) (expandChain (cipherOf P s.dev) s.dev.y s.dev.eVal)) (c + 1)) := by
  induction c generalizing s with
  | zero =>
    have h := steps_expand_last (P := P) hph hp (by omega) (Env.nextDraw_of_answers ha)
    have hk : s.dev.j = BitVec.ofNat 16 s.dev.eVal := by rw [← hj]; simp
    have hj' : s.dev.eVal = s.dev.j.toNat - 1 + 1 := by omega
    have e : expandLast s.dev (cipherOf P s.dev (s.dev.y ^^^ blockOf (bytesBE 16 s.dev.j.toNat))) =
        expandDone s.dev 1 (expandChain (cipherOf P s.dev) s.dev.y s.dev.eVal) := by
      rw [hj', expandChain, ← hs, ← hj', ← hj]
      unfold expandLast expandDone
      rw [← hk]
      rfl
    rw [e] at h
    simpa using h
  | succ c ih =>
    have h := steps_expand_block (P := P) hph hp (by omega) (Env.nextDraw_of_answers ha)
    have hk : (s.dev.j + 1).toNat = s.dev.j.toNat + 1 := by
      rw [BitVec.toNat_add]; simp; omega
    have hz : s.dev.strm ++ blockBytes (cipherOf P s.dev (s.dev.y ^^^ blockOf (bytesBE 16 s.dev.j.toNat))) =
        expandChain (cipherOf P s.dev) s.dev.y ((s.dev.j + 1).toNat - 1) := by
      rw [hk, show s.dev.j.toNat + 1 - 1 = (s.dev.j.toNat - 1) + 1 by omega, expandChain,
        show s.dev.j.toNat - 1 + 1 = s.dev.j.toNat by omega, ← hs]
    have g := ih (s := s.after (expandNext s.dev _) 1) hph rfl (by show 1 ≤ (s.dev.j + 1).toNat; omega)
      (by show (s.dev.j + 1).toNat + c = s.dev.eVal; omega) hb hz
      (State.answers_after (by rwa [Nat.add_comm 1]))
    have t := h.trans g
    rw [show 3 + 3 * (c + 1) = 3 * (c + 1 + 1) by omega] at t
    rw [State.after_after, State.after_dev, expandDone_expandNext, Nat.add_comm 1] at t
    exact t

/-! ### The round function (R140, R144, R151) -/

/-- The device after a round function run from MAC's first block: Y, S and F of round i over half H (R151). -/
def roundDone (P : Params) (tw : List Byte) (d : Device) : Device :=
  { d with
    y := macOf (cipherOf P d) tw d.nVal d.rVal d.iVal d.half d.iv
    strm := keyStream (cipherOf P d) d.nVal d.rVal (macOf (cipherOf P d) tw d.nVal d.rVal d.iVal d.half d.iv)
    regF := roundFn (cipherOf P d) tw d.nVal d.rVal d.iVal d.half d.iv
    k := BitVec.ofNat 16 d.qVal, j := if d.eVal = 0 then d.j else BitVec.ofNat 16 d.eVal
    phase := afterReduce d.cmd, ciphcnt := d.ciphcnt + BitVec.ofNat 32 (d.qVal + d.eVal), port := .free }

theorem reduceStep_eq {d : Device} (hr : 0 < d.rVal) :
    reduceStep d = .ok { d with
      strm := d.strm.take (d.dVal + 4)
      regF := str d.rVal d.mVal (num256 (d.strm.take (d.dVal + 4)) % d.rVal ^ d.mVal)
      phase := afterReduce d.cmd } := by
  unfold reduceStep
  simp only [strChecked_of_lt (Nat.mod_lt _ (Nat.pow_pos hr))]

/-- The device after REDUCE over the key stream of chain value z (R151). -/
def reduceDone (E : Block → Block) (z : Block) (d : Device) : Device :=
  { d with
    strm := keyStream E d.nVal d.rVal z
    regF := str d.rVal d.mVal (num256 (keyStream E d.nVal d.rVal z) % d.rVal ^ d.mVal)
    phase := afterReduce d.cmd }

/-- REDUCE after the key stream of chain value z has been put in S. -/
theorem reduceStep_stream {E : Block → Block} {d : Device} {z : Block} (hr : 0 < d.rVal)
    (hs : d.strm = expandChain E z (eOf d.nVal d.rVal)) : reduceStep d = .ok (reduceDone E z d) := by
  rw [reduceStep_eq hr]
  unfold reduceDone keyStream
  rw [← hs]
  rfl

theorem reduceStep_macDone {E : Block → Block} {d : Device} (c : Nat) (z : Block) (hr : 0 < d.rVal)
    (he : d.eVal = 0) : reduceStep (macDone d c z) = .ok (reduceDone E z (macDone d c z)) := by
  apply reduceStep_stream
  · exact hr
  · have h : eOf (macDone d c z).nVal (macDone d c z).rVal = 0 := he
    rw [h, expandChain_zero, macDone_strm]

theorem reduceStep_expandDone {E : Block → Block} {d : Device} (c : Nat) (z : Block) (hr : 0 < d.rVal) :
    reduceStep (expandDone d c (expandChain E z d.eVal)) =
      .ok (reduceDone E z (expandDone d c (expandChain E z d.eVal))) := by
  apply reduceStep_stream
  · exact hr
  · rfl

/-- Without expansion, MAC and REDUCE are the round function. -/
theorem roundDone_of_mac {P : Params} {tw : List Byte} {d : Device} (he : d.eVal = 0) :
    reduceDone (cipherOf P d) (macOf (cipherOf P d) tw d.nVal d.rVal d.iVal d.half d.iv)
      (macDone d (d.qVal + d.eVal) (macOf (cipherOf P d) tw d.nVal d.rVal d.iVal d.half d.iv)) =
    roundDone P tw d := by
  unfold roundDone macDone
  rw [if_pos he, if_pos he, if_pos he]
  rfl

/-- With expansion, MAC, EXPAND and REDUCE are the round function. -/
theorem roundDone_of_expand {P : Params} {tw : List Byte} {d : Device} {w : List Byte} (he : d.eVal ≠ 0) :
    reduceDone (cipherOf P d) (macOf (cipherOf P d) tw d.nVal d.rVal d.iVal d.half d.iv)
      (expandDone (macDone d d.qVal (macOf (cipherOf P d) tw d.nVal d.rVal d.iVal d.half d.iv)) d.eVal w) =
    roundDone P tw d := by
  unfold roundDone macDone expandDone
  rw [if_neg he, if_neg he, if_neg he, ← count_add]
  rfl

/-- MAC, EXPAND and REDUCE of one round, every call answered Ok: F is RF of the round (R144). -/
theorem steps_round_function {P : Params} {s : State} {tw : List Byte} (hph : s.dev.phase = .mac)
    (hp : s.dev.port = .free) (ht : HoldsTweak P s.dev tw) (hf : num s.dev.rVal s.dev.half < 256 ^ s.dev.bVal)
    (hr : 0 < s.dev.rVal) (hk : s.dev.k = 1) (hy : s.dev.y = s.dev.iv) (hq1 : 1 ≤ s.dev.qVal)
    (hqb : s.dev.qVal < 2 ^ 16) (heb : s.dev.eVal < 2 ^ 16) (ha : s.env.Answers (s.dev.qVal + s.dev.eVal)) :
    Steps P (3 * (s.dev.qVal + s.dev.eVal) + 1) s (s.after (roundDone P tw s.dev) (s.dev.qVal + s.dev.eVal)) := by
  have hk1 : s.dev.k.toNat = 1 := by rw [hk]; rfl
  obtain ⟨c, hc⟩ := Nat.exists_eq_add_of_le hq1
  have hm := steps_mac c hph hp ht hf (by omega) (by omega) hqb (iv := s.dev.iv) (by rw [hk1]; exact hy)
    (Env.answers_mono ha (by omega))
  rw [show c + 1 = s.dev.qVal by omega] at hm
  have ez : macChain (cipherOf P s.dev) (qString tw s.dev.nVal s.dev.rVal s.dev.iVal s.dev.half) s.dev.iv s.dev.qVal =
      macOf (cipherOf P s.dev) tw s.dev.nVal s.dev.rVal s.dev.iVal s.dev.half s.dev.iv := by
    unfold macOf
    rw [ht.1]
    rfl
  rw [ez] at hm
  by_cases he : s.dev.eVal = 0
  · have hm' : Steps P (3 * (s.dev.qVal + s.dev.eVal)) s (s.after (macDone s.dev (s.dev.qVal + s.dev.eVal)
        (macOf (cipherOf P s.dev) tw s.dev.nVal s.dev.rVal s.dev.iVal s.dev.half s.dev.iv))
        (s.dev.qVal + s.dev.eVal)) := by
      rw [show s.dev.qVal + s.dev.eVal = s.dev.qVal by omega]
      exact hm
    have hphase (z : Block) (c : Nat) : (macDone s.dev c z).phase = .reduce := if_pos he
    have g := Steps.controller (P := P) (s := s.after (macDone s.dev (s.dev.qVal + s.dev.eVal)
        (macOf (cipherOf P s.dev) tw s.dev.nVal s.dev.rVal s.dev.iVal s.dev.half s.dev.iv)) (s.dev.qVal + s.dev.eVal))
      (by simp [Device.busy, hphase]) rfl ((ctlStep_reduce (hphase _ _) rfl).trans
        (reduceStep_macDone (E := cipherOf P s.dev) _ _ hr he))
    rw [State.after_after, roundDone_of_mac he] at g
    exact hm'.trans g
  · have hphase (z : Block) (c : Nat) : (macDone s.dev c z).phase = .expand := if_neg he
    have hj (z : Block) (c : Nat) : (macDone s.dev c z).j = 1 := if_neg he
    obtain ⟨f, hfe⟩ := Nat.exists_eq_add_of_le (Nat.one_le_iff_ne_zero.mpr he)
    have hx := steps_expand (P := P) (s := s.after (macDone s.dev s.dev.qVal
        (macOf (cipherOf P s.dev) tw s.dev.nVal s.dev.rVal s.dev.iVal s.dev.half s.dev.iv)) s.dev.qVal) f
      (hphase _ _) rfl (by rw [State.after_dev, hj]; decide)
      (by rw [State.after_dev, hj]; show 1 + f = s.dev.eVal; omega) heb
      (by rw [State.after_dev, hj, show BitVec.toNat (1 : BitVec 16) - 1 = 0 from rfl, expandChain_zero, macDone_strm,
        macDone_y])
      (State.answers_after (Env.answers_mono ha (by omega)))
    rw [show f + 1 = s.dev.eVal by omega, State.after_after, State.after_dev] at hx
    have g := Steps.controller (P := P) (s := s.after (expandDone (macDone s.dev s.dev.qVal
        (macOf (cipherOf P s.dev) tw s.dev.nVal s.dev.rVal s.dev.iVal s.dev.half s.dev.iv)) s.dev.eVal
        (expandChain (cipherOf P s.dev)
          (macOf (cipherOf P s.dev) tw s.dev.nVal s.dev.rVal s.dev.iVal s.dev.half s.dev.iv) s.dev.eVal))
        (s.dev.qVal + s.dev.eVal))
      rfl rfl ((ctlStep_reduce rfl rfl).trans (reduceStep_expandDone (d := macDone s.dev _ _) _ _ hr))
    rw [State.after_after, roundDone_of_expand he] at g
    have t := (hm.trans hx).trans g
    rw [show 3 * s.dev.qVal + 3 * s.dev.eVal + 1 = 3 * (s.dev.qVal + s.dev.eVal) + 1 by omega] at t
    exact t

end Sys2Proof.Machine
end

