-- ==== Sys2Proof/Laws/Feistel.lean ====
section
/-! SUPPORT. The rest of a command as the controller runs it (42_feistel_controller R170 to R179): CHECK where nothing
is wrong, LOAD, a command from START to its first round, one encryption and one decryption round, ADD and SUB of MADD
and MSUB, WRITEBACK, and the bounds of the derived quantities. -/
namespace Sys2Proof.Machine

/-! ### Bounds (R131, R136, R138) -/

theorem ceilLog2_le {x k : Nat} (h : x ≤ 2 ^ k) : ceilLog2 x ≤ k := by
  unfold ceilLog2
  split
  · exact Nat.zero_le k
  · have := (Nat.log2_lt (by omega)).mpr (by omega : x - 1 < 2 ^ k)
    omega

/-- A half of v digits of a legal radix has at most 6 v bits. -/
theorem bits_le {v r : Nat} (hr : r ≤ 64) : bits v r ≤ 6 * v :=
  ceilLog2_le ((Nat.pow_le_pow_left hr v).trans (by rw [show (64 : Nat) = 2 ^ 6 from rfl, ← pow_mul]))

theorem bOf_le {n r : Nat} (hr : r ≤ 64) : bOf n r ≤ n + 1 := by
  have := bits_le (v := vOf n) hr
  unfold bOf
  unfold vOf at *
  omega

theorem padOf_lt (n r t : Nat) : padOf n r t < 16 := by
  unfold padOf
  omega

/-- Q is made of at least one block. -/
theorem one_le_qOf (n r t : Nat) : 1 ≤ qOf n r t := by
  unfold qOf padOf
  omega

theorem qOf_lt {n r t : Nat} (hr : r ≤ 64) (hn : n < 2 ^ 16) (ht : t < 2 ^ 16) : qOf n r t < 2 ^ 16 := by
  have := bOf_le (n := n) hr
  have := padOf_lt n r t
  unfold qOf
  omega

theorem eOf_lt {n r : Nat} (hr : r ≤ 64) (hn : n < 2 ^ 16) : eOf n r < 2 ^ 16 := by
  have := bOf_le (n := n) hr
  unfold eOf dOf
  omega

theorem Device.nVal_lt (d : Device) : d.nVal < 2 ^ 16 := d.len.isLt

theorem Device.tVal_lt (d : Device) : d.tVal < 2 ^ 16 := d.tlen.isLt

/-! ### CHECK where nothing is wrong -/

/-- The scan passes exactly over written digits below the radix. -/
theorem scanFrom_none_iff (bf : Buf) (m : Memory) (r a n : Nat) :
    scanFrom bf m r a n = .ok none ↔ ∀ p, a ≤ p → p < a + n → ∃ c, Memory.read m p = some c ∧ c.toNat < r := by
  induction n generalizing a with
  | zero => exact ⟨fun _ p h1 h2 => by omega, fun _ => rfl⟩
  | succ n ih =>
    unfold scanFrom
    cases hr : Memory.read m a with
    | none =>
      simp only [reduceCtorEq, false_iff]
      intro h
      obtain ⟨c, hc, -⟩ := h a (le_refl a) (by omega)
      rw [hr] at hc
      cases hc
    | some c =>
      by_cases hv : c.toNat < r
      · simp only [validDigit, hv, decide_true, if_true, ih]
        constructor
        · intro h p h1 h2
          obtain rfl | h3 := Nat.eq_or_lt_of_le h1
          · exact ⟨c, hr, hv⟩
          · exact h p h3 (by omega)
        · exact fun h p h1 h2 => h p (by omega) (by omega)
      · simp only [validDigit, hv, decide_false, Bool.false_eq_true, if_false, Except.ok.injEq, reduceCtorEq, false_iff]
        intro h
        obtain ⟨c', hc, hl⟩ := h a (le_refl a) (by omega)
        rw [hr, Option.some.injEq] at hc
        exact hv (hc ▸ hl)

/-- The scan finds the first byte that is no digit of the radix. -/
theorem scanFrom_some {bf : Buf} {m : Memory} {r p : Nat} {c : Byte} (a n : Nat) (h1 : a ≤ p) (h2 : p < a + n)
    (hb : ∀ q, a ≤ q → q < p → ∃ c, Memory.read m q = some c ∧ c.toNat < r) (hp : Memory.read m p = some c)
    (hc : r ≤ c.toNat) : scanFrom bf m r a n = .ok (some p) := by
  induction n generalizing a with
  | zero => omega
  | succ n ih =>
    unfold scanFrom
    obtain rfl | h3 := Nat.eq_or_lt_of_le h1
    · simp [hp, validDigit, Nat.not_lt.mpr hc]
    · obtain ⟨c', hr, hl⟩ := hb a (le_refl a) h3
      simp only [hr, validDigit, hl, decide_true, if_true]
      exact ih (a + 1) h3 (by omega) fun q h4 h5 => hb q (by omega) h5

/-- The scan stops at a byte without a value (R50). -/
theorem scanFrom_error {bf : Buf} {m : Memory} {r p : Nat} (a n : Nat) (h1 : a ≤ p) (h2 : p < a + n)
    (hb : ∀ q, a ≤ q → q < p → ∃ c, Memory.read m q = some c ∧ c.toNat < r) (hp : Memory.read m p = none) :
    scanFrom bf m r a n = .error (.unwrittenByte bf p) := by
  induction n generalizing a with
  | zero => omega
  | succ n ih =>
    unfold scanFrom
    obtain rfl | h3 := Nat.eq_or_lt_of_le h1
    · simp [hp]
    · obtain ⟨c', hr, hl⟩ := hb a (le_refl a) h3
      simp only [hr, validDigit, hl, decide_true, if_true]
      exact ih (a + 1) h3 (by omega) fun q h4 h5 => hb q (by omega) h5

theorem scanBuf_none_iff {P : Params} {d : Device} {bf : Buf} {n : Nat} (hn : n ≤ Params.size P bf) :
    scanBuf P d bf n = .ok none ↔ ∀ p, p < n → ∃ c, Memory.read (d.buf bf) p = some c ∧ c.toNat < d.rVal := by
  have h := scanFrom_none_iff bf (d.buf bf) d.rVal 0 n
  simp only [Nat.zero_le, true_implies, Nat.zero_add] at h
  rw [← h]
  unfold scanBuf
  rw [if_pos hn]
  cases scanFrom bf (d.buf bf) d.rVal 0 n with
  | error f => simp
  | ok o => cases o <;> simp

/-- Digits held in a buffer are bytes below the radix there. -/
theorem HoldsDigits.read {P : Params} {d : Device} {b : Buf} {x : List Nat} (h : HoldsDigits P d b x)
    (hr : d.rVal ≤ 256) {p : Nat} (hp : p < x.length) :
    ∃ c, Memory.read (d.buf b) p = some c ∧ c.toNat < d.rVal := by
  obtain ⟨-, hm⟩ := memRead_ok h.1
  rw [Memory.readBytes_ok_iff] at hm
  have hl : p < (digitBytes x).length := by simpa using hp
  have hv := hm.2 p hl
  rw [Nat.zero_add] at hv
  refine ⟨_, hv, ?_⟩
  have hx := h.2 x[p] (List.getElem_mem hp)
  have hm : x[p] % 256 = x[p] := Nat.mod_eq_of_lt (by omega)
  simpa [digitBytes, hm] using hx

theorem HoldsDigits.scan {P : Params} {d : Device} {b : Buf} {x : List Nat} (h : HoldsDigits P d b x)
    (hr : d.rVal ≤ 256) : scanBuf P d b x.length = .ok none :=
  (scanBuf_none_iff (by have := (memRead_ok h.1).1; omega)).mpr fun _ hp => h.read hr hp

/-- A step from CHECK where registers and symbols pass (R172). -/
theorem checkStep_pass {P : Params} {d : Device} (hr : registerError P d = none) (hs : symbolScan P d = .ok none) :
    checkStep P d = .ok (checkPassed d) := by
  unfold checkStep
  rw [hr, hs]

/-! ### ADD and SUB of a round (R176, R177) -/

/-- ADD of an encryption round before the last: the halves of R176, and the next round's MAC. -/
theorem addStep_round {d : Device} (hc : d.cmd = Cmd.enc) (hr : 0 < d.rVal) (hi : d.i.toNat < 9) :
    addStep d = .ok (Device.nextRound (d.i + 1)
      { d with regA := d.regB, regB := radd d.rVal d.regA.length d.regA d.regF }) := by
  unfold addStep
  rw [if_neg (by rw [hc]; decide), if_pos hc]
  unfold addEnc
  rw [raddStep_eq _ _ _ hr]
  exact congrArg Except.ok (if_pos hi)

/-- ADD of the last encryption round. -/
theorem addStep_last {d : Device} (hc : d.cmd = Cmd.enc) (hr : 0 < d.rVal) (hi : ¬ d.i.toNat < 9) :
    addStep d = .ok { d with
      regA := d.regB, regB := radd d.rVal d.regA.length d.regA d.regF, phase := .writeback } := by
  unfold addStep
  rw [if_neg (by rw [hc]; decide), if_pos hc]
  unfold addEnc
  rw [raddStep_eq _ _ _ hr]
  exact congrArg Except.ok (if_neg hi)

/-- SUB of a decryption round before the last. -/
theorem subStep_round {d : Device} (hc : d.cmd = Cmd.dec) (hr : 0 < d.rVal) (hi : 0 < d.i.toNat) :
    subStep d = .ok (Device.nextRound (d.i - 1)
      { d with regB := d.regA, regA := rsub d.rVal d.regB.length d.regB d.regF }) := by
  unfold subStep
  rw [if_neg (by rw [hc]; decide), if_pos hc]
  unfold subDec
  rw [rsubStep_eq _ _ _ hr]
  exact congrArg Except.ok (if_pos hi)

/-- SUB of the last decryption round. -/
theorem subStep_last {d : Device} (hc : d.cmd = Cmd.dec) (hr : 0 < d.rVal) (hi : ¬ 0 < d.i.toNat) :
    subStep d = .ok { d with
      regB := d.regA, regA := rsub d.rVal d.regB.length d.regB d.regF, phase := .writeback } := by
  unfold subStep
  rw [if_neg (by rw [hc]; decide), if_pos hc]
  unfold subDec
  rw [rsubStep_eq _ _ _ hr]
  exact congrArg Except.ok (if_neg hi)

/-- ADD of MADD (R174). -/
theorem addStep_madd {d : Device} (hc : d.cmd = Cmd.madd) (hr : 0 < d.rVal) :
    addStep d = .ok { d with regA := radd d.rVal d.nVal d.regA d.regF, phase := .writeback } := by
  unfold addStep
  rw [if_pos hc]
  unfold addMadd
  rw [raddStep_eq _ _ _ hr]

/-- SUB of MSUB (R175). -/
theorem subStep_msub {d : Device} (hc : d.cmd = Cmd.msub) (hr : 0 < d.rVal) :
    subStep d = .ok { d with regA := rsub d.rVal d.nVal d.regA d.regF, phase := .writeback } := by
  unfold subStep
  rw [if_pos hc]
  unfold subMsub
  rw [rsubStep_eq _ _ _ hr]

/-! ### LOAD (R173) -/

/-- Digits of a buffer, read in part. -/
theorem HoldsDigits.memRead_part {P : Params} {d : Device} {b : Buf} {x : List Nat} (h : HoldsDigits P d b x)
    {a c : Nat} (hac : a + c ≤ x.length) : memRead P d b a c = .ok (digitBytes ((x.drop a).take c)) := by
  have hr := h.1
  rw [← length_digitBytes] at hr
  rw [Sys2Proof.Machine.memRead_part hr (by simpa using hac)]
  simp [digitBytes, List.map_take, List.map_drop]

/-- LOAD of ENC and DEC: the halves of DATA's digits (R173). -/
theorem loadSplit_eq {P : Params} {d : Device} {x : List Nat} (h : HoldsDigits P d .data x) (hr : d.rVal ≤ 256)
    (hn : x.length = d.nVal) : loadSplit P d = .ok { d with
      regA := (splitHalves x).1, regB := (splitHalves x).2, regF := [], phase := .hdr } := by
  have hx : ∀ c ∈ x, c < 256 := fun c hc => by have := h.2 c hc; omega
  have hu : d.uVal + d.vVal = x.length := by rw [hn]; exact uOf_add_vOf d.nVal
  unfold loadSplit
  simp only [h.memRead_part (show 0 + d.uVal ≤ x.length by omega), h.memRead_part (show d.uVal + d.vVal ≤ x.length by omega)]
  have e : uOf x.length = d.uVal := by rw [hn]; rfl
  rw [digitsOf_digitBytes fun c hc => hx c (List.mem_of_mem_drop (List.mem_of_mem_take hc)),
    digitsOf_digitBytes fun c hc => hx c (List.mem_of_mem_drop (List.mem_of_mem_take hc))]
  simp only [splitHalves, e, List.drop_zero]
  rw [List.take_of_length_le (l := x.drop d.uVal) (by simp; omega)]

/-- LOAD of PRF: the input half (R173). -/
theorem loadPrf_eq {P : Params} {d : Device} {x : List Nat} (h : HoldsDigits P d .data x) (hr : d.rVal ≤ 256)
    (hn : x.length = d.wVal) : loadPrf P d = .ok { d with
      i := d.ctrlRound, regB := x, regA := [], regF := [], phase := .hdr } := by
  unfold loadPrf
  have hx : ∀ c ∈ x, c < 256 := fun c hc => by have := h.2 c hc; omega
  rw [← hn, h.1]
  simp only [digitsOf_digitBytes hx]

/-- LOAD of MADD and MSUB: both operands (R173). -/
theorem loadPair_eq {P : Params} {d : Device} {x z : List Nat} (ph : Phase) (hx : HoldsDigits P d .data x)
    (hz : HoldsDigits P d .opb z) (hr : d.rVal ≤ 256) (hn : x.length = d.nVal) (hm : z.length = d.nVal) :
    loadPair P ph d = .ok { d with regA := x, regF := z, regB := [], phase := ph } := by
  have h1 := hx.1
  have h2 := hz.1
  have hx' : ∀ c ∈ x, c < 256 := fun c hc => by have := hx.2 c hc; omega
  have hz' : ∀ c ∈ z, c < 256 := fun c hc => by have := hz.2 c hc; omega
  rw [hn] at h1
  rw [hm] at h2
  unfold loadPair
  simp only [h1, h2, digitsOf_digitBytes hx', digitsOf_digitBytes hz']

/-! ### WRITEBACK (R178) -/

theorem writeResult_eq {P : Params} {b : Buf} {n : Nat} {v : List Nat} {d : Device} (hv : v.length = n)
    (hn : n ≤ Params.size P b) : writeResult P b n v d =
      .ok (d.setBuf b (Memory.writeBytes (d.buf b) 0 (digitBytes v))).complete := by
  unfold writeResult memWrite
  rw [if_pos (by simpa using hv), if_pos (by omega)]

/-! ### One whole round (R180, R181, R186) -/

/-- The controller stands before a round's first MAC block: round i, halves (A, B), IV in place (R187, R193). -/
structure AtRound (i : Nat) (ab : List Nat × List Nat) (iv : Block) (d : Device) : Prop where
  phase : d.phase = .mac
  port : d.port = .free
  first : d.k = 1
  round : d.i.toNat = i
  halfA : d.regA = ab.1
  halfB : d.regB = ab.2
  ivIs : d.iv = iv
  chain : d.y = iv

/-- What a round adds to a command under way: the calls counted, nothing the command's end must not see changed. -/
structure RoundKeeps (calls : Nat) (d e : Device) : Prop extends KeepsHostState d e, KeepsBuffers d e where
  ciphcnt : e.ciphcnt = d.ciphcnt + BitVec.ofNat 32 calls
  done : e.done = d.done
  err : e.err = d.err
  errcode : e.errcode = d.errcode
  errinfo : e.errinfo = d.errinfo

theorem RoundKeeps.refl (d : Device) : RoundKeeps 0 d d :=
  { KeepsHostState.refl d with data := rfl, opb := rfl, ciphcnt := by simp, done := rfl, err := rfl, errcode := rfl,
                               errinfo := rfl }

theorem RoundKeeps.trans {a c : Nat} {d e f : Device} (h : RoundKeeps a d e) (g : RoundKeeps c e f) :
    RoundKeeps (a + c) d f :=
  { h.toKeepsHostState.trans g.toKeepsHostState with
    data := g.data.trans h.data, opb := g.opb.trans h.opb
    ciphcnt := by rw [g.ciphcnt, h.ciphcnt, count_add]
    done := g.done.trans h.done, err := g.err.trans h.err, errcode := g.errcode.trans h.errcode
    errinfo := g.errinfo.trans h.errinfo }

/-- The cipher and the tweak a later round sees are the first round's. -/
theorem RoundKeeps.cipher {c : Nat} {d e : Device} (P : Params) (h : RoundKeeps c d e) : cipherOf P e = cipherOf P d := by
  unfold cipherOf Device.keyBytes
  rw [h.key, h.keylen]

theorem RoundKeeps.holdsTweak {P : Params} {c : Nat} {d e : Device} {tw : List Byte} (h : RoundKeeps c d e)
    (ht : HoldsTweak P d tw) : HoldsTweak P e tw := by
  unfold HoldsTweak memRead Device.tVal Device.buf at *
  rwa [h.tlen, h.tweak]

theorem RoundKeeps.derived {c : Nat} {d e : Device} (h : RoundKeeps c d e) : e.rVal = d.rVal ∧ e.nVal = d.nVal ∧
    e.tVal = d.tVal ∧ e.qVal = d.qVal ∧ e.eVal = d.eVal ∧ e.bVal = d.bVal := by
  unfold Device.qVal Device.eVal Device.bVal Device.rVal Device.nVal Device.tVal
  rw [h.radix, h.len, h.tlen]
  exact ⟨rfl, rfl, rfl, rfl, rfl, rfl⟩

/-- REDUCE's device keeps what a round keeps. -/
theorem roundDone_keeps (P : Params) (tw : List Byte) (d : Device) :
    RoundKeeps (d.qVal + d.eVal) d (roundDone P tw d) :=
  { inten := rfl, radix := rfl, keylen := rfl, len := rfl, tlen := rfl, key := rfl, tweak := rfl, wbusy := rfl,
    ctrlCmd := rfl, ctrlRound := rfl, cmd := rfl, data := rfl, opb := rfl, ciphcnt := rfl, done := rfl, err := rfl,
    errcode := rfl, errinfo := rfl }

/-- The steps of a round but for its last one: REDUCE has put RF in F. -/
theorem steps_to_reduced {P : Params} {s : State} {tw : List Byte} {i : Nat} {ab : List Nat × List Nat} {iv : Block}
    (h : AtRound i ab iv s.dev) (ht : HoldsTweak P s.dev tw) (hf : num s.dev.rVal s.dev.half < 256 ^ s.dev.bVal)
    (hr : 0 < s.dev.rVal) (hr' : s.dev.rVal ≤ 64) (ha : s.env.Answers (s.dev.qVal + s.dev.eVal)) :
    Steps P (3 * (s.dev.qVal + s.dev.eVal) + 1) s (s.after (roundDone P tw s.dev) (s.dev.qVal + s.dev.eVal)) :=
  steps_round_function h.phase h.port ht hf hr h.first (h.chain.trans h.ivIs.symm) (one_le_qOf ..)
    (qOf_lt hr' s.dev.nVal_lt s.dev.tVal_lt) (eOf_lt hr' s.dev.nVal_lt) ha

/-- An encryption round before the last, every call answered Ok (R176, R186). -/
theorem steps_enc_round {P : Params} {s : State} {tw : List Byte} {i : Nat} {ab : List Nat × List Nat} {iv : Block}
    (hc : s.dev.cmd = Cmd.enc) (h : AtRound i ab iv s.dev) (hi : i < 9) (ht : HoldsTweak P s.dev tw)
    (hf : num s.dev.rVal ab.2 < 256 ^ s.dev.bVal) (hr : 0 < s.dev.rVal) (hr' : s.dev.rVal ≤ 64)
    (ha : s.env.Answers (s.dev.qVal + s.dev.eVal)) :
    ∃ e, Steps P (3 * (s.dev.qVal + s.dev.eVal) + 2) s (s.after e (s.dev.qVal + s.dev.eVal)) ∧
      AtRound (i + 1) (encRound (cipherOf P s.dev) tw s.dev.nVal s.dev.rVal iv i ab) iv e ∧
      RoundKeeps (s.dev.qVal + s.dev.eVal) s.dev e := by
  have hh : s.dev.half = ab.2 := by unfold Device.half; rw [hc]; exact h.halfB
  have hs := steps_to_reduced h ht (by rw [hh]; exact hf) hr hr' ha
  have hph : (roundDone P tw s.dev).phase = .add := by
    show afterReduce s.dev.cmd = .add
    rw [hc]
    rfl
  have ha' := addStep_round (d := roundDone P tw s.dev) hc hr
    (by show s.dev.i.toNat < 9; rw [h.round]; exact hi)
  have g := Steps.controller (P := P) (s := s.after (roundDone P tw s.dev) (s.dev.qVal + s.dev.eVal))
    (by simp [Device.busy, hph]) rfl ((ctlStep_add hph rfl).trans ha')
  rw [State.after_after] at g
  refine ⟨_, hs.trans g, ?_, ?_⟩
  · have hF : (roundDone P tw s.dev).regF =
        roundFn (cipherOf P s.dev) tw s.dev.nVal s.dev.rVal i ab.2 iv := by
      show roundFn _ tw _ _ s.dev.iVal s.dev.half s.dev.iv = _
      rw [hh, h.ivIs, show s.dev.iVal = i from h.round]
    refine ⟨rfl, rfl, rfl, ?_, h.halfB, ?_, h.ivIs, h.ivIs⟩
    · show (s.dev.i + 1).toNat = i + 1
      have := h.round
      rw [BitVec.toNat_add]
      simp
      omega
    · show radd s.dev.rVal s.dev.regA.length s.dev.regA (roundDone P tw s.dev).regF = _
      rw [hF, h.halfA]
      rfl
  · exact { roundDone_keeps P tw s.dev with }

/-- The last encryption round: the halves are ready for WRITEBACK. -/
theorem steps_enc_last {P : Params} {s : State} {tw : List Byte} {ab : List Nat × List Nat} {iv : Block}
    (hc : s.dev.cmd = Cmd.enc) (h : AtRound 9 ab iv s.dev) (ht : HoldsTweak P s.dev tw)
    (hf : num s.dev.rVal ab.2 < 256 ^ s.dev.bVal) (hr : 0 < s.dev.rVal) (hr' : s.dev.rVal ≤ 64)
    (ha : s.env.Answers (s.dev.qVal + s.dev.eVal)) :
    ∃ e, Steps P (3 * (s.dev.qVal + s.dev.eVal) + 2) s (s.after e (s.dev.qVal + s.dev.eVal)) ∧
      e.phase = .writeback ∧ e.port = .free ∧ e.i = 9 ∧ e.iv = iv ∧
      (e.regA, e.regB) = encRound (cipherOf P s.dev) tw s.dev.nVal s.dev.rVal iv 9 ab ∧
      e.y = macOf (cipherOf P s.dev) tw s.dev.nVal s.dev.rVal 9 ab.2 iv ∧
      RoundKeeps (s.dev.qVal + s.dev.eVal) s.dev e := by
  have hh : s.dev.half = ab.2 := by unfold Device.half; rw [hc]; exact h.halfB
  have hs := steps_to_reduced h ht (by rw [hh]; exact hf) hr hr' ha
  have hph : (roundDone P tw s.dev).phase = .add := by
    show afterReduce s.dev.cmd = .add
    rw [hc]
    rfl
  have ha' := addStep_last (d := roundDone P tw s.dev) hc hr
    (by show ¬ s.dev.i.toNat < 9; rw [h.round]; omega)
  have g := Steps.controller (P := P) (s := s.after (roundDone P tw s.dev) (s.dev.qVal + s.dev.eVal))
    (by simp [Device.busy, hph]) rfl ((ctlStep_add hph rfl).trans ha')
  rw [State.after_after] at g
  have hi : s.dev.iVal = 9 := h.round
  have hF : (roundDone P tw s.dev).regF = roundFn (cipherOf P s.dev) tw s.dev.nVal s.dev.rVal 9 ab.2 iv := by
    show roundFn _ tw _ _ s.dev.iVal s.dev.half s.dev.iv = _
    rw [hh, h.ivIs, hi]
  refine ⟨_, hs.trans g, rfl, rfl, BitVec.eq_of_toNat_eq h.round, h.ivIs, ?_, ?_, { roundDone_keeps P tw s.dev with }⟩
  · show (s.dev.regB, radd s.dev.rVal s.dev.regA.length s.dev.regA (roundDone P tw s.dev).regF) = _
    rw [hF, h.halfA, h.halfB]
    rfl
  · show macOf _ tw _ _ s.dev.iVal s.dev.half s.dev.iv = _
    rw [hh, h.ivIs, hi]

/-- A decryption round before the last, every call answered Ok (R177, R186). -/
theorem steps_dec_round {P : Params} {s : State} {tw : List Byte} {i : Nat} {ab : List Nat × List Nat} {iv : Block}
    (hc : s.dev.cmd = Cmd.dec) (h : AtRound (i + 1) ab iv s.dev) (ht : HoldsTweak P s.dev tw)
    (hf : num s.dev.rVal ab.1 < 256 ^ s.dev.bVal) (hr : 0 < s.dev.rVal) (hr' : s.dev.rVal ≤ 64)
    (ha : s.env.Answers (s.dev.qVal + s.dev.eVal)) :
    ∃ e, Steps P (3 * (s.dev.qVal + s.dev.eVal) + 2) s (s.after e (s.dev.qVal + s.dev.eVal)) ∧
      AtRound i (decRound (cipherOf P s.dev) tw s.dev.nVal s.dev.rVal iv (i + 1) ab) iv e ∧
      RoundKeeps (s.dev.qVal + s.dev.eVal) s.dev e := by
  have hh : s.dev.half = ab.1 := by unfold Device.half; rw [hc]; exact h.halfA
  have hs := steps_to_reduced h ht (by rw [hh]; exact hf) hr hr' ha
  have hph : (roundDone P tw s.dev).phase = .sub := by
    show afterReduce s.dev.cmd = .sub
    rw [hc]
    rfl
  have ha' := subStep_round (d := roundDone P tw s.dev) hc hr
    (by show 0 < s.dev.i.toNat; rw [h.round]; omega)
  have g := Steps.controller (P := P) (s := s.after (roundDone P tw s.dev) (s.dev.qVal + s.dev.eVal))
    (by simp [Device.busy, hph]) rfl ((ctlStep_sub hph rfl).trans ha')
  rw [State.after_after] at g
  refine ⟨_, hs.trans g, ?_, ?_⟩
  · have hF : (roundDone P tw s.dev).regF =
        roundFn (cipherOf P s.dev) tw s.dev.nVal s.dev.rVal (i + 1) ab.1 iv := by
      show roundFn _ tw _ _ s.dev.iVal s.dev.half s.dev.iv = _
      rw [hh, h.ivIs, show s.dev.iVal = i + 1 from h.round]
    refine ⟨rfl, rfl, rfl, ?_, ?_, h.halfA, h.ivIs, h.ivIs⟩
    · show (s.dev.i - 1).toNat = i
      have h1 := h.round
      have h2 := s.dev.i.isLt
      rw [BitVec.toNat_sub]
      simp
      omega
    · show rsub s.dev.rVal s.dev.regB.length s.dev.regB (roundDone P tw s.dev).regF = _
      rw [hF, h.halfB]
      rfl
  · exact { roundDone_keeps P tw s.dev with }

/-- The last decryption round: the halves are ready for WRITEBACK. -/
theorem steps_dec_last {P : Params} {s : State} {tw : List Byte} {ab : List Nat × List Nat} {iv : Block}
    (hc : s.dev.cmd = Cmd.dec) (h : AtRound 0 ab iv s.dev) (ht : HoldsTweak P s.dev tw)
    (hf : num s.dev.rVal ab.1 < 256 ^ s.dev.bVal) (hr : 0 < s.dev.rVal) (hr' : s.dev.rVal ≤ 64)
    (ha : s.env.Answers (s.dev.qVal + s.dev.eVal)) :
    ∃ e, Steps P (3 * (s.dev.qVal + s.dev.eVal) + 2) s (s.after e (s.dev.qVal + s.dev.eVal)) ∧
      e.phase = .writeback ∧ e.port = .free ∧ e.i = 0 ∧ e.iv = iv ∧
      (e.regA, e.regB) = decRound (cipherOf P s.dev) tw s.dev.nVal s.dev.rVal iv 0 ab ∧
      e.y = macOf (cipherOf P s.dev) tw s.dev.nVal s.dev.rVal 0 ab.1 iv ∧
      RoundKeeps (s.dev.qVal + s.dev.eVal) s.dev e := by
  have hh : s.dev.half = ab.1 := by unfold Device.half; rw [hc]; exact h.halfA
  have hs := steps_to_reduced h ht (by rw [hh]; exact hf) hr hr' ha
  have hph : (roundDone P tw s.dev).phase = .sub := by
    show afterReduce s.dev.cmd = .sub
    rw [hc]
    rfl
  have ha' := subStep_last (d := roundDone P tw s.dev) hc hr
    (by show ¬ 0 < s.dev.i.toNat; rw [h.round]; omega)
  have g := Steps.controller (P := P) (s := s.after (roundDone P tw s.dev) (s.dev.qVal + s.dev.eVal))
    (by simp [Device.busy, hph]) rfl ((ctlStep_sub hph rfl).trans ha')
  rw [State.after_after] at g
  have hi : s.dev.iVal = 0 := h.round
  have hF : (roundDone P tw s.dev).regF = roundFn (cipherOf P s.dev) tw s.dev.nVal s.dev.rVal 0 ab.1 iv := by
    show roundFn _ tw _ _ s.dev.iVal s.dev.half s.dev.iv = _
    rw [hh, h.ivIs, hi]
  refine ⟨_, hs.trans g, rfl, rfl, BitVec.eq_of_toNat_eq h.round, h.ivIs, ?_, ?_, { roundDone_keeps P tw s.dev with }⟩
  · show (rsub s.dev.rVal s.dev.regB.length s.dev.regB (roundDone P tw s.dev).regF, s.dev.regA) = _
    rw [hF, h.halfA, h.halfB]
    rfl
  · show macOf _ tw _ _ s.dev.iVal s.dev.half s.dev.iv = _
    rw [hh, h.ivIs, hi]

/-- The first c ≤ 9 encryption rounds, every call answered Ok. `hf` says that every half's numeral fits its b bytes. -/
theorem steps_enc_rounds {P : Params} {tw : List Byte} {ab : List Nat × List Nat} {iv : Block} (c : Nat) (hc9 : c ≤ 9)
    {s : State} (hc : s.dev.cmd = Cmd.enc) (h : AtRound 0 ab iv s.dev) (ht : HoldsTweak P s.dev tw)
    (hf : ∀ i ≤ 9, num s.dev.rVal (encRounds (cipherOf P s.dev) tw s.dev.nVal s.dev.rVal iv ab i).2 < 256 ^ s.dev.bVal)
    (hr : 0 < s.dev.rVal) (hr' : s.dev.rVal ≤ 64) (ha : s.env.Answers (c * (s.dev.qVal + s.dev.eVal))) :
    ∃ e, Steps P (c * (3 * (s.dev.qVal + s.dev.eVal) + 2)) s (s.after e (c * (s.dev.qVal + s.dev.eVal))) ∧
      AtRound c (encRounds (cipherOf P s.dev) tw s.dev.nVal s.dev.rVal iv ab c) iv e ∧
      RoundKeeps (c * (s.dev.qVal + s.dev.eVal)) s.dev e := by
  induction c with
  | zero =>
    refine ⟨s.dev, ?_, h, ?_⟩
    · simp only [Nat.zero_mul, State.after, List.drop_zero]
      exact .refl s
    · simpa using RoundKeeps.refl s.dev
  | succ c ih =>
    obtain ⟨e, h1, h2, h3⟩ := ih (by omega) (Env.answers_mono ha (Nat.mul_le_mul_right _ (by omega)))
    obtain ⟨dr, dn, dt, dq, de, db⟩ := h3.derived
    have hcy := h3.cipher P
    have hfc := hf c (by omega)
    obtain ⟨f, g1, g2, g3⟩ := steps_enc_round (P := P) (s := s.after e (c * (s.dev.qVal + s.dev.eVal))) (tw := tw)
      (h3.cmd.trans hc) h2 (by omega) (h3.holdsTweak ht) (by rw [State.after_dev, dr, db]; exact hfc)
      (by rw [State.after_dev, dr]; exact hr) (by rw [State.after_dev, dr]; exact hr')
      (State.answers_after (by rw [State.after_dev, dq, de, ← Nat.succ_mul]; exact ha))
    rw [State.after_dev, State.after_after, dq, de, ← Nat.succ_mul] at g1
    rw [State.after_dev, dq, de] at g3
    rw [State.after_dev, hcy, dn, dr] at g2
    refine ⟨f, ?_, g2, ?_⟩
    · rw [Nat.succ_mul]; exact h1.trans g1
    · rw [Nat.succ_mul]; exact h3.trans g3

/-- The first c ≤ 9 decryption rounds, every call answered Ok. `hf` says that every half's numeral fits its b bytes. -/
theorem steps_dec_rounds {P : Params} {tw : List Byte} {ab : List Nat × List Nat} {iv : Block} (c : Nat) (hc9 : c ≤ 9)
    {s : State} (hc : s.dev.cmd = Cmd.dec) (h : AtRound 9 ab iv s.dev) (ht : HoldsTweak P s.dev tw)
    (hf : ∀ i ≤ 9, num s.dev.rVal (decRounds (cipherOf P s.dev) tw s.dev.nVal s.dev.rVal iv ab i).1 < 256 ^ s.dev.bVal)
    (hr : 0 < s.dev.rVal) (hr' : s.dev.rVal ≤ 64) (ha : s.env.Answers (c * (s.dev.qVal + s.dev.eVal))) :
    ∃ e, Steps P (c * (3 * (s.dev.qVal + s.dev.eVal) + 2)) s (s.after e (c * (s.dev.qVal + s.dev.eVal))) ∧
      AtRound (9 - c) (decRounds (cipherOf P s.dev) tw s.dev.nVal s.dev.rVal iv ab c) iv e ∧
      RoundKeeps (c * (s.dev.qVal + s.dev.eVal)) s.dev e := by
  induction c with
  | zero =>
    refine ⟨s.dev, ?_, h, ?_⟩
    · simp only [Nat.zero_mul, State.after, List.drop_zero]
      exact .refl s
    · simpa using RoundKeeps.refl s.dev
  | succ c ih =>
    obtain ⟨e, h1, h2, h3⟩ := ih (by omega) (Env.answers_mono ha (Nat.mul_le_mul_right _ (by omega)))
    obtain ⟨dr, dn, dt, dq, de, db⟩ := h3.derived
    have hcy := h3.cipher P
    have hfc := hf c (by omega)
    obtain ⟨m, hm⟩ : ∃ m, 9 - c = m + 1 := ⟨9 - (c + 1), by omega⟩
    rw [hm] at h2
    obtain ⟨f, g1, g2, g3⟩ := steps_dec_round (P := P) (s := s.after e (c * (s.dev.qVal + s.dev.eVal))) (tw := tw)
      (h3.cmd.trans hc) h2 (h3.holdsTweak ht) (by rw [State.after_dev, dr, db]; exact hfc)
      (by rw [State.after_dev, dr]; exact hr) (by rw [State.after_dev, dr]; exact hr')
      (State.answers_after (by rw [State.after_dev, dq, de, ← Nat.succ_mul]; exact ha))
    rw [State.after_dev, State.after_after, dq, de, ← Nat.succ_mul] at g1
    rw [State.after_dev, dq, de] at g3
    rw [State.after_dev, hcy, dn, dr] at g2
    rw [← hm, show m = 9 - (c + 1) by omega] at g2
    refine ⟨f, ?_, g2, ?_⟩
    · rw [Nat.succ_mul]; exact h1.trans g1
    · rw [Nat.succ_mul]; exact h3.trans g3

/-! ### From START to the first round, and to the end (R170 to R173, R178, R180 to R182) -/

/-- The registers of a ready cipher command other than PRF raise nothing (R221). -/
theorem registerError_cipher {P : Params} {d : Device} {c : BitVec 4} (rd : BitVec 4) (h : CipherReady P d)
    (hc : c = Cmd.enc ∨ c = Cmd.dec ∨ c = Cmd.ivgen) : registerError P (d.start c rd) = none := by
  obtain ⟨⟨-, ⟨h2, h62⟩, hn⟩, hk, ht⟩ := h
  unfold registerError
  have e1 : isCommand (d.start c rd).cmd = true := by
    show isCommand c = true
    rcases hc with rfl | rfl | rfl <;> decide
  have e2 : ¬ (usesCipher (d.start c rd).cmd ∧ (d.start c rd).keylen ≠ 16 ∧ (d.start c rd).keylen ≠ 24 ∧
      (d.start c rd).keylen ≠ 32) := by
    rintro ⟨-, a, b, e⟩
    exact hk.elim a fun hk => hk.elim b e
  have e3 : ¬ ((d.start c rd).rVal < 2 ∨ 62 < (d.start c rd).rVal) := by
    show ¬ (d.rVal < 2 ∨ 62 < d.rVal)
    omega
  have e4 : ¬ P.nMax < (d.start c rd).nVal := Nat.not_lt.mpr hn
  have e5 : ¬ (usesCipher (d.start c rd).cmd ∧ P.tweakMax < (d.start c rd).tVal) := fun h => absurd h.2 (Nat.not_lt.mpr ht)
  have e6 : (d.start c rd).cmd ≠ Cmd.prf := by
    show c ≠ Cmd.prf
    rcases hc with rfl | rfl | rfl <;> decide
  rw [if_neg (by rw [e1]; decide), if_neg e2, if_neg e3, if_neg e4, if_neg e5, if_neg (fun h => e6 h.1),
    if_neg (fun h => e6 h.1)]

/-- The registers of a ready PRF raise nothing (R221). -/
theorem registerError_prf {P : Params} {d : Device} {rd : BitVec 4} (h : CipherReady P d) (hn1 : 1 ≤ d.nVal)
    (hi : rd.toNat ≤ 9) : registerError P (d.start Cmd.prf rd) = none := by
  obtain ⟨⟨-, ⟨h2, h62⟩, hn⟩, hk, ht⟩ := h
  unfold registerError
  have e2 : ¬ (usesCipher (d.start Cmd.prf rd).cmd ∧ (d.start Cmd.prf rd).keylen ≠ 16 ∧
      (d.start Cmd.prf rd).keylen ≠ 24 ∧ (d.start Cmd.prf rd).keylen ≠ 32) := by
    rintro ⟨-, a, b, e⟩
    exact hk.elim a fun hk => hk.elim b e
  have e3 : ¬ ((d.start Cmd.prf rd).rVal < 2 ∨ 62 < (d.start Cmd.prf rd).rVal) := by
    show ¬ (d.rVal < 2 ∨ 62 < d.rVal)
    omega
  have e4 : ¬ P.nMax < (d.start Cmd.prf rd).nVal := Nat.not_lt.mpr hn
  have e5 : ¬ (usesCipher (d.start Cmd.prf rd).cmd ∧ P.tweakMax < (d.start Cmd.prf rd).tVal) :=
    fun h => absurd h.2 (Nat.not_lt.mpr ht)
  have e6 : ¬ ((d.start Cmd.prf rd).cmd = Cmd.prf ∧ (d.start Cmd.prf rd).nVal = 0) := by
    rintro ⟨-, h⟩
    have : d.nVal = 0 := h
    omega
  have e7 : ¬ ((d.start Cmd.prf rd).cmd = Cmd.prf ∧ 9 < (d.start Cmd.prf rd).ctrlRound.toNat) :=
    fun h => absurd h.2 (Nat.not_lt.mpr hi)
  rw [if_neg (by show ¬ (!isCommand Cmd.prf) = true; decide), if_neg e2, if_neg e3, if_neg e4, if_neg e5, if_neg e6,
    if_neg e7]

/-- CHECK that passes into LOAD, LOAD that ends in HDR of a round command, and HDR answered Ok: five steps. -/
theorem steps_prefix {P : Params} {s : State} {e : Device} (hph : s.dev.phase = .check) (hp : s.dev.port = .free)
    (hr : registerError P s.dev = none) (hs : symbolScan P s.dev = .ok none)
    (hn : s.dev.nVal ≠ 0) (hiv : s.dev.cmd ≠ Cmd.ivgen)
    (hl : loadStep P { s.dev with phase := .load } = .ok e) (he : e.phase = .hdr) (hep : e.port = .free)
    (ha : s.env.Answers 1) :
    Steps P 5 s (s.after (hdrDone e (ivOf (cipherOf P e) e.nVal e.rVal e.tVal)) 1) := by
  have hpass : checkPassed s.dev = { s.dev with phase := .load } := by
    unfold checkPassed
    rw [if_neg (fun h => hn h.1)]
    exact if_neg hiv
  have c1 := Steps.controller (P := P) (s := s) (by simp [Device.busy, hph]) hp
    ((ctlStep_check hph hp).trans ((checkStep_pass hr hs).trans (congrArg _ hpass)))
  have c2 := Steps.controller (P := P) (s := s.after { s.dev with phase := .load } 0) rfl (by exact hp)
    ((ctlStep_load rfl (by exact hp)).trans hl)
  rw [State.after_after] at c2
  have hc : e.cmd ≠ Cmd.ivgen := by
    have := (loadStep_keeps hl).1.cmd
    rw [this]
    exact hiv
  have c3 := steps_hdr (P := P) (s := s.after e (0 + 0)) he hep hc
    (Env.nextDraw_of_answers (c := 0) (State.answers_after (by simpa using ha)))
  rw [State.after_after] at c3
  exact (c1.trans c2).trans c3

/-- An ENC or DEC that is ready passes CHECK's scan. -/
theorem symbolScan_feistel {P : Params} {d : Device} {x : List Nat} (hc : d.cmd = Cmd.enc ∨ d.cmd = Cmd.dec)
    (hd : HoldsDigits P d .data x) (hr : d.rVal ≤ 256) (hn : x.length = d.nVal) : symbolScan P d = .ok none := by
  unfold symbolScan
  rw [if_pos hc, ← hn]
  exact hd.scan hr

/-- A PRF that is ready passes CHECK's scan. -/
theorem symbolScan_prf {P : Params} {d : Device} {x : List Nat} (hc : d.cmd = Cmd.prf)
    (hd : HoldsDigits P d .data x) (hr : d.rVal ≤ 256) (hn : x.length = d.wVal) : symbolScan P d = .ok none := by
  unfold symbolScan
  rw [if_neg (by rw [hc]; decide), if_neg (by rw [hc]; decide), if_pos hc, ← hn]
  exact hd.scan hr

/-- An accepted and ready ENC reaches round 0 over the halves of DATA (R173, R180). -/
theorem steps_start_enc {P : Params} {s : State} {x : List Nat} (rd : BitVec 4) (h : CipherReady P s.dev)
    (h1 : 1 ≤ s.dev.nVal) (hn : x.length = s.dev.nVal) (hd : HoldsDigits P s.dev .data x) (ha : s.env.Answers 1) :
    ∃ e, Steps P 5 (s.after (s.dev.start Cmd.enc rd) 0) (s.after e 1) ∧
      AtRound 0 (splitHalves x) (ivOf (cipherOf P s.dev) s.dev.nVal s.dev.rVal s.dev.tVal) e ∧
      RoundKeeps 1 (s.dev.start Cmd.enc rd) e := by
  have hr : s.dev.rVal ≤ 256 := by have := h.radix.2; omega
  have hl : loadStep P { s.dev.start Cmd.enc rd with phase := .load } = .ok
      { s.dev.start Cmd.enc rd with
        i := 0, regA := (splitHalves x).1, regB := (splitHalves x).2, regF := [], phase := .hdr } := by
    unfold loadStep loadEnc
    exact (if_pos rfl).trans
      (loadSplit_eq (P := P) (d := { s.dev.start Cmd.enc rd with phase := .load, i := 0 }) hd hr hn)
  have g := steps_prefix (P := P) (s := s.after (s.dev.start Cmd.enc rd) 0) rfl h.idle.2
    (registerError_cipher rd h (.inl rfl)) (symbolScan_feistel (.inl rfl) hd hr hn)
    (Nat.one_le_iff_ne_zero.mp h1) (by show Cmd.enc ≠ Cmd.ivgen; decide) hl rfl h.idle.2
    (State.answers_after (by simpa using ha))
  rw [State.after_after] at g
  refine ⟨_, g, ⟨rfl, rfl, rfl, rfl, rfl, rfl, rfl, rfl⟩, ?_⟩
  exact { inten := rfl, radix := rfl, keylen := rfl, len := rfl, tlen := rfl, key := rfl, tweak := rfl, wbusy := rfl,
          ctrlCmd := rfl, ctrlRound := rfl, cmd := rfl, data := rfl, opb := rfl, ciphcnt := rfl, done := rfl,
          err := rfl, errcode := rfl, errinfo := rfl }

/-- An accepted and ready DEC reaches round 9 over the halves of DATA (R173, R181). -/
theorem steps_start_dec {P : Params} {s : State} {x : List Nat} (rd : BitVec 4) (h : CipherReady P s.dev)
    (h1 : 1 ≤ s.dev.nVal) (hn : x.length = s.dev.nVal) (hd : HoldsDigits P s.dev .data x) (ha : s.env.Answers 1) :
    ∃ e, Steps P 5 (s.after (s.dev.start Cmd.dec rd) 0) (s.after e 1) ∧
      AtRound 9 (splitHalves x) (ivOf (cipherOf P s.dev) s.dev.nVal s.dev.rVal s.dev.tVal) e ∧
      RoundKeeps 1 (s.dev.start Cmd.dec rd) e := by
  have hr : s.dev.rVal ≤ 256 := by have := h.radix.2; omega
  have hl : loadStep P { s.dev.start Cmd.dec rd with phase := .load } = .ok
      { s.dev.start Cmd.dec rd with
        i := 9, regA := (splitHalves x).1, regB := (splitHalves x).2, regF := [], phase := .hdr } := by
    unfold loadStep loadDec
    exact ((if_neg (by show ¬ Cmd.dec = Cmd.enc; decide)).trans (if_pos rfl)).trans
      (loadSplit_eq (P := P) (d := { s.dev.start Cmd.dec rd with phase := .load, i := 9 }) hd hr hn)
  have g := steps_prefix (P := P) (s := s.after (s.dev.start Cmd.dec rd) 0) rfl h.idle.2
    (registerError_cipher rd h (.inr (.inl rfl))) (symbolScan_feistel (.inr rfl) hd hr hn)
    (Nat.one_le_iff_ne_zero.mp h1) (by show Cmd.dec ≠ Cmd.ivgen; decide) hl rfl h.idle.2
    (State.answers_after (by simpa using ha))
  rw [State.after_after] at g
  refine ⟨_, g, ⟨rfl, rfl, rfl, rfl, rfl, rfl, rfl, rfl⟩, ?_⟩
  exact { inten := rfl, radix := rfl, keylen := rfl, len := rfl, tlen := rfl, key := rfl, tweak := rfl, wbusy := rfl,
          ctrlCmd := rfl, ctrlRound := rfl, cmd := rfl, data := rfl, opb := rfl, ciphcnt := rfl, done := rfl,
          err := rfl, errcode := rfl, errinfo := rfl }

/-- An accepted and ready PRF reaches its round over the input half in DATA (R173, R182). -/
theorem steps_start_prf {P : Params} {s : State} {x : List Nat} {rd : BitVec 4} (h : CipherReady P s.dev)
    (h1 : 1 ≤ s.dev.nVal) (hi : rd.toNat ≤ 9) (hn : x.length = wOf s.dev.nVal rd.toNat)
    (hd : HoldsDigits P s.dev .data x) (ha : s.env.Answers 1) :
    ∃ e, Steps P 5 (s.after (s.dev.start Cmd.prf rd) 0) (s.after e 1) ∧
      AtRound rd.toNat ([], x) (ivOf (cipherOf P s.dev) s.dev.nVal s.dev.rVal s.dev.tVal) e ∧
      RoundKeeps 1 (s.dev.start Cmd.prf rd) e := by
  have hr : s.dev.rVal ≤ 256 := by have := h.radix.2; omega
  have hl : loadStep P { s.dev.start Cmd.prf rd with phase := .load } = .ok
      { s.dev.start Cmd.prf rd with i := rd, regB := x, regA := [], regF := [], phase := .hdr } := by
    unfold loadStep
    exact ((if_neg (by show ¬ Cmd.prf = Cmd.enc; decide)).trans ((if_neg (by show ¬ Cmd.prf = Cmd.dec; decide)).trans
      (if_pos rfl))).trans (loadPrf_eq (P := P) (d := { s.dev.start Cmd.prf rd with phase := .load }) hd hr hn)
  have g := steps_prefix (P := P) (s := s.after (s.dev.start Cmd.prf rd) 0) rfl h.idle.2
    (registerError_prf h h1 hi) (symbolScan_prf rfl hd hr hn)
    (Nat.one_le_iff_ne_zero.mp h1) (by show Cmd.prf ≠ Cmd.ivgen; decide) hl rfl h.idle.2
    (State.answers_after (by simpa using ha))
  rw [State.after_after] at g
  refine ⟨_, g, ⟨rfl, rfl, rfl, rfl, rfl, rfl, rfl, rfl⟩, ?_⟩
  exact { inten := rfl, radix := rfl, keylen := rfl, len := rfl, tlen := rfl, key := rfl, tweak := rfl, wbusy := rfl,
          ctrlCmd := rfl, ctrlRound := rfl, cmd := rfl, data := rfl, opb := rfl, ciphcnt := rfl, done := rfl,
          err := rfl, errcode := rfl, errinfo := rfl }

end Sys2Proof.Machine
end

