-- ==== Sys2Proof/Laws/PerInstr.lean ====
section
/-! SUPPORT. Per-instruction statements about encoding, one lemma per constructor of `Instr`. -/
namespace Sys2Proof.Laws.EncodeFields

/-- An encoded command has START = 1, its CMD and ROUND in their fields, and the reserved bits zero (30_encoding R80,
R81). -/
def Statement (i : Instr) : Prop :=
  cwStart (encode i) = true ∧ cwCmd (encode i) = i.cmd ∧ cwRound (encode i) = i.round ∧
    encode i &&& 0xFFFFF00E#32 = 0#32

/-- The fields of a CW word put together from CMD and ROUND. -/
theorem fields (c rd : BitVec 4) :
    let x : Word := ((rd.setWidth 32) <<< 8) ||| ((c.setWidth 32) <<< 4) ||| 1#32
    cwStart x = true ∧ cwCmd x = c ∧ cwRound x = rd ∧ x &&& 0xFFFFF00E#32 = 0#32 := by
  revert c rd
  decide

theorem enc (round : BitVec 4) : Statement (.enc round) := fields ..
theorem dec (round : BitVec 4) : Statement (.dec round) := fields ..
theorem prf (round : BitVec 4) : Statement (.prf round) := fields ..
theorem madd (round : BitVec 4) : Statement (.madd round) := fields ..
theorem msub (round : BitVec 4) : Statement (.msub round) := fields ..
theorem ivgen (round : BitVec 4) : Statement (.ivgen round) := fields ..
theorem illegal (cmd round : BitVec 4) : Statement (.illegal cmd round) := fields ..

end Sys2Proof.Laws.EncodeFields
end

