-- ==== Sys2Proof/Tests/Slice0.lean ====
section
/-! SUPPORT. The model's own tests. Expected values come from spec/95_test_vectors.md (its sections are named at each
test) or are written out from the encodings of 30_encoding. `Ciph` is an uninterpreted function in the model (R9); for
the vectors an AES written here stands in its place, as 95_test_vectors says they were computed. The second part gives,
for every statement with hypotheses, states and operands that meet them together. -/
namespace Sys2Proof.Tests
open Sys2Proof Sys2Proof.Machine

-- One theorem at a time: the vectors below are kernel evaluations, and many at once ask for too many threads.
set_option Elab.async false

/-! ### AES, for the vectors only -/

/-- The AES S-box, byte x at bits [8x+7 : 8x]. -/
def sboxTable : Nat :=
    0x16bb54b00f2d99416842e6bf0d89a18cdf2855cee9871e9b948ed9691198f8e1 * 2 ^ 1792
    + 0x9e1dc186b95735610ef6034866b53e708a8bbd4b1f74dde8c6b4a61c2e2578ba * 2 ^ 1536
    + 0x8ae7a65eaf4566ca94ed58d6d37c8e779e4959162acd3c25c2406490a3a32e0 * 2 ^ 1280
    + 0xdb0b5ede14b8ee4688902a22dc4f816073195d643d7ea7c41744975fec130ccd * 2 ^ 1024
    + 0xd2f3ff1021dab6bcf5389d928f40a351a89f3c507f02f94585334d43fbaaefd0 * 2 ^ 768
    + 0xcf584c4a39becb6a5bb1fc20ed00d153842fe329b3d63b52a05a6e1b1a2c8309 * 2 ^ 512
    + 0x75b227ebe28012079a059618c323c7041531d871f1e5a534ccf73f362693fdb7 * 2 ^ 256
    + 0xc072a49cafa2d4adf04759fa7dc982ca76abd7fe2b670130c56f6bf27b777c63 * 2 ^ 0
/-- SubBytes on one byte. -/
def sub (x : Nat) : Nat := (sboxTable >>> (8 * x)) % 256
/-- Times x in GF(2^8). -/
def xtime (x : Nat) : Nat := if x < 128 then 2 * x else (2 * x) % 256 ^^^ 0x1b
def xors (a b : List Nat) : List Nat := List.zipWith (· ^^^ ·) a b
/-- Key schedule, words newest first. -/
def expandKey (nk : Nat) : Nat → Nat → Nat → List (List Nat) → List (List Nat)
  | 0, _, _, ws => ws
  | f + 1, i, rc, ws =>
    let prev := ws.headD []
    let back := ws.getD (nk - 1) []
    if i % nk = 0 then
      let rot := (prev.drop 1 ++ prev.take 1).map sub
      expandKey nk f (i + 1) (xtime rc) (xors back (xors rot [rc, 0, 0, 0]) :: ws)
    else if nk > 6 ∧ i % nk = 4 then
      expandKey nk f (i + 1) rc (xors back (prev.map sub) :: ws)
    else expandKey nk f (i + 1) rc (xors back prev :: ws)
def toWords : Nat → List Nat → List (List Nat)
  | 0, _ => []
  | n + 1, l => l.take 4 :: toWords n (l.drop 4)
def roundKeys (key : List Nat) : List (List Nat) :=
  let nk := key.length / 4
  (expandKey nk (4 * (nk + 7) - nk) nk 1 (toWords nk key).reverse).reverse
def mixCol (c : List Nat) : List Nat :=
  match c with
  | [a, b, d, e] =>
    [xtime a ^^^ (xtime b ^^^ b) ^^^ d ^^^ e, a ^^^ xtime b ^^^ (xtime d ^^^ d) ^^^ e,
      a ^^^ b ^^^ xtime d ^^^ (xtime e ^^^ e), (xtime a ^^^ a) ^^^ b ^^^ d ^^^ xtime e]
  | _ => []
def shiftRows (s : List Nat) : List Nat :=
  [0, 5, 10, 15, 4, 9, 14, 3, 8, 13, 2, 7, 12, 1, 6, 11].map fun i => s.getD i 0
def mixAll : Nat → List Nat → List Nat
  | 0, _ => []
  | n + 1, l => mixCol (l.take 4) ++ mixAll n (l.drop 4)
def rounds : Nat → List (List Nat) → List Nat → List Nat
  | 0, ks, s => xors (shiftRows (s.map sub)) (ks.take 4).flatten
  | n + 1, ks, s => rounds n (ks.drop 4) (xors (mixAll 4 (shiftRows (s.map sub))) (ks.take 4).flatten)
/-- AES forward encryption of one block (FIPS 197), for keys of 16, 24 or 32 bytes. -/
def aes (key : List Byte) (x : Block) : Block :=
  let ks := roundKeys (key.map BitVec.toNat)
  let s := xors ((blockBytes x).map BitVec.toNat) (ks.take 4).flatten
  blockOf ((rounds (key.length / 4 + 5) (ks.drop 4) s).map (BitVec.ofNat 8))

/-! ### Helpers -/

/-- The machine of R8's defaults with AES as its cipher. -/
def aesParams : Params := { Config.params with ciph := aes }

/-- A buffer whose first bytes are given. -/
def filled (s : List Nat) : Memory := Memory.writeBytes [] 0 (digitBytes s)

/-- An idle device with key, radix, tweak and the DATA and OPB digits of one command; LEN is DATA's length. -/
def device (key : List Byte) (r : Nat) (tw x z : List Nat) : Device :=
  { Device.reset with
    key := Vector.ofFn fun p => byteOrZero key p.val
    keylen := BitVec.ofNat 6 key.length
    radix := BitVec.ofNat 8 r
    len := BitVec.ofNat 16 x.length
    tlen := BitVec.ofNat 16 tw.length
    tweak := filled tw
    data := filled x
    opb := filled z }

/-- A device among agents with nothing to do. -/
def alone (d : Device) : State := { dev := d, env := Env.reset }

/-- What a Boolean check finds in the next state of an outcome; false for a stop. -/
def nextIs (o : Host.Outcome State Fault Refusal) (p : State → Bool) : Bool :=
  match o with
  | .next s => p s
  | .fault _ => false
  | .refused _ => false

def faultIs (o : Host.Outcome State Fault Refusal) (f : Fault) : Bool :=
  match o with
  | .next _ => false
  | .fault g => g == f
  | .refused _ => false

/-- The first n bytes of a buffer, as numbers; none where one has no value. -/
def bytesAre (m : Memory) (x : List Nat) : Bool :=
  (List.range x.length).all fun p => (Memory.read m p).map BitVec.toNat == some (x.getD p 0)

/-- K16, K24 and K32 of 95_test_vectors. -/
def k16 : List Byte := bytesBE 16 0x2b7e151628aed2a6abf7158809cf4f3c
def k24 : List Byte := (List.range 24).map (BitVec.ofNat 8)
def k32 : List Byte := (List.range 32).map (BitVec.ofNat 8)

/-! ### Well-formedness (R81, R86) -/

/-- The one check: `illegal` with the CMD of a command is refused, for each of the six. -/
theorem test_illegal_with_a_command_code_is_ill_formed :
    ([1, 2, 3, 4, 5, 6].all fun c => !(Instr.illegal c 0).wf) = true := by decide

theorem test_illegal_is_well_formed_elsewhere :
    ([0, 7, 8, 15].all fun c => (Instr.illegal c 15).wf) = true ∧ (Instr.prf 15).wf = true := by decide

/-! ### Decoding: words written out from R80 and R81, most significant bit first -/

theorem test_decode_enc : decode 0b0000_0000_0000_0000_0000_0000_0001_0001 = .ok (.enc 0) := rfl
theorem test_decode_dec : decode 0b0000_0000_0000_0000_0000_0000_0010_0001 = .ok (.dec 0) := rfl
theorem test_decode_prf : decode 0b0000_0000_0000_0000_0000_1001_0011_0001 = .ok (.prf 9) := rfl
theorem test_decode_madd : decode 0b0000_0000_0000_0000_0000_0000_0100_0001 = .ok (.madd 0) := rfl
theorem test_decode_msub : decode 0b0000_0000_0000_0000_0000_0000_0101_0001 = .ok (.msub 0) := rfl
theorem test_decode_ivgen : decode 0b0000_0000_0000_0000_0000_0000_0110_0001 = .ok (.ivgen 0) := rfl
theorem test_decode_illegal : decode 0b0000_0000_0000_0000_0000_0000_0111_0001 = .ok (.illegal 7 0) := rfl
/-- Reserved bits are ignored (R80). -/
theorem test_decode_reserved_bits : decode 0b1111_1111_1111_1111_1111_1010_0010_1111 = .ok (.dec 10) := rfl
theorem test_decode_no_start : decode 0b0000_0000_0000_0000_0000_0000_0001_0000 = .error .noStart := rfl
theorem test_encode_prf : encode (.prf 9) = 0x00000931 := by decide
theorem test_decode_table_word : decodeTableWord 32 0x11 = some (.enc 0) ∧ decodeTableWord 32 0x10 = none := by decide

/-! ### Radix arithmetic (95_test_vectors 3.1) -/

theorem test_num_str : num 10 [5, 6, 7, 8, 9] = 56789 ∧ num 62 [61, 61] = 3843 ∧ str 10 5 1234 = [0, 1, 2, 3, 4] ∧
    str 16 4 65534 = [15, 15, 15, 14] ∧ bytesBE 3 56789 = [0x00, 0xdd, 0xd5] := by decide

theorem test_fixed_length_bytes : fixedLengthBytes [0xdd, 0xd5] 3 0 = [0x00, 0xdd, 0xd5] ∧
    fixedLengthBytes [1, 2, 3] 2 0 = [2, 3] := by decide

theorem test_radd_rsub : radd 10 3 [9, 9, 9] [0, 0, 1] = [0, 0, 0] ∧ rsub 10 3 [0, 0, 0] [0, 0, 1] = [9, 9, 9] ∧
    rsub 62 2 [0, 0] [61, 61] = [0, 1] := by decide

/-- The digit-serial forms of R110 on the rows of 95_test_vectors 3.1. -/
theorem test_serial_arithmetic : raddSerial 10 [9, 9, 9] [0, 0, 1] = [0, 0, 0] ∧
    rsubSerial 10 [1, 2, 3] [4, 5, 6] = [6, 6, 7] := by decide

/-- STR of a number that does not fit is the fault of R226, never a value. -/
theorem test_str_overflow_faults : strChecked 10 3 1000 = .error .overflow := rfl

/-! ### Derived quantities (95_test_vectors 3.2) -/

/-- The rows (100, 62, 20) and (8, 2, 15). -/
theorem test_derived_quantities :
    (bOf 100 62, dOf 100 62, padOf 100 62 20, qOf 100 62 20, eOf 100 62) = (38, 40, 5, 4, 2) ∧
    (bOf 8 2, dOf 8 2, padOf 8 2 15, qOf 8 2 15, eOf 8 2) = (1, 4, 15, 2, 0) ∧
    (feistelCalls 100 62 20, prfCalls 8 2 15) = (61, 3) := by decide +kernel

theorem test_header : header 16 49 0 = 0x0102010000100a180000003100000000 := by decide +kernel

/-! ### The commands (95_test_vectors 1.1, 3.2 to 3.6), each as one move -/

/-- FIPS 197 appendix C.1, so that the stand-in is AES. -/
theorem test_aes : aes (bytesBE 16 0x000102030405060708090a0b0c0d0e0f) 0x00112233445566778899aabbccddeeff =
    0x69c4e0d86a7b0430d8cdb78070b4c55a := by decide +kernel

/-- V1, tweak "9876543210": output, STATUS, CIPHCNT, IVR. -/
theorem test_enc_v1 :
    nextIs (runCommand aesParams Cmd.enc 0 (alone (device k16 10 [0x39, 0x38, 0x37, 0x36, 0x35, 0x34, 0x33, 0x32, 0x31,
      0x30] [0, 1, 2, 3, 4, 5, 6, 7, 8, 9] []))) (fun t => bytesAre t.dev.data [6, 1, 2, 4, 2, 0, 0, 7, 7, 3] &&
      t.dev.statusWord == 0x00900002 && t.dev.ciphcnt == 11 &&
      t.dev.iv == 0x3c9ea722440d229f75aa36ee42043547) = true := by decide +kernel

/-- V4, odd n and key-stream expansion: 80a5d84e29d517ed24d38a6e0aba502dc457a56880ffa58eb, 21 calls. -/
theorem test_enc_v4 :
    nextIs (runCommand aesParams Cmd.enc 0 (alone (device k16 16 [] (List.replicate 49 0) []))) (fun t =>
      bytesAre t.dev.data (str 16 49 0x80a5d84e29d517ed24d38a6e0aba502dc457a56880ffa58eb) && t.dev.ciphcnt == 21) =
      true := by decide +kernel

/-- The output of V2 back to its input; YR is the round-0 Y. -/
theorem test_dec_v2 :
    nextIs (runCommand aesParams Cmd.dec 0 (alone (device k16 10 [] [2, 4, 3, 3, 4, 7, 7, 4, 8, 4] []))) (fun t =>
      bytesAre t.dev.data [0, 1, 2, 3, 4, 5, 6, 7, 8, 9] && t.dev.statusWord == 0x00000002 &&
      t.dev.y == 0xc3b829a1e8642b78cc29947b3b93db63) = true := by decide +kernel

/-- F2: V2's round 1 on its own. -/
theorem test_prf_f2 :
    nextIs (runCommand aesParams Cmd.prf 1 (alone (device k16 10 [] [6, 1, 7, 7, 0, 0, 0, 0, 0, 0] []))) (fun t =>
      bytesAre t.dev.opb [5, 5, 2, 4, 8] && t.dev.statusWord == 0x00100002 && t.dev.ciphcnt == 2 &&
      t.dev.y == 0x79643d9eddfa83104802e059bddcc72c) = true := by decide +kernel

/-- F6: n = 1, round 1: an empty input half and one output digit; DATA is not read. -/
theorem test_prf_f6 :
    nextIs (runCommand aesParams Cmd.prf 1 (alone { device k16 10 [] [] [] with len := 1 })) (fun t =>
      bytesAre t.dev.opb [9] && t.dev.y == 0x0a110b1163e42893bdfe4f5b5b3ec01d) = true := by decide +kernel

/-- 999 + 001: the carry out of the top digit is discarded; KEYLEN = 0 is no error. -/
theorem test_madd_carry :
    nextIs (exec (.madd 0) (alone (device [] 10 [] [9, 9, 9, 7] [0, 0, 1, 7] |> fun d => { d with len := 3 })))
      (fun t => bytesAre t.dev.data [0, 0, 0, 7] && bytesAre t.dev.opb [0, 0, 1, 7] &&
        t.dev.statusWord == 0x00000002) = true := by decide +kernel

/-- 123 − 456 = 667 (program P3). -/
theorem test_msub_borrow :
    nextIs (exec (.msub 0) (alone (device [] 10 [] [1, 2, 3] [4, 5, 6]))) (fun t =>
      bytesAre t.dev.data [6, 6, 7] && t.dev.ciphcnt == 0) = true := by decide +kernel

/-- The K24 row of "Header P and IV". -/
theorem test_ivgen_k24 :
    nextIs (runCommand aesParams Cmd.ivgen 0 (alone { device k24 36 [] [] [] with len := 10, tlen := 3 })) (fun t =>
      t.dev.iv == 0x522d66369a187623c70d83e7e9c0b9f6 && t.dev.ciphcnt == 1) = true := by decide +kernel

/-- Word 0x71 of 95_test_vectors 3.6, run by the very first step after reset. -/
theorem test_illegal_first_step :
    nextIs (step (State.reset.withFetchWord 32 0x71)) (fun t => t.dev.statusWord == 0x00000504 &&
      t.dev.ctrlWord == 0x00000070) = true := by decide +kernel

/-- START MSUB straight after reset: INVALID_RADIX (R255), STATUS 0x00000204 as in 95_test_vectors 3.6. -/
theorem test_msub_after_reset :
    nextIs (step (State.reset.withFetchWord 32 0x51)) (fun t => t.dev.statusWord == 0x00000204) = true := by
  decide +kernel

/-- DATA[7] = 10 in radix 10: ERRINFO 7, DATA kept (program P4). -/
theorem test_invalid_symbol :
    nextIs (exec (.dec 0) (alone (device k16 10 [] [0, 1, 2, 3, 4, 5, 6, 10, 8, 9] []))) (fun t =>
      t.dev.statusWord == 0x00000304 && t.dev.errinfo == 7 && t.dev.ciphcnt == 0 &&
      bytesAre t.dev.data [0, 1, 2, 3, 4, 5, 6, 10, 8, 9]) = true := by decide +kernel

/-- A START while busy is dropped and sets WBUSY (95_test_vectors 3.8). -/
theorem test_start_while_busy :
    nextIs (exec (.madd 0) (alone { Device.reset with phase := .mac, cmd := 1 })) (fun t =>
      t.dev == { Device.reset with phase := .mac, cmd := 1, wbusy := true }) = true := by decide +kernel

/-! ### Host accesses (95_test_vectors 3.8) -/

/-- A word write of DATA ignores the offset's low bits and is big-endian; beyond the buffer nothing happens. -/
theorem test_host_data_word :
    let d := hostWrite Config.params 0x20001 0x01020304 Device.reset
    d.data = [(0, 1), (1, 2), (2, 3), (3, 4)] ∧ hostRead Config.params 0x20000 d 0 = 0x01020304 ∧
      hostWrite Config.params 0x20100 0x11111111 d = d ∧ hostRead Config.params 0x20100 d 0 = 0 := by decide +kernel

/-- W1C of DONE alone, then of all (95_test_vectors 3.8). -/
theorem test_host_status_w1c :
    let d := { Device.reset with done := true, wbusy := true }
    d.statusWord = 0x0000000A ∧ (hostWrite Config.params 0x00C 0x00000002 d).statusWord = 0x00000008 ∧
      (hostWrite Config.params 0x00C 0xFFFFFFFF d).statusWord = 0 := by decide +kernel

/-- KEYLEN and LEN keep their low bits; ID, unmapped offsets and KEY read as R30, R31 and R42 say. -/
theorem test_host_registers :
    (hostWrite Config.params 0x018 0x50 Device.reset).keylen = 16 ∧
    (hostWrite Config.params 0x01C 0x0001000A Device.reset).len = 10 ∧
    hostRead Config.params 0x000 Device.reset 0 = 0x46465852 ∧ hostRead Config.params 0x004 Device.reset 0 = 0x01000100 ∧
    hostWrite Config.params 0x030 0x12345678 Device.reset = Device.reset ∧
    hostRead Config.params 0x040 (hostWrite Config.params 0x040 0x2B7E1516 Device.reset) 0 = 0 := by decide +kernel

/-- irq follows INTEN and the flags (R46). -/
theorem test_irq : ({ Device.reset with done := true, inten := 1 } : Device).irq = true ∧
    ({ Device.reset with done := true, inten := 2 } : Device).irq = false := by decide


/-! ### Witnesses: states and operands that meet the hypotheses of each statement, together

Each is named after the statement it belongs to. `ready` holds a key, a two-byte tweak, four digits in DATA and four in
OPB. -/

def ready : Device := device k16 10 [0x31, 0x32] [1, 2, 3, 4] [5, 6, 7, 8]

/-- `ready` with no digit and no tweak. -/
def readyEmpty : Device := device k16 10 [] [] []

/-- In round 0 of an encryption of 1 2, before the first MAC block. -/
def inMac : Device :=
  { device k16 10 [] [1, 2] [] with cmd := 1, phase := .mac, k := 1, regA := [1], regB := [2] }

theorem ready_cipher : CipherReady Config.params ready :=
  ⟨⟨by decide +kernel, by decide +kernel, by decide +kernel⟩, by decide +kernel, by decide +kernel⟩

theorem readyEmpty_cipher : CipherReady Config.params readyEmpty :=
  ⟨⟨by decide +kernel, by decide +kernel, by decide +kernel⟩, by decide +kernel, by decide +kernel⟩

theorem ready_tweak : HoldsTweak Config.params ready [0x31, 0x32] := ⟨by decide +kernel, by decide +kernel⟩

theorem ready_data : HoldsDigits Config.params ready .data [1, 2, 3, 4] :=
  ⟨by decide +kernel, by decide +kernel⟩

theorem ready_opb : HoldsDigits Config.params ready .opb [5, 6, 7, 8] :=
  ⟨by decide +kernel, by decide +kernel⟩

theorem no_draws_answer_ok (n : Nat) : Env.reset.Answers n := by simp [Env.Answers, Env.reset]

theorem fails_at (c : Nat) : ({ Env.reset with engine := List.replicate c .ok ++ [.fail] } : Env).FailsAt c := by
  refine ⟨fun a h => ?_, by simp⟩
  simp only [List.take_left' List.length_replicate] at h
  exact List.eq_of_mem_replicate h

/-- What a Boolean check has found in the next state. -/
theorem next_of {o : Host.Outcome State Fault Refusal} {p : State → Bool} (h : nextIs o p = true) :
    ∃ t, o = .next t ∧ p t = true := by
  unfold nextIs at h
  split at h
  · exact ⟨_, rfl, h⟩
  · cases h
  · cases h

theorem fault_of {o : Host.Outcome State Fault Refusal} {f : Fault} (h : faultIs o f = true) : o = .fault f := by
  unfold faultIs at h
  split at h
  · cases h
  · rw [eq_of_beq h]
  · cases h

theorem ok_of {x : Except Fault Device} (h : x.isOk = true) : ∃ e, x = .ok e := by
  cases x with
  | error f => cases h
  | ok e => exact ⟨e, rfl⟩

/-- DecodeEncodeRoundTrip: each hypothesis, at the edges of CMD. -/
theorem test_witness_round_trip : (Instr.illegal 0 0).wf = true ∧ (Instr.illegal 7 15).wf = true ∧
    (Instr.illegal 15 15).wf = true ∧ (Instr.enc 0).wf = true ∧ (0xFFFFFFFF#32).getLsbD 0 = true ∧
    (0xFFFFFFFE#32).getLsbD 0 = false := by decide

/-- StepRunsFetchedCommand: both clauses, at the first and last offset of CTRL. -/
theorem test_witness_step_runs :
    target 0x008 = .ctrl ∧ target 0x00B = .ctrl ∧ decode 0x11 = .ok (.enc 0) ∧
    (let s := (alone ready).withFetchWord 32 0x11
     s.env.script = [.write 0x008 0x11] ∧ s.env.sched = [.command]) ∧
    (let s : State := { dev := ready, env := { Env.reset with script := [.write 0x00B 0x11] } }
     s.env.sched = [] ∧ s.dev.busy = false) := by decide +kernel

/-- ResetSetsEveryComponent and ResetMoveAbandonsEverything: a busy machine about to be reset, and legal parameters at
the edges of R8. -/
theorem test_witness_reset :
    ({ dev := inMac, env := { Env.reset with sched := [.reset, .engine] } } : State).env.sched = .reset :: [.engine] ∧
    Config.params.Legal ∧ Params.Legal ⟨4, 0, 0, aes⟩ ∧ Params.Legal ⟨65532, 65532, 2 ^ 18, aes⟩ :=
  ⟨rfl, Config.params_legal,
    ⟨by simp, by simp, by simp, by simp, by simp⟩, ⟨by simp, by simp, by simp, by simp, by simp⟩⟩

theorem inMac_safe : Safe (alone inMac) where
  tweakOk := ⟨by decide +kernel, by decide +kernel⟩
  dataOk := ⟨by decide +kernel, by decide +kernel⟩
  opbOk := ⟨by decide +kernel, by decide +kernel⟩
  roundLe := by decide +kernel
  noOverflow := by decide +kernel
  portFree h := absurd rfl h
  checked _ _ := by decide +kernel
  phaseInv := ⟨⟨by decide +kernel, by decide +kernel, by decide +kernel, by decide +kernel, by decide +kernel,
    by decide +kernel⟩, by decide +kernel, by decide +kernel⟩

/-- StepKeepsInvariant: a step in the middle of a command. -/
theorem test_witness_step_keeps : Safe (alone inMac) ∧ ∃ t, step (alone inMac) = .next t ∧ t.dev.waiting = true :=
  ⟨inMac_safe, next_of (p := fun t => t.dev.waiting) (by decide +kernel)⟩

/-- OnlyUnwrittenBytesFault: MADD of one digit nothing has written. -/
theorem test_witness_fault :
    let s := alone { Device.reset with radix := 10, len := 1, cmd := 4, phase := .check }
    Safe s ∧ step s = .fault (.unwrittenByte .data 0) :=
  ⟨{ tweakOk := ⟨rfl, rfl⟩, dataOk := ⟨rfl, rfl⟩, opbOk := ⟨rfl, rfl⟩, roundLe := by decide, noOverflow := by decide
     portFree := fun h => absurd rfl h, checked := fun _ h => absurd rfl h, phaseInv := trivial },
    fault_of (by decide +kernel)⟩

/-- EncWritesFfxEnc, DecWritesFfxDec, DecAfterEncRestoresData. -/
theorem test_witness_enc_dec : CipherReady Config.params (alone ready).dev ∧ 1 ≤ (alone ready).dev.nVal ∧
    [1, 2, 3, 4].length = (alone ready).dev.nVal ∧ HoldsTweak Config.params (alone ready).dev [0x31, 0x32] ∧
    HoldsDigits Config.params (alone ready).dev .data [1, 2, 3, 4] ∧
    (alone ready).env.Answers (2 * feistelCalls ready.nVal ready.rVal ready.tVal) :=
  ⟨ready_cipher, by decide +kernel, by decide +kernel, ready_tweak, ready_data,
    no_draws_answer_ok (2 * feistelCalls ready.nVal ready.rVal ready.tVal)⟩

/-- The same for DecAfterEncRestoresData's empty message. -/
theorem test_witness_enc_dec_empty : CipherReady Config.params readyEmpty ∧ ([] : List Nat).length = readyEmpty.nVal ∧
    HoldsTweak Config.params readyEmpty [] ∧ HoldsDigits Config.params readyEmpty .data [] :=
  ⟨readyEmpty_cipher, by decide +kernel, ⟨by decide +kernel, by decide +kernel⟩, rfl, by decide⟩

/-- PrfWritesRoundFunction, at the first and the last round. -/
theorem test_witness_prf : CipherReady Config.params (alone ready).dev ∧ 1 ≤ (alone ready).dev.nVal ∧
    (0#4).toNat ≤ 9 ∧ (9#4).toNat ≤ 9 ∧ [1, 2].length = wOf ready.nVal (0#4).toNat ∧
    [1, 2].length = wOf ready.nVal (9#4).toNat ∧ HoldsTweak Config.params ready [0x31, 0x32] ∧
    HoldsDigits Config.params ready .data [1, 2] ∧ (alone ready).env.Answers 2 :=
  ⟨ready_cipher, by decide +kernel, by decide, by decide, by decide +kernel, by decide +kernel, ready_tweak,
    ⟨by decide +kernel, by decide +kernel⟩, no_draws_answer_ok _⟩

/-- MaddWritesModularSum and MsubWritesModularDifference. -/
theorem test_witness_madd_msub : RadixReady Config.params (alone ready).dev ∧ 1 ≤ (alone ready).dev.nVal ∧
    [1, 2, 3, 4].length = ready.nVal ∧ [5, 6, 7, 8].length = ready.nVal ∧
    HoldsDigits Config.params ready .data [1, 2, 3, 4] ∧ HoldsDigits Config.params ready .opb [5, 6, 7, 8] :=
  ⟨ready_cipher.toRadixReady, by decide +kernel, by decide +kernel, by decide +kernel, ready_data, ready_opb⟩

/-- IvgenComputesHeaderCipher, on an empty and a non-empty message, and EmptyMessageSucceedsAtOnce. -/
theorem test_witness_ivgen_empty : CipherReady Config.params (alone readyEmpty).dev ∧
    CipherReady Config.params (alone ready).dev ∧ (alone ready).env.Answers 1 ∧ (alone readyEmpty).dev.nVal = 0 ∧
    RadixReady Config.params (alone readyEmpty).dev :=
  ⟨readyEmpty_cipher, ready_cipher, no_draws_answer_ok _, by decide +kernel, readyEmpty_cipher.toRadixReady⟩

/-- IllegalCommandEndsInError at CMD 0, 7 and 15, and StartWhileBusyIsDropped. -/
theorem test_witness_illegal_busy : (Instr.illegal 0 0).wf = true ∧ (Instr.illegal 7 0).wf = true ∧
    (Instr.illegal 15 0).wf = true ∧ (alone Device.reset).dev.Idle ∧ (alone inMac).dev.phase ≠ .idle := by
  decide +kernel

/-- CheckReportsFirstFailure: one witness for each branch of the chain, at the edge of its range. -/
theorem test_witness_check_chain :
    ready.Idle ∧ (0#4 = 0#4 ∧ 6 < (Instr.illegal 7 0).cmd.toNat) ∧
    (let d := { ready with keylen := 31 }; d.Idle ∧ ¬ d.KeyLegal) ∧
    (let d := { ready with radix := 1 }; d.Idle ∧ d.KeyLegal ∧ ¬ d.RadixLegal) ∧
    (let d := { ready with radix := 63 }; d.Idle ∧ d.KeyLegal ∧ ¬ d.RadixLegal) ∧
    (let d := { ready with len := 257 }; d.Idle ∧ d.KeyLegal ∧ d.RadixLegal ∧ 256 < d.nVal) ∧
    (let d := { ready with tlen := 257 }; d.Idle ∧ d.KeyLegal ∧ d.RadixLegal ∧ ¬ 256 < d.nVal ∧ 256 < d.tVal) ∧
    (readyEmpty.Idle ∧ readyEmpty.KeyLegal ∧ readyEmpty.RadixLegal ∧ readyEmpty.tVal ≤ 256 ∧ readyEmpty.nVal = 0) ∧
    (ready.nVal ≠ 0 ∧ ready.nVal ≤ 256 ∧ ready.tVal ≤ 256 ∧ ready.KeyLegal ∧ ready.RadixLegal ∧
      9 < (Instr.prf 10).round.toNat) := by decide +kernel

/-- A device whose DATA or OPB is 1, then an invalid digit. -/
def badSymbol (x z : List Nat) : Device := device k16 10 [] x z

/-- FirstBadSymbolIsReported, first clause: at index 0 and after a valid digit. -/
theorem test_witness_bad_data :
    (let d := badSymbol [10] []
     d.Idle ∧ registerError Config.params (d.start Cmd.enc 0) = none ∧ 0 < d.nVal ∧
       Memory.read d.data 0 = some 10 ∧ d.rVal ≤ (10#8).toNat) ∧
    (let d := badSymbol [1, 255] []
     d.Idle ∧ registerError Config.params (d.start Cmd.enc 0) = none ∧ 1 < d.nVal ∧
       (∀ a, a < 1 → ∃ c, Memory.read d.data a = some c ∧ c.toNat < d.rVal) ∧
       Memory.read d.data 1 = some 255 ∧ d.rVal ≤ (255#8).toNat) :=
  ⟨by decide +kernel, by decide +kernel, by decide +kernel, by decide +kernel,
    fun a h => ⟨1, by obtain rfl : a = 0 := by omega
                      decide +kernel, by decide +kernel⟩, by decide +kernel, by decide +kernel⟩

/-- FirstBadSymbolIsReported, first clause, for PRF: the last byte of w = 2 in round 0, and the one of w = 1 in round 9
with nothing written after it. -/
theorem test_witness_bad_prf :
    (let d := badSymbol [1, 255, 0] []
     d.Idle ∧ registerError Config.params (d.start Cmd.prf 0) = none ∧ 1 < wOf d.nVal 0 ∧ ¬ 2 < wOf d.nVal 0 ∧
       (∀ a, a < 1 → ∃ c, Memory.read d.data a = some c ∧ c.toNat < d.rVal) ∧
       Memory.read d.data 1 = some 255 ∧ d.rVal ≤ (255#8).toNat) ∧
    (let d := { badSymbol [10] [] with len := 3 }
     d.Idle ∧ registerError Config.params (d.start Cmd.prf 9) = none ∧ 0 < wOf d.nVal 9 ∧ ¬ 1 < wOf d.nVal 9 ∧
       Memory.read d.data 0 = some 10 ∧ Memory.read d.data 1 = none ∧ d.rVal ≤ (10#8).toNat) :=
  ⟨⟨by decide +kernel, by decide +kernel, by decide +kernel, by decide +kernel,
    fun a h => ⟨1, by obtain rfl : a = 0 := Nat.lt_one_iff.mp h
                      decide +kernel, by decide +kernel⟩, by decide +kernel, by decide +kernel⟩, by decide +kernel⟩

/-- FirstBadSymbolIsReported, second clause: OPB after a valid DATA. -/
theorem test_witness_bad_opb :
    let d := badSymbol [1] [62]
    d.Idle ∧ registerError Config.params (d.start Cmd.msub 0) = none ∧ 0 < d.nVal ∧
      (∀ a, a < d.nVal → ∃ c, Memory.read d.data a = some c ∧ c.toNat < d.rVal) ∧
      (∀ a, a < 0 → ∃ c, Memory.read d.opb a = some c ∧ c.toNat < d.rVal) ∧
      Memory.read d.opb 0 = some 62 ∧ d.rVal ≤ (62#8).toNat :=
  ⟨by decide +kernel, by decide +kernel, by decide +kernel,
    fun a h => ⟨1, by obtain rfl : a = 0 := Nat.lt_one_iff.mp h
                      decide +kernel, by decide +kernel⟩,
    fun a h => absurd h (Nat.not_lt_zero a), by decide +kernel, by decide +kernel⟩

/-- UnwrittenOperandByteFaults, DATA: one digit, LEN is 2. -/
theorem test_witness_unwritten :
    let d := { badSymbol [1] [] with len := 2 }
    d.Idle ∧ registerError Config.params (d.start Cmd.enc 0) = none ∧ 1 < d.nVal ∧
      (∀ a, a < 1 → ∃ c, Memory.read d.data a = some c ∧ c.toNat < d.rVal) ∧ Memory.read d.data 1 = none :=
  ⟨by decide +kernel, by decide +kernel, by decide +kernel,
    fun a h => ⟨1, by obtain rfl : a = 0 := by omega
                      decide +kernel, by decide +kernel⟩, by decide +kernel⟩

/-- UnwrittenOperandByteFaults, OPB: DATA holds its two digits, OPB none, and then one. -/
theorem test_witness_unwritten_opb :
    (∀ a, a < 2 → ∃ c, Memory.read (badSymbol [1, 2] []).data a = some c ∧ c.toNat < (badSymbol [1, 2] []).rVal) ∧
    (let d := badSymbol [1, 2] []
     d.Idle ∧ registerError Config.params (d.start Cmd.madd 0) = none ∧ 0 < d.nVal ∧ Memory.read d.opb 0 = none) ∧
    (let d := badSymbol [1, 2] [9]
     d.Idle ∧ registerError Config.params (d.start Cmd.msub 0) = none ∧ 1 < d.nVal ∧
       (∀ a, a < 1 → ∃ c, Memory.read d.opb a = some c ∧ c.toNat < d.rVal) ∧ Memory.read d.opb 1 = none) :=
  ⟨fun a h => ⟨if a = 0 then 1 else 2, by obtain rfl | rfl : a = 0 ∨ a = 1 := by omega
                                          all_goals decide +kernel, by split <;> decide +kernel⟩,
    by decide +kernel, by decide +kernel, by decide +kernel, by decide +kernel,
    fun a h => ⟨9, by obtain rfl : a = 0 := Nat.lt_one_iff.mp h
                      decide +kernel, by decide +kernel⟩, by decide +kernel⟩

/-- `ready` with a tweak of 18 bytes of which only the first ones, those given, are written. -/
def shortTweak (tw : List Nat) : Device := { ready with tlen := 18, tweak := filled tw }

/-- UnwrittenOperandByteFaults, TWEAK: none of the tweak's 18 bytes is written, and all but the last. -/
theorem test_witness_unwritten_tweak :
    (∀ tw ∈ [[], List.replicate 17 0], ∀ c ∈ [Cmd.enc, Cmd.dec, Cmd.prf], (shortTweak tw).Idle ∧
      (shortTweak tw).tVal = 18 ∧ registerError Config.params ((shortTweak tw).start c 0) = none) ∧ 1 ≤ ready.nVal ∧ [1, 2].length = wOf ready.nVal 0 ∧
    HoldsDigits Config.params (shortTweak []) .data [1, 2, 3, 4] ∧ HoldsDigits Config.params (shortTweak []) .data [1, 2] ∧
    HoldsDigits Config.params (shortTweak (List.replicate 17 0)) .data [1, 2, 3, 4] ∧
    Memory.read (shortTweak []).tweak 0 = none ∧
    (∀ a, a < 17 → Memory.read (shortTweak (List.replicate 17 0)).tweak a = some 0) ∧
    Memory.read (shortTweak (List.replicate 17 0)).tweak 17 = none ∧ Env.reset.Answers (1 + 17 / 16) :=
  ⟨by decide +kernel, by decide +kernel, by decide +kernel,
    ⟨by decide +kernel, by decide +kernel⟩, ⟨by decide +kernel, by decide +kernel⟩,
    ⟨by decide +kernel, by decide +kernel⟩, by decide +kernel, by decide +kernel, by decide +kernel,
    no_draws_answer_ok _⟩

/-- The three stops themselves, one step each: a digit of OPB, the tweak's first byte, and its last in block 2. -/
theorem test_unwritten_opb_and_tweak_stop :
    faultIs (exec (.madd 0) (alone (badSymbol [1, 2] [9]))) (.unwrittenByte .opb 1) = true ∧
    faultIs (exec (.dec 0) (alone (shortTweak []))) (.unwrittenByte .tweak 0) = true ∧
    faultIs (runCommand aesParams Cmd.prf 1 (alone (shortTweak (List.replicate 17 0)))) (.unwrittenByte .tweak 17) = true := by
  decide +kernel

/-- FreshMachineFailsEveryCommand. -/
theorem test_witness_fresh : (alone Device.reset).dev = Device.reset := rfl

/-- CipherFailureEndsCommand: the first and the last call of ENC (11 calls here), of PRF (2) and of IVGEN (1); the
operands are those of `test_witness_enc_dec` and `test_witness_prf`. -/
theorem test_witness_cipher_failure : feistelCalls ready.nVal ready.rVal ready.tVal = 11 ∧
    prfCalls ready.nVal ready.rVal ready.tVal = 2 ∧
    ∀ c, ({ Env.reset with engine := List.replicate c .ok ++ [.fail] } : Env).FailsAt c :=
  ⟨by decide +kernel, by decide +kernel, fails_at⟩

/-- `ready` among agents whose engine fails the first request. -/
def failing : State := { dev := ready, env := { Env.reset with engine := [.fail] } }

/-- ErrorsLeaveNoPartialResult, FeistelCommandsFrame, MergedCommandIsRunOfSingleSteps: ENC ends in an error. -/
theorem test_witness_enc_error : failing.dev.phase = .idle ∧ (Instr.enc 3).wf = true ∧
    ∃ t, exec (.enc 3) failing = .next t ∧ t.dev.err = true :=
  ⟨rfl, rfl, next_of (p := fun t => t.dev.err) (by decide +kernel)⟩

/-- ErrorsLeaveNoPartialResult: a step that is not WRITEBACK, and WRITEBACK of each shape of command. -/
theorem test_witness_writeback :
    (inMac.phase ≠ .writeback ∧ ∃ e, ctlStep Config.params inMac = .ok e) ∧
    (let d := { ready with phase := .writeback, cmd := 2, regA := [1, 2], regB := [3, 4] }
     d.port = .free ∧ ∃ e, ctlStep Config.params d = .ok e) ∧
    (let d := { ready with phase := .writeback, cmd := 3, regF := [1, 2] }
     d.port = .free ∧ ∃ e, ctlStep Config.params d = .ok e) ∧
    (let d := { ready with phase := .writeback, cmd := 5, regA := [1, 2, 3, 4] }
     d.port = .free ∧ ∃ e, ctlStep Config.params d = .ok e) :=
  ⟨⟨by decide +kernel, ok_of (by decide +kernel)⟩, ⟨rfl, ok_of (by decide +kernel)⟩, ⟨rfl, ok_of (by decide +kernel)⟩,
    rfl, ok_of (by decide +kernel)⟩

/-- FeistelCommandsFrame (DEC, the empty message), PrfFrame, IvgenFrame. -/
theorem test_witness_cipher_frames :
    (readyEmpty.phase = .idle ∧ ∃ t, exec (.dec 0) (alone readyEmpty) = .next t ∧ t.dev.done = true) ∧
    (failing.dev.phase = .idle ∧ ∃ t, exec (.prf 9) failing = .next t ∧ t.dev.err = true) ∧
    ∃ t, exec (.ivgen 0) (alone ready) = .next t ∧ t.dev.done = true :=
  ⟨⟨rfl, next_of (p := fun t => t.dev.done) (by decide +kernel)⟩,
    ⟨rfl, next_of (p := fun t => t.dev.err) (by decide +kernel)⟩,
    next_of (p := fun t => t.dev.done) (by decide +kernel)⟩

/-- RadixCommandsFrame, and ResultsDependOnlyOnOperands with two states that differ elsewhere (KEYLEN, TWEAK, ROUND). -/
theorem test_witness_radix_frame :
    let d := { ready with keylen := 0, tweak := [], ctrlRound := 7 }
    ready.Idle ∧ d.Idle ∧ (∃ t, exec (.madd 0) (alone ready) = .next t ∧ t.dev.done = true) ∧
      (∃ t, exec (.madd 0) (alone d) = .next t ∧ t.dev.done = true) ∧ ready.radix = d.radix ∧ ready.len = d.len ∧
      usesCipher (Instr.madd 0).cmd = false ∧ ready.data = d.data ∧ ready.opb = d.opb :=
  ⟨⟨rfl, rfl⟩, ⟨rfl, rfl⟩, next_of (p := fun t => t.dev.done) (by decide +kernel),
    next_of (p := fun t => t.dev.done) (by decide +kernel), rfl, rfl, rfl, rfl, rfl⟩

/-! Successful runs of ENC, DEC and PRF over four decimal digits, for witnesses of statements about two of them. -/

/-- Two halves of two decimal digits. -/
def Halves (ab : List Nat × List Nat) : Prop :=
  (ab.1.length = 2 ∧ ∀ c ∈ ab.1, c < 10) ∧ ab.2.length = 2 ∧ ∀ c ∈ ab.2, c < 10

theorem halves_enc (E : Block → Block) (tw : List Byte) (iv : Block) {ab : List Nat × List Nat} (h : Halves ab)
    (c : Nat) : Halves (encRounds E tw 4 10 iv ab c) := by
  induction c with
  | zero => exact h
  | succ c ih => exact ⟨ih.2, by rw [encRounds, encRound, length_radd]; exact ih.1.1,
      fun _ hc => str_digit_lt (by decide) hc⟩

theorem halves_dec (E : Block → Block) (tw : List Byte) (iv : Block) {ab : List Nat × List Nat} (h : Halves ab)
    (c : Nat) : Halves (decRounds E tw 4 10 iv ab c) := by
  induction c with
  | zero => exact h
  | succ c ih => exact ⟨⟨by rw [decRounds, decRound, length_rsub]; exact ih.2.1,
      fun _ hc => str_digit_lt (by decide) hc⟩, ih.1⟩

theorem half_fits {h : List Nat} (hl : h.length = 2) (hd : ∀ c ∈ h, c < 10) : num 10 h < 256 ^ bOf 4 10 := by
  have := num_lt hd
  rw [hl] at this
  rw [show bOf 4 10 = 1 by decide +kernel]
  omega

/-- A device with a key, a tweak and the digits 1 2 3 4 in DATA, radix 10. -/
structure Loaded (d : Device) (tw : List Byte) : Prop where
  ready : CipherReady Config.params d
  radix : d.rVal = 10
  len : d.nVal = 4
  tweak : HoldsTweak Config.params d tw
  data : HoldsDigits Config.params d .data [1, 2, 3, 4]

theorem start_halves : Halves (splitHalves [1, 2, 3, 4]) := by unfold Halves; decide

/-- WRITEBACK of ENC or DEC over two halves of two digits ends the command with DONE. -/
theorem writeback_feistel {s : State} {ab : List Nat × List Nat} (hph : s.dev.phase = .writeback)
    (hp : s.dev.port = .free) (hc : s.dev.cmd = Cmd.enc ∨ s.dev.cmd = Cmd.dec) (hn : s.dev.nVal = 4)
    (hab : (s.dev.regA, s.dev.regB) = ab) (h : Halves ab) :
    ∃ e, Steps Config.params 1 s (s.after e 0) ∧ e.phase = .idle ∧ e.done = true := by
  subst hab
  have hl : (s.dev.regA ++ s.dev.regB).length = 4 := by rw [List.length_append, h.1.1, h.2.1]
  exact ⟨Device.complete (s.dev.setBuf .data (Memory.writeBytes s.dev.data 0 (digitBytes (s.dev.regA ++ s.dev.regB)))),
    Steps.controller (P := Config.params) (by simp [Device.busy, hph]) hp ((ctlStep_writeback hph hp).trans
      (by unfold writebackStep writeHalves
          exact (if_pos hc).trans (hn ▸ writeResult_eq (P := Config.params) (b := .data) hl (by decide +kernel)))),
    Device.complete_phase _, Device.complete_done _⟩

/-- ENC from a loaded device ends with DONE, whatever the cipher answers. -/
theorem enc_completes {d : Device} {tw : List Byte} (h : Loaded d tw) :
    ∃ t, exec (.enc 0) (alone d) = .next t ∧ t.dev.done = true := by
  obtain ⟨e, h1, h2, h3⟩ := steps_start_enc (s := alone d) (x := [1, 2, 3, 4]) 0 h.ready
    (le_of_le_of_eq (by decide : 1 ≤ 4) h.len.symm) h.len.symm h.data (no_draws_answer_ok 1)
  obtain ⟨dr, dn, dt, dq, de, db⟩ := h3.derived
  have er : e.rVal = 10 := dr.trans h.radix
  have en : e.nVal = 4 := dn.trans h.len
  have eb : e.bVal = bOf 4 10 := by unfold Device.bVal; rw [er, en]
  have ok (n : Nat) (f : Device) (c : Nat) : ((alone d).after f c).env.Answers n := by
    simp [alone, State.after, Env.Answers, Env.reset]
  obtain ⟨f, g1, g2, g3⟩ := steps_enc_rounds (P := Config.params) (tw := tw) 9 (le_refl 9)
    (s := (alone d).after e 1) h3.cmd h2 (h3.holdsTweak h.tweak)
    (fun i _ => by
      rw [State.after_dev, er, en, eb]
      exact half_fits (halves_enc _ tw _ start_halves i).2.1 (halves_enc _ tw _ start_halves i).2.2)
    (by rw [State.after_dev, er]; decide) (by rw [State.after_dev, er]; decide) (ok _ _ _)
  rw [State.after_dev] at g2 g3 g1
  rw [er, en] at g2
  obtain ⟨gr, gn, -, gq, ge, gb⟩ := g3.derived
  have hh := halves_enc (cipherOf Config.params e) tw (ivOf (cipherOf Config.params d) d.nVal d.rVal d.tVal) start_halves
  obtain ⟨u, k1, k2, k3, -, -, k4, -, k5⟩ := steps_enc_last (P := Config.params) (tw := tw)
    (s := ((alone d).after e 1).after f (9 * (e.qVal + e.eVal)))
    (g3.cmd.trans h3.cmd) g2 (g3.holdsTweak (h3.holdsTweak h.tweak))
    (by rw [State.after_dev, gr, gb, er, eb]; exact half_fits (hh 9).2.1 (hh 9).2.2)
    (by rw [State.after_dev, gr, er]; decide) (by rw [State.after_dev, gr, er]; decide)
    (by rw [State.after_after]; exact ok _ _ _)
  rw [State.after_dev] at k4 k5 k1
  rw [g3.cipher, gn, gr, er, en] at k4
  obtain ⟨v, l1, l2, l3⟩ := writeback_feistel (s := (((alone d).after e 1).after f (9 * (e.qVal + e.eVal))).after u
    (f.qVal + f.eVal)) k2 k3 (.inl (k5.cmd.trans (g3.cmd.trans h3.cmd)))
    (k5.derived.2.1.trans (gn.trans en)) k4 (hh 10)
  refine ⟨_, runCommand_of_steps (by simp [alone, Device.busy, h.ready.idle.1]) (((h1.trans g1).trans k1).trans l1) (by simp [Device.busy, l2]) ?_, l3⟩
  rw [gq, ge, dq, de]
  show 5 + 9 * (3 * (d.qVal + d.eVal) + 2) + (3 * (d.qVal + d.eVal) + 2) + 1 ≤
    5 + 10 * (2 * d.qVal + 2 * d.eVal + 2) + (1 + 10 * (d.qVal + d.eVal))
  omega

/-- DEC from a loaded device ends with DONE, whatever the cipher answers. -/
theorem dec_completes {d : Device} {tw : List Byte} (h : Loaded d tw) :
    ∃ t, exec (.dec 0) (alone d) = .next t ∧ t.dev.done = true := by
  obtain ⟨e, h1, h2, h3⟩ := steps_start_dec (s := alone d) (x := [1, 2, 3, 4]) 0 h.ready
    (le_of_le_of_eq (by decide : 1 ≤ 4) h.len.symm) h.len.symm h.data (no_draws_answer_ok 1)
  obtain ⟨dr, dn, dt, dq, de, db⟩ := h3.derived
  have er : e.rVal = 10 := dr.trans h.radix
  have en : e.nVal = 4 := dn.trans h.len
  have eb : e.bVal = bOf 4 10 := by unfold Device.bVal; rw [er, en]
  have ok (n : Nat) (f : Device) (c : Nat) : ((alone d).after f c).env.Answers n := by
    simp [alone, State.after, Env.Answers, Env.reset]
  obtain ⟨f, g1, g2, g3⟩ := steps_dec_rounds (P := Config.params) (tw := tw) 9 (le_refl 9)
    (s := (alone d).after e 1) h3.cmd h2 (h3.holdsTweak h.tweak)
    (fun i _ => by
      rw [State.after_dev, er, en, eb]
      exact half_fits (halves_dec _ tw _ start_halves i).1.1 (halves_dec _ tw _ start_halves i).1.2)
    (by rw [State.after_dev, er]; decide) (by rw [State.after_dev, er]; decide) (ok _ _ _)
  rw [State.after_dev] at g2 g3 g1
  rw [er, en] at g2
  obtain ⟨gr, gn, -, gq, ge, gb⟩ := g3.derived
  have hh := halves_dec (cipherOf Config.params e) tw (ivOf (cipherOf Config.params d) d.nVal d.rVal d.tVal) start_halves
  obtain ⟨u, k1, k2, k3, -, -, k4, -, k5⟩ := steps_dec_last (P := Config.params) (tw := tw)
    (s := ((alone d).after e 1).after f (9 * (e.qVal + e.eVal)))
    (g3.cmd.trans h3.cmd) g2 (g3.holdsTweak (h3.holdsTweak h.tweak))
    (by rw [State.after_dev, gr, gb, er, eb]; exact half_fits (hh 9).1.1 (hh 9).1.2)
    (by rw [State.after_dev, gr, er]; decide) (by rw [State.after_dev, gr, er]; decide)
    (by rw [State.after_after]; exact ok _ _ _)
  rw [State.after_dev] at k4 k5 k1
  rw [g3.cipher, gn, gr, er, en] at k4
  obtain ⟨v, l1, l2, l3⟩ := writeback_feistel (s := (((alone d).after e 1).after f (9 * (e.qVal + e.eVal))).after u
    (f.qVal + f.eVal)) k2 k3 (.inr (k5.cmd.trans (g3.cmd.trans h3.cmd)))
    (k5.derived.2.1.trans (gn.trans en)) k4 (hh 10)
  refine ⟨_, runCommand_of_steps (by simp [alone, Device.busy, h.ready.idle.1]) (((h1.trans g1).trans k1).trans l1) (by simp [Device.busy, l2]) ?_, l3⟩
  rw [gq, ge, dq, de]
  show 5 + 9 * (3 * (d.qVal + d.eVal) + 2) + (3 * (d.qVal + d.eVal) + 2) + 1 ≤
    5 + 10 * (2 * d.qVal + 2 * d.eVal + 2) + (1 + 10 * (d.qVal + d.eVal))
  omega

/-- PRF of round 0 over the first two digits of DATA. -/
theorem prf_completes {d : Device} {tw : List Byte} (h : Loaded d tw)
    (hd : HoldsDigits Config.params d .data [1, 2]) : ∃ t, exec (.prf 0) (alone d) = .next t ∧ t.dev.done = true := by
  obtain ⟨e, h1, h2, h3⟩ := steps_start_prf (s := alone d) (x := [1, 2]) (rd := 0) h.ready
    (le_of_le_of_eq (by decide : 1 ≤ 4) h.len.symm) (by decide)
    (show 2 = wOf d.nVal 0 by rw [h.len]; decide) hd (no_draws_answer_ok 1)
  obtain ⟨dr, dn, dt, dq, de, db⟩ := h3.derived
  have er : e.rVal = 10 := dr.trans h.radix
  have en : e.nVal = 4 := dn.trans h.len
  have eb : e.bVal = bOf 4 10 := by unfold Device.bVal; rw [er, en]
  have hh : e.half = [1, 2] := by unfold Device.half; rw [h3.cmd]; exact h2.halfB
  have g := steps_to_reduced (P := Config.params) (tw := tw) (s := (alone d).after e 1) h2
    (h3.holdsTweak h.tweak)
    (by rw [State.after_dev, hh, er, eb]; exact half_fits rfl (by decide))
    (by rw [State.after_dev, er]; decide) (by rw [State.after_dev, er]; decide)
    (by simp [alone, State.after, Env.Answers, Env.reset])
  rw [State.after_dev] at g
  have hc : (roundDone Config.params tw e).cmd = Cmd.prf := h3.cmd
  have hph : (roundDone Config.params tw e).phase = .writeback := (congrArg afterReduce h3.cmd).trans rfl
  have hm : (roundDone Config.params tw e).mVal = 2 := by
    show mOf e.nVal e.i.toNat = 2
    rw [en, h2.round]
    decide
  have hl : (roundDone Config.params tw e).regF.length = (roundDone Config.params tw e).mVal := length_str _ _ _
  have w := Steps.controller (P := Config.params)
    (s := ((alone d).after e 1).after (roundDone Config.params tw e) (e.qVal + e.eVal))
    (by simp [Device.busy, hph]) rfl ((ctlStep_writeback hph rfl).trans
      (by unfold writebackStep writePrf
          exact (if_neg (by rw [hc]; decide)).trans ((if_pos hc).trans
            (writeResult_eq (P := Config.params) (b := .opb) hl (by rw [hm]; decide +kernel)))))
  refine ⟨_, runCommand_of_steps (by simp [alone, Device.busy, h.ready.idle.1]) ((h1.trans g).trans w)
    (by simp [Device.busy]) ?_, Device.complete_done _⟩
  rw [dq, de]
  show 5 + (3 * (d.qVal + d.eVal) + 1) + 1 ≤
    5 + 10 * (2 * d.qVal + 2 * d.eVal + 2) + (1 + 10 * (d.qVal + d.eVal))
  omega

theorem ready_loaded : Loaded ready [0x31, 0x32] :=
  ⟨ready_cipher, by decide +kernel, by decide +kernel, ready_tweak, ready_data⟩

/-- `ready` but for what a cipher command does not read: key bytes from KEYLEN on, OPB, DATA from n on, CTRL, WBUSY, the
working registers and CIPHCNT. -/
def elsewhere : Device :=
  { ready with
    key := setKeyWord 7 0xFFFFFFFF ready.key, opb := [], data := filled [1, 2, 3, 4, 5], ctrlRound := 7, wbusy := true
    i := 5, iv := 1, y := 2, ciphcnt := 3 }

theorem elsewhere_loaded : Loaded elsewhere [0x31, 0x32] :=
  ⟨⟨⟨by decide +kernel, by decide +kernel, by decide +kernel⟩, by decide +kernel, by decide +kernel⟩,
    by decide +kernel, by decide +kernel, ⟨by decide +kernel, by decide +kernel⟩,
    ⟨by decide +kernel, by decide +kernel⟩⟩

/-- ResultsDependOnlyOnOperands for ENC, DEC and PRF with n = 4: two states that agree on the operands only. -/
theorem test_witness_feistel_results :
    ready.phase = .idle ∧ elsewhere.phase = .idle ∧ 1 ≤ ready.nVal ∧
    ready.radix = elsewhere.radix ∧ ready.len = elsewhere.len ∧ ready.keyBytes = elsewhere.keyBytes ∧
    ready.tlen = elsewhere.tlen ∧ ready.tweak = elsewhere.tweak ∧
    (∀ a, a < 4 → Memory.read ready.data a = Memory.read elsewhere.data a) ∧
    (∃ t, exec (.enc 0) (alone ready) = .next t ∧ t.dev.done = true) ∧
    (∃ t, exec (.enc 0) (alone elsewhere) = .next t ∧ t.dev.done = true) ∧
    (∃ t, exec (.dec 0) (alone ready) = .next t ∧ t.dev.done = true) ∧
    (∃ t, exec (.dec 0) (alone elsewhere) = .next t ∧ t.dev.done = true) ∧
    (∃ t, exec (.prf 0) (alone ready) = .next t ∧ t.dev.done = true) ∧
    ∃ t, exec (.prf 0) (alone elsewhere) = .next t ∧ t.dev.done = true :=
  ⟨rfl, rfl, by decide +kernel, rfl, rfl, by decide +kernel, rfl, rfl, by decide +kernel,
    enc_completes ready_loaded, enc_completes elsewhere_loaded, dec_completes ready_loaded, dec_completes elsewhere_loaded,
    prf_completes ready_loaded ⟨by decide +kernel, by decide +kernel⟩,
    prf_completes elsewhere_loaded ⟨by decide +kernel, by decide +kernel⟩⟩

/-- ResultsDependOnlyOnOperands for a cipher command: two keys that agree in their first KEYLEN bytes, DATA different
and unread. -/
theorem test_witness_ivgen_results :
    let d := { ready with key := setKeyWord 7 0xFFFFFFFF ready.key, data := [] }
    ready.keyBytes = d.keyBytes ∧ ready.tlen = d.tlen ∧ ready.radix = d.radix ∧ ready.len = d.len ∧
      (∃ t, exec (.ivgen 0) (alone ready) = .next t ∧ t.dev.done = true) ∧
      ∃ t, exec (.ivgen 0) (alone d) = .next t ∧ t.dev.done = true :=
  ⟨by decide +kernel, rfl, rfl, rfl, next_of (p := fun t => t.dev.done) (by decide +kernel),
    next_of (p := fun t => t.dev.done) (by decide +kernel)⟩

/-- FfxDecInvertsFfxEnc, FfxKeepsLengthAndRadix, NumStrConversionLaws, RaddRsubInverse, DigitSerialArithmeticAgrees,
BorrowFormOfRsubAgrees, HalfByteCountIsExact: digits at the edges, radix 2 and 62, and RoundHalvesAlternate's rounds. -/
theorem test_witness_digits :
    2 ≤ 2 ∧ 62 ≤ 62 ∧ (∀ c ∈ [0, 1], c < 2) ∧ (∀ c ∈ [0, 61], c < 62) ∧ [0, 61].length = [61, 0].length ∧
    ([] : List Nat).length = 0 ∧ (0 < 62 ^ 0 ∧ 62 ^ 2 - 1 < 62 ^ 2) ∧ (0 < 256 ^ 0 ∧ 255 < 256 ^ 1) ∧
    [0, 61].length ≤ vOf 3 ∧ (0 ≤ 9 ∧ 9 ≤ 9) := by decide

/-- BorrowFormOfRsubAgrees: both branches. -/
theorem test_witness_borrow : num 62 [61, 0] ≤ num 62 [61, 0] ∧ ¬ num 62 [61, 0] ≤ num 62 [0, 61] := by decide

/-- IssueStepsPostTheRequests: HDR, the first MAC block, the last EXPAND block. -/
theorem test_witness_issue :
    (let d := { ready with phase := .hdr }; d.port = .free ∧ d.phase = .hdr) ∧
    (HoldsTweak Config.params inMac [] ∧ inMac.port = .free ∧ num inMac.rVal inMac.half < 256 ^ inMac.bVal ∧
      1 ≤ inMac.k.toNat ∧ inMac.k.toNat ≤ inMac.qVal) ∧
    (let d := { ready with phase := .expand, j := 1 }; d.port = .free ∧ d.phase = .expand) :=
  ⟨⟨rfl, rfl⟩, ⟨⟨by decide +kernel, by decide +kernel⟩, rfl, by decide +kernel, by decide +kernel, by decide +kernel⟩, rfl, rfl⟩

/-- PortProtocolAlternates and FailedAnswerRaisesInEveryPhase. -/
theorem test_witness_port :
    (let s : State := { dev := { inMac with port := .req k16 0 }, env := { Env.reset with sched := [.engine] } }
     s.dev.port = .req k16 0 ∧ s.env.sched = [.engine] ∧ s.env.engine.headD .ok = .ok) ∧
    (let s : State := { dev := { inMac with port := .req k16 0 }, env := { Env.reset with sched := [.controller] } }
     s.dev.port = .req k16 0 ∧ s.env.sched = [.controller]) ∧
    (let s : State :=
      { dev := { inMac with port := .req k16 0 }, env := { Env.reset with sched := [.engine], engine := [.fail] } }
     s.dev.port = .req k16 0 ∧ s.env.sched = [.engine] ∧ s.env.engine.headD .ok = .fail) ∧
    (let s : State := { dev := ready, env := { Env.reset with sched := [.engine] } }
     s.dev.waiting = false ∧ s.env.sched = [.engine]) ∧
    (let d : Device := { inMac with port := .rsp .fail }; d.phase = .mac ∧ d.port = .rsp .fail) := by decide +kernel

/-- HostReadsHaveNoSideEffect, HostWriteStepWritesTheWindow and OffsetLowBitsAreIgnored's host move: a read, a poll
that matches, a poll that does not, a write. -/
theorem test_witness_host_moves :
    let s (op : HostOp) : State := { dev := inMac, env := { Env.reset with sched := [.host], script := [op] } }
    (s (.read 0x00C)).env.sched = [.host] ∧ (s (.read 0x00C)).env.script = [.read 0x00C] ∧
    hostRead Config.params 0x00C inMac 0 &&& 0x00000001 = 0x00000001 ∧
    hostRead Config.params 0x00C inMac 0 &&& 0x00000001 ≠ 0x00000000 ∧
    (s (.write 0x014 0x10)).env.script = [.write 0x014 0x10] := by decide +kernel

/-- The word-aligned part of an offset, as the window statements write it. -/
def wordOf (o : Offset) : Nat := 4 * (o.toNat / 4)

/-- ProtectedWritesWhileBusyAreDropped: each clause, the ranges at both ends, in a busy and in an idle device. -/
theorem test_witness_protected :
    wordOf 0x008 = 0x008 ∧ wordOf 0x017 = 0x014 ∧ wordOf 0x018 = 0x018 ∧ wordOf 0x01C = 0x01C ∧ wordOf 0x020 = 0x020 ∧
    wordOf 0x040 = 0x040 + 4 * 0 ∧ wordOf 0x05F = 0x040 + 4 * 7 ∧ wordOf 0x10000 = 0x10000 ∧ wordOf 0x1FFFF = 0x1FFFC ∧
    wordOf 0x20000 = 0x20000 ∧ wordOf 0x2FFFF = 0x2FFFC ∧ wordOf 0x30000 = 0x30000 ∧ wordOf 0x3FFFF = 0x3FFFC ∧
    inMac.phase ≠ .idle ∧ ready.phase = .idle ∧ (0x10#32).getLsbD 0 = false ∧ (0x11#32).getLsbD 0 = true := by decide +kernel

/-- ProtectedWritesWhileBusyAreDropped at the edges of KEY and of a window: a KEY word, the last word inside a buffer,
the first one outside it, the first word of the next window (R42, R61, R63, R69). -/
theorem test_protected_edges :
    let w (o : Offset) : Device := hostWrite Config.params o 0x01020304 Device.reset
    (w 0x05C).key[27]? = some 0 ∧ (w 0x05C).key[28]? = some 1 ∧ (w 0x05C).key[31]? = some 4 ∧
    Memory.read (w 0x100FC).tweak 0xFF = some 4 ∧ w 0x10100 = Device.reset ∧ w 0x1FFFC = Device.reset ∧
    Memory.read (w 0x20000).data 0 = some 1 ∧ (w 0x20000).tweak = [] ∧ Memory.read (w 0x30000).opb 3 = some 4 ∧
    (w 0x30000).data = [] := by decide +kernel

/-- StartAcceptanceWrite. -/
theorem test_witness_start : ready.phase = .idle ∧ (0x11#32).getLsbD 0 = true := by decide +kernel

/-- UnprotectedWritesActAtAnyTime and RegisterReadWords: each clause, the ranges at both ends. -/
theorem test_witness_unprotected :
    wordOf 0x00F = 0x00C ∧ wordOf 0x010 = 0x010 ∧ wordOf 0x000 = 0 ∧ wordOf 0x004 = 0x004 ∧ wordOf 0x024 = 0x024 ∧
    wordOf 0x028 = 0x028 ∧ wordOf 0x02C = 0x02C ∧ wordOf 0x03F = 0x03C ∧ wordOf 0x060 = 0x060 + 4 * 0 ∧
    wordOf 0x06F = 0x060 + 4 * 3 ∧ wordOf 0x070 = 0x070 + 4 * 0 ∧ wordOf 0x07F = 0x070 + 4 * 3 ∧
    wordOf 0x080 = 0x080 ∧ wordOf 0x0FFFF = 0x0FFFC := by decide

/-- BufferWindowWordAccess: the first and the last offset of a window, the last word inside a buffer and the first one
outside it, idle and busy. -/
theorem test_witness_buffer_word :
    (0x10000 ≤ (0x10000#18).toNat ∧ 4 * (((0x10000#18).toNat - 0x10000) / 4) < 256) ∧
    ((0x1FFFF#18).toNat < 0x10000 + 0x10000 ∧ 256 ≤ 4 * (((0x1FFFF#18).toNat - 0x10000) / 4)) ∧
    4 * (((0x200FF#18).toNat - 0x20000) / 4) = 0xFC ∧ 4 * (((0x30100#18).toNat - 0x30000) / 4) = 0x100 ∧
    (0x3FFFF#18).toNat < 0x30000 + 0x10000 ∧ ready.phase = .idle ∧ inMac.phase ≠ .idle := by decide +kernel

/-- KeyIsWriteOnly, SetKeyScriptLoadsTheKey, LoadBufScriptLoadsTheBuffer: the key lengths, and byte strings as long as
nothing and as the whole buffer. -/
theorem test_witness_scripts : ready.phase = .idle ∧ 0 < 8 ∧ 7 < 8 ∧ k16.length = 16 ∧ k24.length = 24 ∧
    k32.length = 32 ∧ ([] : List Byte).length ≤ Params.size Config.params .opb ∧
    (List.replicate 256 (0xA5 : Byte)).length ≤ Params.size Config.params .tweak := by decide +kernel

end Sys2Proof.Tests
end

section
/-! What the invariant of the reachable states rests on: the registers a command has once CHECK has passed
(60_exceptions R221), where a scan or a read can fail (10_state R50), that the numeral of a half fits its bytes
(41_round_function R141), and how many steps a command still takes (42_feistel_controller R195, 70_reset_and_hazards
R265). -/
namespace Sys2Proof.Machine

/-! ### The registers of a command that has passed CHECK (R221) -/

/-- What holds where none of conditions 1 to 7 of R221 does. -/
structure RegistersPass (P : Params) (d : Device) : Prop where
  command : isCommand d.cmd = true
  key : usesCipher d.cmd = true → d.KeyLegal
  radix : d.RadixLegal
  len : d.nVal ≤ P.nMax
  tlen : usesCipher d.cmd = true → d.tVal ≤ P.tweakMax
  prfLen : d.cmd = Cmd.prf → d.nVal ≠ 0
  prfRound : d.cmd = Cmd.prf → d.ctrlRound.toNat ≤ 9

theorem registersPass_of_registerError {P : Params} {d : Device} (h : registerError P d = none) :
    RegistersPass P d := by
  unfold registerError at h
  split_ifs at h with hcmd hkey hradix hlen htlen hprf hround
  exact {
    command := by simpa using hcmd
    key := fun hu => by
      by_contra hk
      exact hkey ⟨hu, fun e => hk (.inl e), fun e => hk (.inr (.inl e)), fun e => hk (.inr (.inr e))⟩
    radix := by constructor <;> omega
    len := by omega
    tlen := fun hu => not_lt.mp fun ht => htlen ⟨hu, ht⟩
    prfLen := fun hc hn => hprf ⟨hc, hn⟩
    prfRound := fun hc => not_lt.mp fun hr => hround ⟨hc, hr⟩ }

/-- CHECK never raises OVERFLOW (R226). -/
theorem registerError_ne_overflow {P : Params} {d : Device} {c : ErrorCode} (h : registerError P d = some c) :
    c ≠ .overflow := by
  rintro rfl
  unfold registerError at h
  split_ifs at h <;> cases h

/-- The checks read only what a running command keeps (R47). -/
theorem registerError_keeps {P : Params} {d e : Device} (h : KeepsHostState d e) :
    registerError P e = registerError P d := by
  unfold registerError Device.rVal Device.nVal Device.tVal
  rw [h.cmd, h.keylen, h.radix, h.len, h.tlen, h.ctrlRound]

/-- The commands of R81. -/
theorem isCommand_cases {c : BitVec 4} (h : isCommand c = true) :
    c = Cmd.enc ∨ c = Cmd.dec ∨ c = Cmd.prf ∨ c = Cmd.madd ∨ c = Cmd.msub ∨ c = Cmd.ivgen := by
  revert c
  decide

theorem Device.wVal_le (d : Device) : d.wVal ≤ d.nVal := by
  show wOf _ _ ≤ _
  rw [wOf_eq]
  omega

theorem Device.uVal_add_vVal (d : Device) : d.uVal + d.vVal = d.nVal := uOf_add_vOf d.nVal

/-! ### Buffer bytes without a value (R50) -/

/-- The fault of R50: a read of a buffer byte of d that has no value. -/
def UnwrittenFault (d : Device) (f : Fault) : Prop :=
  ∃ b a, f = .unwrittenByte b a ∧ Memory.read (d.buf b) a = none

theorem UnwrittenFault.of_keeps {d e : Device} {f : Fault} (h : UnwrittenFault e f) (hb : KeepsBuffers d e)
    (ht : e.tweak = d.tweak) : UnwrittenFault d f := by
  obtain ⟨b, a, hf, hr⟩ := h
  refine ⟨b, a, hf, ?_⟩
  cases b with
  | tweak => rwa [Device.buf_tweak, ht] at hr
  | data => rwa [Device.buf_data, hb.data] at hr
  | opb => rwa [Device.buf_opb, hb.opb] at hr

theorem memRead_error {P : Params} {d : Device} {b : Buf} {a n : Nat} {f : Fault} (hn : a + n ≤ Params.size P b)
    (h : memRead P d b a n = .error f) : UnwrittenFault d f := by
  unfold memRead at h
  rw [if_pos hn] at h
  obtain ⟨p, hf, -, -, hr⟩ := Memory.readBytes_error h
  exact ⟨b, p, hf, hr⟩

/-- The scan fails only at an index that has no value. -/
theorem scanFrom_error_read {bf : Buf} {m : Memory} {r a n : Nat} {f : Fault} (h : scanFrom bf m r a n = .error f) :
    ∃ p, f = .unwrittenByte bf p ∧ Memory.read m p = none := by
  induction n generalizing a with
  | zero => cases h
  | succ n ih =>
    unfold scanFrom at h
    split at h
    · cases h; exact ⟨a, rfl, ‹_›⟩
    · split at h
      · exact ih h
      · cases h

theorem scanBuf_error {P : Params} {d : Device} {bf : Buf} {n : Nat} {f : Fault} (hn : n ≤ Params.size P bf)
    (h : scanBuf P d bf n = .error f) : UnwrittenFault d f := by
  unfold scanBuf at h
  rw [if_pos hn] at h
  split at h
  · rename_i hs
    cases h
    obtain ⟨p, hf, hr⟩ := scanFrom_error_read hs
    exact ⟨bf, p, hf, hr⟩
  · cases h
  · cases h

theorem symbolScan_error {P : Params} {d : Device} {f : Fault} (hn : d.nVal ≤ P.nMax)
    (h : symbolScan P d = .error f) : UnwrittenFault d f := by
  unfold symbolScan at h
  split at h
  · exact scanBuf_error hn h
  split at h
  · split at h
    · cases h; exact scanBuf_error hn ‹_›
    · cases h
    · exact scanBuf_error hn h
  split at h
  · exact scanBuf_error (bf := .data) (d.wVal_le.trans hn) h
  · cases h

/-- CHECK fails only where its scan does (R221). -/
theorem checkStep_error {P : Params} {d : Device} {f : Fault} (h : checkStep P d = .error f) :
    registerError P d = none ∧ symbolScan P d = .error f := by
  unfold checkStep at h
  split at h
  · cases h
  · split at h
    · cases h; exact ⟨‹_›, ‹_›⟩
    · cases h
    · cases h

/-! ### What the passed scan says of the operands (R173, R221) -/

/-- Bytes read below the end of a passed scan are digits of the radix. -/
theorem digits_lt_of_scan {P : Params} {d : Device} {bf : Buf} {n a c : Nat} {vs : List Byte}
    (hn : n ≤ Params.size P bf) (hs : scanBuf P d bf n = .ok none) (hm : memRead P d bf a c = .ok vs)
    (hac : a + c ≤ n) : ∀ x ∈ digitsOf vs, x < d.rVal := by
  obtain ⟨hl, hv⟩ := (Memory.readBytes_ok_iff ..).mp (memRead_ok hm).2
  intro x hx
  obtain ⟨v, hmem, rfl⟩ := List.mem_map.mp hx
  obtain ⟨p, hp, rfl⟩ := List.getElem_of_mem hmem
  obtain ⟨w, hw, hlt⟩ := (scanBuf_none_iff hn).mp hs (a + p) (by omega)
  rw [hv p hp, Option.some.injEq] at hw
  rwa [hw]

theorem length_of_memRead {P : Params} {d : Device} {b : Buf} {a n : Nat} {vs : List Byte}
    (h : memRead P d b a n = .ok vs) : (digitsOf vs).length = n := by
  obtain ⟨hl, -⟩ := (Memory.readBytes_ok_iff ..).mp (memRead_ok h).2
  simpa [digitsOf] using hl

/-- The scan of ENC and DEC is over DATA[0 ..< n]. -/
theorem symbolScan_of_feistel {P : Params} {d : Device} (hc : d.cmd = Cmd.enc ∨ d.cmd = Cmd.dec) :
    symbolScan P d = scanBuf P d .data d.nVal := if_pos hc

/-- The scan of PRF is over DATA[0 ..< w]. -/
theorem symbolScan_of_prf {P : Params} {d : Device} (hc : d.cmd = Cmd.prf) :
    symbolScan P d = scanBuf P d .data d.wVal := by
  unfold symbolScan
  rw [if_neg (by rw [hc]; decide), if_neg (by rw [hc]; decide), if_pos hc]

/-- The scan of MADD and MSUB passes where DATA[0 ..< n] and OPB[0 ..< n] do. -/
theorem symbolScan_of_pair {P : Params} {d : Device} (hc : d.cmd = Cmd.madd ∨ d.cmd = Cmd.msub)
    (hs : symbolScan P d = .ok none) :
    scanBuf P d .data d.nVal = .ok none ∧ scanBuf P d .opb d.nVal = .ok none := by
  unfold symbolScan at hs
  rw [if_neg (by rcases hc with hc | hc <;> rw [hc] <;> decide), if_pos hc] at hs
  split at hs
  · cases hs
  · cases hs
  · exact ⟨‹_›, hs⟩

/-! ### The numeral of a half fits (R131, R141) -/

theorem le_two_pow_ceilLog2 (x : Nat) : x ≤ 2 ^ ceilLog2 x := by
  unfold ceilLog2
  split
  · simpa using ‹x ≤ 1›
  · have := Nat.lt_log2_self (n := x - 1)
    omega

/-- b bytes hold every value of v digits (R131). -/
theorem pow_vOf_le (n r : Nat) : r ^ vOf n ≤ 256 ^ bOf n r := by
  calc r ^ vOf n ≤ 2 ^ bits (vOf n) r := le_two_pow_ceilLog2 _
    _ ≤ 2 ^ (8 * bOf n r) := Nat.pow_le_pow_right (by omega) (by unfold bOf; omega)
    _ = 256 ^ bOf n r := by rw [pow_mul]; rfl

/-- The numeral of at most v digits is not truncated (R141). -/
theorem num_half_lt {n r : Nat} {h : List Nat} (hr : 0 < r) (hl : h.length ≤ vOf n) (hd : ∀ c ∈ h, c < r) :
    num r h < 256 ^ bOf n r :=
  calc num r h < r ^ h.length := num_lt hd
    _ ≤ r ^ vOf n := Nat.pow_le_pow_right hr hl
    _ ≤ 256 ^ bOf n r := pow_vOf_le n r

theorem sub_mOf_le_vOf (n i : Nat) : n - mOf n i ≤ vOf n := by
  unfold mOf uOf vOf
  split <;> omega

/-- The input half of a round has n − m(i) digits below r (R171, R187). -/
theorem RoundInv.half {d : Device} (h : RoundInv d) :
    d.half.length = d.nVal - d.mVal ∧ ∀ c ∈ d.half, c < d.rVal := by
  unfold Device.half
  rcases h.cmd with hc | hc | hc
  · rw [hc]; exact ⟨(h.encLen hc).2, h.digitsB⟩
  · rw [hc]; exact ⟨(h.decLen hc).2, h.digitsA⟩
  · rw [hc]; exact ⟨h.prfLen hc, h.digitsB⟩

/-- In a round MAC's numeral fits (R141). -/
theorem RoundInv.numeral_fits {d : Device} (h : RoundInv d) (hr : 0 < d.rVal) :
    num d.rVal d.half < 256 ^ d.bVal := by
  obtain ⟨hl, hd⟩ := h.half
  exact num_half_lt hr (hl ▸ sub_mOf_le_vOf d.nVal d.iVal) hd

theorem RoundInv.usesCipher {d : Device} (h : RoundInv d) : usesCipher d.cmd = true := by
  rcases h.cmd with hc | hc | hc <;> rw [hc] <;> decide

/-- MAC's request fails only on a tweak byte that has no value: the block exists, its numeral fits, and the bytes lie
inside the buffer (R60, R141, R147). -/
theorem macIssue_error {P : Params} {d : Device} {f : Fault} (ht : d.tVal ≤ P.tweakMax)
    (hf : num d.rVal d.half < 256 ^ d.bVal) (h1 : 1 ≤ d.k.toNat) (hq : d.k.toNat ≤ d.qVal)
    (h : macIssue P d = .error f) : UnwrittenFault d f := by
  unfold macIssue qBlockBytes at h
  simp only at h
  rw [if_pos ⟨h1, hq⟩, if_pos hf] at h
  split at h
  · rename_i hx
    cases h
    split at hx
    · cases hx
      refine memRead_error ?_ ‹_›
      show _ ≤ P.tweakMax
      omega
    · cases hx
  · cases h

/-! ### The steps a command still takes (R195, R265) -/

/-- The steps of the current cipher call not yet taken: issue, serve, consume (R66). -/
def Port.callSteps : Port → Nat
  | .free => 3
  | .req _ _ => 2
  | .rsp _ => 1

/-- The steps of one round: q + e calls, REDUCE, and ADD or SUB. -/
def Device.roundSteps (d : Device) : Nat := 3 * (d.qVal + d.eVal) + 2

/-- The rounds that follow the current one (R176, R177). -/
def Device.roundsLeft (d : Device) : Nat :=
  if d.cmd = Cmd.enc then 9 - d.iVal else if d.cmd = Cmd.dec then d.iVal else 0

/-- The steps after the current round: the rounds that follow it, and WRITEBACK. -/
def Device.tailSteps (d : Device) : Nat := d.roundsLeft * d.roundSteps + 1

/-- A bound on the controller and engine steps up to IDLE. -/
def Device.stepsLeft (d : Device) : Nat :=
  match d.phase with
  | .idle => 0
  | .check => 10 * d.roundSteps + 6
  | .load => 10 * d.roundSteps + 5
  | .hdr => d.port.callSteps + d.roundSteps + d.tailSteps
  | .mac => d.port.callSteps + 3 * (d.qVal - d.k.toNat) + 3 * d.eVal + 2 + d.tailSteps
  | .expand => d.port.callSteps + 3 * (d.eVal - d.j.toNat) + 2 + d.tailSteps
  | .reduce => 2 + d.tailSteps
  | .add => 1 + d.tailSteps
  | .sub => 1 + d.tailSteps
  | .writeback => 1

theorem Device.one_le_stepsLeft {d : Device} (h : d.phase ≠ .idle) : 1 ≤ d.stepsLeft := by
  cases hph : d.phase with
  | idle => exact absurd hph h
  | _ =>
    simp only [stepsLeft, tailSteps, hph]
    omega

theorem Device.stepsLeft_idle {d : Device} (h : d.phase = .idle) : d.stepsLeft = 0 := by simp [stepsLeft, h]

theorem Device.stepsLeft_check {d : Device} (h : d.phase = .check) : d.stepsLeft = 10 * d.roundSteps + 6 := by
  simp [stepsLeft, h]

theorem Device.stepsLeft_load {d : Device} (h : d.phase = .load) : d.stepsLeft = 10 * d.roundSteps + 5 := by
  simp [stepsLeft, h]

theorem Device.stepsLeft_hdr {d : Device} (h : d.phase = .hdr) :
    d.stepsLeft = d.port.callSteps + d.roundSteps + d.tailSteps := by simp [stepsLeft, h]

theorem Device.stepsLeft_mac {d : Device} (h : d.phase = .mac) :
    d.stepsLeft = d.port.callSteps + 3 * (d.qVal - d.k.toNat) + 3 * d.eVal + 2 + d.tailSteps := by simp [stepsLeft, h]

theorem Device.stepsLeft_expand {d : Device} (h : d.phase = .expand) :
    d.stepsLeft = d.port.callSteps + 3 * (d.eVal - d.j.toNat) + 2 + d.tailSteps := by simp [stepsLeft, h]

theorem Device.stepsLeft_reduce {d : Device} (h : d.phase = .reduce) : d.stepsLeft = 2 + d.tailSteps := by
  simp [stepsLeft, h]

theorem Device.stepsLeft_add {d : Device} (h : d.phase = .add) : d.stepsLeft = 1 + d.tailSteps := by
  simp [stepsLeft, h]

theorem Device.stepsLeft_sub {d : Device} (h : d.phase = .sub) : d.stepsLeft = 1 + d.tailSteps := by
  simp [stepsLeft, h]

theorem Device.stepsLeft_writeback {d : Device} (h : d.phase = .writeback) : d.stepsLeft = 1 := by
  simp [stepsLeft, h]

/-- At most nine rounds follow a round. -/
theorem Device.tailSteps_le {d : Device} (h : d.i.toNat ≤ 9) : d.tailSteps ≤ 9 * d.roundSteps + 1 := by
  have hl : d.roundsLeft ≤ 9 := by
    unfold roundsLeft Device.iVal
    split_ifs <;> omega
  have := Nat.mul_le_mul_right d.roundSteps hl
  unfold tailSteps
  omega

/-- A command at its START has the step count of R195 and R265 ahead of it. -/
theorem stepsLeft_start (c rd : BitVec 4) (d : Device) :
    (d.start c rd).stepsLeft = commandBound d.nVal d.rVal d.tVal := by
  have h : (d.start c rd).stepsLeft = 10 * d.roundSteps + 6 := Device.stepsLeft_check rfl
  rw [h]
  unfold Device.roundSteps commandBound Device.qVal Device.eVal
  omega

end Sys2Proof.Machine
end

section
/-! The invariant of the reachable states and the controller's table (42_feistel_controller R194): every controller or
engine step of a running command either reads a buffer byte nothing has written (10_state R50), or leaves a state of the
invariant with fewer steps to go. -/
namespace Sys2Proof.Machine

/-! ### Updates that keep the invariant -/

/-- What holds in each phase is not about the port, the flags, INTEN and CIPHCNT. -/
theorem PhaseInv.touch {P : Params} {d : Device} (h : PhaseInv P d) (port : Port) (done err wbusy : Bool)
    (inten : BitVec 3) (ciphcnt : BitVec 32) :
    PhaseInv P { d with
      port := port, done := done, err := err, wbusy := wbusy, inten := inten, ciphcnt := ciphcnt } := by
  cases hph : d.phase <;> simp only [PhaseInv, hph] at h ⊢
  case load => exact h
  case hdr => exact h.imp_right fun r => { r with }
  case mac => exact ⟨{ h.1 with }, h.2⟩
  case expand => exact ⟨{ h.1 with }, h.2⟩
  case reduce => exact ⟨{ h.1 with }, h.2⟩
  case add => exact h.imp (fun ⟨c, p⟩ => ⟨c, { p with }⟩) fun ⟨c, r, f⟩ => ⟨c, { r with }, f⟩
  case sub => exact h.imp (fun ⟨c, p⟩ => ⟨c, { p with }⟩) fun ⟨c, r, f⟩ => ⟨c, { r with }, f⟩
  case writeback => exact h

/-- Neither is the invariant, but that a request needs a phase that makes one (R194). -/
theorem DevInv.touch {P : Params} {d : Device} (h : DevInv P d) {port : Port}
    (hp : port ≠ .free → d.phase = .hdr ∨ d.phase = .mac ∨ d.phase = .expand) (done err wbusy : Bool)
    (inten : BitVec 3) (ciphcnt : BitVec 32) :
    DevInv P { d with
      port := port, done := done, err := err, wbusy := wbusy, inten := inten, ciphcnt := ciphcnt } :=
  { h with portFree := hp, phaseInv := h.phaseInv.touch port done err wbusy inten ciphcnt }

/-- The cipher's request, and no change but to CIPHCNT (R66). -/
theorem DevInv.issue {P : Params} {d : Device} (h : DevInv P d)
    (hph : d.phase = .hdr ∨ d.phase = .mac ∨ d.phase = .expand) (x : Block) : DevInv P (d.issue x) :=
  h.touch (fun _ => hph) d.done d.err d.wbusy d.inten (d.ciphcnt + 1)

/-- The engine's answer (R66). -/
theorem DevInv.serve {P : Params} {d : Device} (h : DevInv P d) (a : EngineDraw) : DevInv P (d.serve P a) := by
  unfold Device.serve
  split
  · rename_i hp
    exact h.touch (fun _ => h.portFree (by rw [hp]; simp)) d.done d.err d.wbusy d.inten d.ciphcnt
  · exact h
  · exact h

/-- The end of a command, successful or not (R179, R222). -/
theorem DevInv.ended {P : Params} {d e : Device} (h : DevInv P d) (hk : KeepsHostState d e) (hb : KeepsBuffers d e)
    (hi : e.i = d.i) (hph : e.phase = .idle) (hp : e.port = .free) (he : e.errcode ≠ .overflow) : DevInv P e where
  tweakOk := hk.tweak ▸ h.tweakOk
  dataOk := hb.data ▸ h.dataOk
  opbOk := hb.opb ▸ h.opbOk
  roundLe := hi ▸ h.roundLe
  noOverflow := he
  portFree hn := absurd hp hn
  checked hn := absurd hph hn
  phaseInv := by simp only [PhaseInv, hph]

/-- A device a running command goes on from, with no request outstanding. -/
theorem DevInv.running {P : Params} {d e : Device} (h : DevInv P d) (hr : registerError P d = none)
    (hk : KeepsHostState d e) (hb : KeepsBuffers d e) (hi : e.i.toNat ≤ 9) (he : e.errcode = d.errcode)
    (hp : e.port = .free) (hph : PhaseInv P e) : DevInv P e where
  tweakOk := hk.tweak ▸ h.tweakOk
  dataOk := hb.data ▸ h.dataOk
  opbOk := hb.opb ▸ h.opbOk
  roundLe := hi
  noOverflow := he ▸ h.noOverflow
  portFree hn := absurd hp hn
  checked _ _ := (registerError_keeps hk).trans hr
  phaseInv := hph

theorem BufOk.writeBytes {size : Nat} {m : Memory} {a : Nat} {vs : List Byte} (h : BufOk size m)
    (ha : a + vs.length ≤ size) : BufOk size (Memory.writeBytes m a vs) :=
  ⟨Memory.wf_writeBytes a vs h.1, Memory.below_writeBytes vs h.2 ha⟩

theorem DevInv.bufOk {P : Params} {d : Device} (h : DevInv P d) (b : Buf) : BufOk (Params.size P b) (d.buf b) := by
  cases b
  · exact h.tweakOk
  · exact h.dataOk
  · exact h.opbOk

theorem Device.setBuf_complete (d : Device) (b : Buf) (m : Memory) :
    (d.setBuf b m).complete = d.complete.setBuf b m := by cases b <;> rfl

/-- Idle, a buffer may take any contents in canonical form and inside its size. -/
theorem DevInv.setBuf {P : Params} {d : Device} (h : DevInv P d) (hph : d.phase = .idle) {b : Buf} {m : Memory}
    (hm : BufOk (Params.size P b) m) : DevInv P (d.setBuf b m) := by
  have hinv (e : Device) (he : e.phase = .idle) : PhaseInv P e := by simp only [PhaseInv, he]
  cases b
  · exact { h with tweakOk := hm, checked := fun hi => absurd hph hi, phaseInv := hinv _ hph }
  · exact { h with dataOk := hm, checked := fun hi => absurd hph hi, phaseInv := hinv _ hph }
  · exact { h with opbOk := hm, checked := fun hi => absurd hph hi, phaseInv := hinv _ hph }

/-! ### What the invariant says in each phase -/

section Phase
variable {P : Params} {d : Device}

theorem PhaseInv.load (h : PhaseInv P d) (hph : d.phase = .load) :
    d.cmd ≠ Cmd.ivgen ∧ symbolScan P d = .ok none := by simpa only [PhaseInv, hph] using h

theorem PhaseInv.hdr (h : PhaseInv P d) (hph : d.phase = .hdr) : d.cmd = Cmd.ivgen ∨ RoundInv d := by
  simpa only [PhaseInv, hph] using h

theorem PhaseInv.mac (h : PhaseInv P d) (hph : d.phase = .mac) :
    RoundInv d ∧ 1 ≤ d.k.toNat ∧ d.k.toNat ≤ d.qVal := by simpa only [PhaseInv, hph] using h

theorem PhaseInv.expand (h : PhaseInv P d) (hph : d.phase = .expand) :
    RoundInv d ∧ 1 ≤ d.j.toNat ∧ d.j.toNat ≤ d.eVal ∧ d.strm.length = 16 * d.j.toNat := by
  simpa only [PhaseInv, hph] using h

theorem PhaseInv.reduce (h : PhaseInv P d) (hph : d.phase = .reduce) :
    RoundInv d ∧ d.strm.length = 16 * (d.eVal + 1) := by simpa only [PhaseInv, hph] using h

theorem PhaseInv.add (h : PhaseInv P d) (hph : d.phase = .add) :
    (d.cmd = Cmd.madd ∧ PairInv d) ∨ (d.cmd = Cmd.enc ∧ RoundInv d ∧ HasF d) := by
  simpa only [PhaseInv, hph] using h

theorem PhaseInv.sub (h : PhaseInv P d) (hph : d.phase = .sub) :
    (d.cmd = Cmd.msub ∧ PairInv d) ∨ (d.cmd = Cmd.dec ∧ RoundInv d ∧ HasF d) := by
  simpa only [PhaseInv, hph] using h

theorem PhaseInv.writeback (h : PhaseInv P d) (hph : d.phase = .writeback) :
    ((d.cmd = Cmd.enc ∨ d.cmd = Cmd.dec) ∧ d.regA.length + d.regB.length = d.nVal) ∨
      (d.cmd = Cmd.prf ∧ HasF d) ∨ ((d.cmd = Cmd.madd ∨ d.cmd = Cmd.msub) ∧ d.regA.length = d.nVal) := by
  simpa only [PhaseInv, hph] using h

end Phase

/-! ### Progress -/

/-- e is where a step from d may lead: in the invariant, with fewer steps to go, and with DATA and OPB as they were
while the command runs (R223). -/
structure Advances (P : Params) (d e : Device) : Prop where
  inv : DevInv P e
  fewer : e.stepsLeft < d.stepsLeft
  buffers : e.phase ≠ .idle → KeepsBuffers d e

/-- What a step of a running command answers: an advance, or the fault of R50 and no other. -/
def Progress (P : Params) (d : Device) (x : Except Fault Device) : Prop :=
  match x with
  | .error f => UnwrittenFault d f
  | .ok e => Advances P d e

theorem Advances.ended {P : Params} {d e : Device} (he : DevInv P e) (hd : d.phase ≠ .idle) (hi : e.phase = .idle) :
    Advances P d e where
  inv := he
  fewer := by rw [Device.stepsLeft_idle hi]; exact Device.one_le_stepsLeft hd
  buffers hn := absurd hi hn

/-- The command goes on, with no request outstanding. -/
theorem Advances.running {P : Params} {d e : Device} (h : DevInv P d) (hr : registerError P d = none)
    (hk : KeepsHostState d e) (hb : KeepsBuffers d e) (hi : e.i.toNat ≤ 9) (he : e.errcode = d.errcode)
    (hp : e.port = .free) (hph : PhaseInv P e) (hl : e.stepsLeft < d.stepsLeft) : Advances P d e where
  inv := h.running hr hk hb hi he hp hph
  fewer := hl
  buffers _ := hb

/-- HDR is nearer to the end than LOAD. -/
theorem Device.stepsLeft_hdr_lt {e : Device} (he : e.phase = .hdr) (hp : e.port = .free) (hi : e.i.toNat ≤ 9) :
    e.stepsLeft < 10 * e.roundSteps + 5 := by
  have := e.tailSteps_le hi
  rw [stepsLeft_hdr he, hp]
  simp only [Port.callSteps]
  omega

/-- The length of a round is the operands'. -/
theorem KeepsHostState.roundSteps {d e : Device} (h : KeepsHostState d e) : e.roundSteps = d.roundSteps := by
  unfold Device.roundSteps Device.qVal Device.eVal Device.nVal Device.rVal Device.tVal
  rw [h.len, h.radix, h.tlen]

/-- A 16-bit counter below a bound that fits counts on. -/
theorem toNat_succ {x : BitVec 16} {q : Nat} (h : x.toNat < q) (hq : q < 2 ^ 16) : (x + 1).toNat = x.toNat + 1 := by
  rw [BitVec.toNat_add]
  exact Nat.mod_eq_of_lt (by change x.toNat + 1 < 2 ^ 16; omega)

/-- The first block of the next round is nearer to the end than the ADD or SUB before it. -/
theorem Device.stepsLeft_nextRound {d e : Device} (hph : e.phase = .mac) (hp : e.port = .free) (hk : e.k = 1)
    (hs : e.roundSteps = d.roundSteps) (hl : d.roundsLeft = e.roundsLeft + 1) : e.stepsLeft < 1 + d.tailSteps := by
  have hq : 1 ≤ e.qVal := one_le_qOf ..
  have hone : e.k.toNat = 1 := by rw [hk]; rfl
  have he : e.stepsLeft = e.roundSteps + e.tailSteps := by
    rw [stepsLeft_mac hph, hp, hone]
    unfold roundSteps
    simp only [Port.callSteps]
    omega
  rw [he, tailSteps, tailSteps, hl, hs, Nat.succ_mul]
  omega

theorem Device.roundsLeft_enc {d : Device} (hc : d.cmd = Cmd.enc) : d.roundsLeft = 9 - d.iVal := if_pos hc

theorem Device.roundsLeft_dec {d : Device} (hc : d.cmd = Cmd.dec) : d.roundsLeft = d.iVal := by
  unfold roundsLeft
  rw [if_neg (by rw [hc]; decide), if_pos hc]

theorem mOf_zero (n : Nat) : mOf n 0 = uOf n := rfl

theorem mOf_nine (n : Nat) : mOf n 9 = vOf n := rfl

section Row
variable {P : Params} {d : Device}

/-- Outside the phases that make requests the port is free (R194). -/
theorem DevInv.port_free (h : DevInv P d) (hph : ¬ (d.phase = .hdr ∨ d.phase = .mac ∨ d.phase = .expand)) :
    d.port = .free := by
  by_contra hp
  exact hph (h.portFree hp)

/-- A command past CHECK has legal registers. -/
theorem DevInv.registers (h : DevInv P d) (hi : d.phase ≠ .idle) (hc : d.phase ≠ .check) : RegistersPass P d :=
  registersPass_of_registerError (h.checked hi hc)

theorem RegistersPass.radix_pos (h : RegistersPass P d) : 0 < d.rVal := by have := h.radix.1; omega

theorem RegistersPass.qVal_lt (h : RegistersPass P d) : d.qVal < 2 ^ 16 :=
  qOf_lt (by have := h.radix.2; omega) d.nVal_lt d.tVal_lt

theorem RegistersPass.eVal_lt (h : RegistersPass P d) : d.eVal < 2 ^ 16 :=
  eOf_lt (by have := h.radix.2; omega) d.nVal_lt

theorem DevInv.raise (h : DevInv P d) (hp : d.port = .free) {c : ErrorCode} (hc : c ≠ .overflow) (x : BitVec 17) :
    DevInv P (d.raise c x) :=
  h.ended (raise_keeps c x d) ⟨rfl, rfl⟩ rfl rfl hp hc

/-- Fail ends the command with CIPHER_FAILURE (R222). -/
theorem DevInv.cipherFailure (h : DevInv P d) : DevInv P (d.freePort.raise .cipherFailure 0) :=
  h.ended { KeepsHostState.refl d with } ⟨rfl, rfl⟩ rfl rfl rfl (by simp)

/-- CHECK (R172): an error, the end of a command over nothing, LOAD, or HDR of IVGEN. -/
theorem checkStep_progress (h : DevInv P d) (hph : d.phase = .check) (hp : d.port = .free) :
    Progress P d (checkStep P d) := by
  have hbusy : d.phase ≠ .idle := by simp [hph]
  have hleft := Device.stepsLeft_check hph
  cases hx : checkStep P d with
  | error f =>
    obtain ⟨hr, hs⟩ := checkStep_error hx
    exact symbolScan_error (registersPass_of_registerError hr).len hs
  | ok e =>
    obtain ⟨c, hc, rfl⟩ | ⟨-, x, -, rfl⟩ | ⟨hr, hs, rfl⟩ := checkStep_ok hx
    · exact .ended (h.raise hp (registerError_ne_overflow hc) 0) hbusy rfl
    · exact .ended (h.raise hp (by simp) x) hbusy rfl
    · unfold checkPassed
      split
      · exact .ended (h.ended (complete_keeps d) ⟨rfl, rfl⟩ rfl rfl hp (by simp)) hbusy rfl
      split
      · refine .running h hr { KeepsHostState.refl d with } ⟨rfl, rfl⟩ h.roundLe rfl hp (.inl ‹_›) ?_
        have he : Device.stepsLeft { d with phase := .hdr } < 10 * d.roundSteps + 5 :=
          Device.stepsLeft_hdr_lt rfl hp h.roundLe
        omega
      · refine .running h hr { KeepsHostState.refl d with } ⟨rfl, rfl⟩ h.roundLe rfl hp ⟨‹_›, hs⟩ ?_
        have he : Device.stepsLeft { d with phase := .load } = 10 * d.roundSteps + 5 := Device.stepsLeft_load rfl
        omega

/-! #### LOAD (R173) -/

theorem loadSplit_error {f : Fault} (hn : d.nVal ≤ P.nMax) (h : loadSplit P d = .error f) : UnwrittenFault d f := by
  have hsplit := d.uVal_add_vVal
  unfold loadSplit at h
  split at h
  · cases h
    exact memRead_error (b := .data) (by show 0 + d.uVal ≤ P.nMax; omega) ‹_›
  · split at h
    · cases h
      exact memRead_error (b := .data) (by show d.uVal + d.vVal ≤ P.nMax; omega) ‹_›
    · cases h

theorem loadPrf_error {f : Fault} (hn : d.nVal ≤ P.nMax) (h : loadPrf P d = .error f) : UnwrittenFault d f := by
  have hw := d.wVal_le
  unfold loadPrf at h
  split at h
  · cases h
    exact memRead_error (b := .data) (by show 0 + d.wVal ≤ P.nMax; omega) ‹_›
  · cases h

theorem loadPair_error {ph : Phase} {f : Fault} (hn : d.nVal ≤ P.nMax) (h : loadPair P ph d = .error f) :
    UnwrittenFault d f := by
  unfold loadPair at h
  split at h
  · cases h
    exact memRead_error (b := .data) (by show 0 + d.nVal ≤ P.nMax; omega) ‹_›
  · split at h
    · cases h
      exact memRead_error (b := .opb) (by show 0 + d.nVal ≤ P.nMax; omega) ‹_›
    · cases h

/-- LOAD of ENC and DEC puts the halves in place: u digits in A for round 0, v in B for round 9 (R187). -/
theorem roundInv_of_loadSplit {i : BitVec 4} {e : Device} (hn : d.nVal ≤ P.nMax) (hs : symbolScan P d = .ok none)
    (hc : (d.cmd = Cmd.enc ∧ i.toNat = 0) ∨ (d.cmd = Cmd.dec ∧ i.toNat = 9))
    (h : loadSplit P { d with i := i } = .ok e) : RoundInv e := by
  obtain ⟨a, b, ha, hb, rfl⟩ := loadSplit_ok h
  have hsplit := d.uVal_add_vVal
  rw [symbolScan_of_feistel (hc.imp And.left And.left)] at hs
  have lenA : (digitsOf a).length = d.uVal := length_of_memRead ha
  have lenB : (digitsOf b).length = d.vVal := length_of_memRead hb
  refine {
    cmd := hc.elim (fun h => .inl h.1) fun h => .inr (.inl h.1), encLen := fun he => ?_, decLen := fun he => ?_
    prfLen := fun he => ?_
    digitsA := digits_lt_of_scan (d := d) (bf := .data) hn hs ha (by show 0 + d.uVal ≤ d.nVal; omega)
    digitsB := digits_lt_of_scan (d := d) (bf := .data) hn hs hb (by show d.uVal + d.vVal ≤ d.nVal; omega) }
  · obtain ⟨-, hi⟩ | ⟨hc, -⟩ := hc
    · show (digitsOf a).length = mOf d.nVal i.toNat ∧ (digitsOf b).length = d.nVal - mOf d.nVal i.toNat
      rw [hi, mOf_zero]
      exact ⟨lenA, by change _ = _ - d.uVal; omega⟩
    · exact absurd (hc.symm.trans he) (by decide)
  · obtain ⟨hc, -⟩ | ⟨-, hi⟩ := hc
    · exact absurd (hc.symm.trans he) (by decide)
    · show (digitsOf b).length = mOf d.nVal i.toNat ∧ (digitsOf a).length = d.nVal - mOf d.nVal i.toNat
      rw [hi, mOf_nine]
      exact ⟨lenB, by change _ = _ - d.vVal; omega⟩
  · obtain ⟨hc, -⟩ | ⟨hc, -⟩ := hc <;> exact absurd (hc.symm.trans he) (by decide)

/-- LOAD of PRF puts the input half of round ROUND in B (R182). -/
theorem roundInv_of_loadPrf {e : Device} (hn : d.nVal ≤ P.nMax) (hs : symbolScan P d = .ok none)
    (hc : d.cmd = Cmd.prf) (h : loadPrf P d = .ok e) : RoundInv e := by
  obtain ⟨b, hb, rfl⟩ := loadPrf_ok h
  rw [symbolScan_of_prf hc] at hs
  exact {
    cmd := .inr (.inr hc)
    encLen := fun he => absurd (hc.symm.trans he) (by decide)
    decLen := fun he => absurd (hc.symm.trans he) (by decide)
    prfLen := fun _ => (length_of_memRead hb).trans (wOf_eq ..)
    digitsA := fun c hm => absurd hm (List.not_mem_nil)
    digitsB := digits_lt_of_scan (d := d) (bf := .data) (d.wVal_le.trans hn) hs hb (by omega) }

/-- LOAD of MADD and MSUB puts both operands in place (R173). -/
theorem pairInv_of_loadPair {ph : Phase} {e : Device} (hn : d.nVal ≤ P.nMax) (hs : symbolScan P d = .ok none)
    (hc : d.cmd = Cmd.madd ∨ d.cmd = Cmd.msub) (h : loadPair P ph d = .ok e) : PairInv e := by
  obtain ⟨a, b, ha, hb, rfl⟩ := loadPair_ok h
  obtain ⟨sd, so⟩ := symbolScan_of_pair hc hs
  exact {
    lenA := length_of_memRead ha
    lenF := length_of_memRead hb
    digitsA := digits_lt_of_scan (d := d) (bf := .data) hn sd ha (by omega)
    digitsF := digits_lt_of_scan (d := d) (bf := .opb) hn so hb (by omega) }

/-- LOAD of a round command, once its registers are in place. -/
theorem Advances.hdr_of_load {e : Device} (h : DevInv P d) (hph : d.phase = .load) (hk : KeepsHostState d e)
    (hb : KeepsBuffers d e) (hi : e.i.toNat ≤ 9) (he : e.errcode = d.errcode) (hp : e.port = .free)
    (heph : e.phase = .hdr) (hr : RoundInv e) : Advances P d e := by
  refine .running h (h.checked (by simp [hph]) (by simp [hph])) hk hb hi he hp
    (by simpa only [PhaseInv, heph] using .inr hr) ?_
  rw [Device.stepsLeft_load hph, ← hk.roundSteps]
  exact Device.stepsLeft_hdr_lt heph hp hi

/-- LOAD of MADD and MSUB, once both operands are in place. -/
theorem Advances.pair_of_load {e : Device} (h : DevInv P d) (hph : d.phase = .load) (hk : KeepsHostState d e)
    (hb : KeepsBuffers d e) (hi : e.i = d.i) (he : e.errcode = d.errcode) (hp : e.port = .free) (hpair : PairInv e)
    (heph : (d.cmd = Cmd.madd ∧ e.phase = .add) ∨ (d.cmd = Cmd.msub ∧ e.phase = .sub)) : Advances P d e := by
  have hleft := Device.stepsLeft_load hph
  have hrs := hk.roundSteps
  have hi9 : e.i.toNat ≤ 9 := hi ▸ h.roundLe
  have ht := Device.tailSteps_le hi9
  have hinv : PhaseInv P e := by
    obtain ⟨hc, heph⟩ | ⟨hc, heph⟩ := heph <;>
      simpa only [PhaseInv, heph] using .inl ⟨hk.cmd.trans hc, hpair⟩
  have hsteps : e.stepsLeft = 1 + e.tailSteps :=
    heph.elim (fun h => Device.stepsLeft_add h.2) fun h => Device.stepsLeft_sub h.2
  exact .running h (h.checked (by simp [hph]) (by simp [hph])) hk hb hi9 he hp hinv (by omega)

/-- LOAD (R173): the operands in place, and HDR, ADD or SUB next. -/
theorem loadStep_progress (h : DevInv P d) (hph : d.phase = .load) (hp : d.port = .free) :
    Progress P d (loadStep P d) := by
  obtain ⟨hivgen, hs⟩ := h.phaseInv.load hph
  have hreg := h.registers (by simp [hph]) (by simp [hph])
  have hn := hreg.len
  have hcmd := isCommand_cases hreg.command
  cases hx : loadStep P d with
  | error f =>
    unfold loadStep at hx
    split_ifs at hx
    · exact loadSplit_error (d := { d with i := 0 }) hn hx
    · exact loadSplit_error (d := { d with i := 9 }) hn hx
    · exact loadPrf_error hn hx
    · exact loadPair_error hn hx
    · exact loadPair_error hn hx
    · simp_all
  | ok e =>
    obtain ⟨hk, hb⟩ := loadStep_keeps hx
    unfold loadStep at hx
    split_ifs at hx with henc hdec hprf hmadd hmsub
    · have hr := roundInv_of_loadSplit hn hs (.inl ⟨henc, rfl⟩) hx
      obtain ⟨a, b, -, -, rfl⟩ := loadSplit_ok hx
      exact .hdr_of_load h hph hk hb (Nat.zero_le 9) rfl hp rfl hr
    · have hr := roundInv_of_loadSplit hn hs (.inr ⟨hdec, rfl⟩) hx
      obtain ⟨a, b, -, -, rfl⟩ := loadSplit_ok hx
      exact .hdr_of_load h hph hk hb (le_refl 9) rfl hp rfl hr
    · have hr := roundInv_of_loadPrf hn hs hprf hx
      obtain ⟨b, -, rfl⟩ := loadPrf_ok hx
      exact .hdr_of_load h hph hk hb (hreg.prfRound hprf) rfl hp rfl hr
    · have hpair := pairInv_of_loadPair hn hs (.inl hmadd) hx
      obtain ⟨a, b, -, -, rfl⟩ := loadPair_ok hx
      exact .pair_of_load h hph hk hb rfl rfl hp hpair (.inl ⟨hmadd, rfl⟩)
    · have hpair := pairInv_of_loadPair hn hs (.inr hmsub) hx
      obtain ⟨a, b, -, -, rfl⟩ := loadPair_ok hx
      exact .pair_of_load h hph hk hb rfl rfl hp hpair (.inr ⟨hmsub, rfl⟩)

/-! #### Cipher calls: HDR, MAC, EXPAND (R145 to R150) -/

/-- A cipher call gone one step on (R66). -/
theorem Device.stepsLeft_call (hph : d.phase = .hdr ∨ d.phase = .mac ∨ d.phase = .expand) {p : Port}
    (c : BitVec 32) (hp : p.callSteps < d.port.callSteps) :
    Device.stepsLeft { d with port := p, ciphcnt := c } < d.stepsLeft := by
  obtain hph | hph | hph := hph
  · rw [stepsLeft_hdr hph, stepsLeft_hdr (by exact hph)]
    change p.callSteps + d.roundSteps + d.tailSteps < _
    omega
  · rw [stepsLeft_mac hph, stepsLeft_mac (by exact hph)]
    change p.callSteps + 3 * (d.qVal - d.k.toNat) + 3 * d.eVal + 2 + d.tailSteps < _
    omega
  · rw [stepsLeft_expand hph, stepsLeft_expand (by exact hph)]
    change p.callSteps + 3 * (d.eVal - d.j.toNat) + 2 + d.tailSteps < _
    omega

theorem Device.waiting_iff : d.waiting = true ↔ ∃ key x, d.port = .req key x := by
  cases hp : d.port <;> simp [Device.waiting, hp]

/-- An issue step brings the call one step on (R66). -/
theorem Advances.issue (h : DevInv P d) (hph : d.phase = .hdr ∨ d.phase = .mac ∨ d.phase = .expand)
    (hp : d.port = .free) (x : Block) : Advances P d (d.issue x) where
  inv := h.issue hph x
  fewer := Device.stepsLeft_call hph _ (by rw [hp]; simp [Port.callSteps])
  buffers _ := ⟨rfl, rfl⟩

/-- HDR's answer: the end of IVGEN, or MAC of the first round (R146). -/
theorem hdrConsume_progress (h : DevInv P d) (hph : d.phase = .hdr) {res : CipherResult} (hp : d.port = .rsp res) :
    Advances P d (hdrConsume res d) := by
  have hbusy : d.phase ≠ .idle := by simp [hph]
  unfold hdrConsume
  split
  · exact .ended h.cipherFailure hbusy rfl
  · rename_i z
    split
    · exact .ended (h.ended { KeepsHostState.refl d with } ⟨rfl, rfl⟩ rfl rfl rfl (by simp)) hbusy rfl
    · rename_i hcmd
      have hr := (h.phaseInv.hdr hph).resolve_left hcmd
      have hq : 1 ≤ d.qVal := one_le_qOf ..
      refine .running h (h.checked hbusy (by simp [hph])) { KeepsHostState.refl d with } ⟨rfl, rfl⟩ h.roundLe rfl rfl
        ⟨{ hr with }, le_refl 1, hq⟩ ?_
      rw [Device.stepsLeft_hdr hph, Device.stepsLeft_mac rfl, hp]
      change 3 + 3 * (d.qVal - 1) + 3 * d.eVal + 2 + d.tailSteps < 1 + d.roundSteps + d.tailSteps
      unfold Device.roundSteps
      omega

/-- MAC's request (R147): the tweak bytes it reads are written, or it meets one that is not. -/
theorem macIssue_progress (h : DevInv P d) (hph : d.phase = .mac) (hp : d.port = .free) :
    Progress P d (macIssue P d) := by
  obtain ⟨hr, h1, hq⟩ := h.phaseInv.mac hph
  have hreg := h.registers (by simp [hph]) (by simp [hph])
  cases hx : macIssue P d with
  | error f => exact macIssue_error (hreg.tlen hr.usesCipher) (hr.numeral_fits hreg.radix_pos) h1 hq hx
  | ok e =>
    obtain ⟨s, -, rfl⟩ := macIssue_ok hx
    exact .issue h (.inr (.inl hph)) hp _

/-- MAC's answer: the next block, REDUCE, or EXPAND (R148). -/
theorem macConsume_progress (h : DevInv P d) (hph : d.phase = .mac) {res : CipherResult} (hp : d.port = .rsp res) :
    Advances P d (macConsume res d) := by
  have hbusy : d.phase ≠ .idle := by simp [hph]
  have hchecked := h.checked hbusy (by simp [hph])
  obtain ⟨hr, h1, hq⟩ := h.phaseInv.mac hph
  have hleft : d.stepsLeft = 1 + 3 * (d.qVal - d.k.toNat) + 3 * d.eVal + 2 + d.tailSteps := by
    rw [Device.stepsLeft_mac hph, hp]; rfl
  unfold macConsume
  split
  · exact .ended h.cipherFailure hbusy rfl
  · rename_i z
    have hlen := length_blockBytes z
    -- only the block's length matters; unfolding its bytes would be costly
    generalize blockBytes z = s at hlen ⊢
    split
    · rename_i hlt
      have hk : (d.k + 1).toNat = d.k.toNat + 1 := toNat_succ hlt (h.registers hbusy (by simp [hph])).qVal_lt
      refine .running h hchecked { KeepsHostState.refl d with } ⟨rfl, rfl⟩ h.roundLe rfl rfl ?_ ?_
      · show PhaseInv P _
        simp only [PhaseInv, Device.freePort, hph]
        exact ⟨{ hr with }, by omega, by change _ ≤ d.qVal; omega⟩
      · rw [Device.stepsLeft_mac (by exact hph)]
        change 3 + 3 * (d.qVal - (d.k + 1).toNat) + 3 * d.eVal + 2 + d.tailSteps < _
        omega
    split
    · rename_i he
      have hs : s.length = 16 * (d.eVal + 1) := by rw [hlen, he]
      refine .running h hchecked { KeepsHostState.refl d with } ⟨rfl, rfl⟩ h.roundLe rfl rfl ⟨{ hr with }, hs⟩ ?_
      rw [Device.stepsLeft_reduce rfl]
      change 2 + d.tailSteps < _
      omega
    · refine .running h hchecked { KeepsHostState.refl d with } ⟨rfl, rfl⟩ h.roundLe rfl rfl
        ⟨{ hr with }, le_refl 1, Nat.one_le_iff_ne_zero.mpr ‹_›, hlen⟩ ?_
      rw [Device.stepsLeft_expand rfl]
      change 3 + 3 * (d.eVal - 1) + 2 + d.tailSteps < _
      omega

/-- EXPAND's answer: the next block, or REDUCE (R150). -/
theorem expandConsume_progress (h : DevInv P d) (hph : d.phase = .expand) {res : CipherResult}
    (hp : d.port = .rsp res) : Advances P d (expandConsume res d) := by
  have hbusy : d.phase ≠ .idle := by simp [hph]
  have hchecked := h.checked hbusy (by simp [hph])
  obtain ⟨hr, h1, hj, hl⟩ := h.phaseInv.expand hph
  have hleft : d.stepsLeft = 1 + 3 * (d.eVal - d.j.toNat) + 2 + d.tailSteps := by
    rw [Device.stepsLeft_expand hph, hp]; rfl
  unfold expandConsume
  split
  · exact .ended h.cipherFailure hbusy rfl
  · rename_i z
    have hlen : (d.strm ++ blockBytes z).length = 16 * (d.j.toNat + 1) := by
      rw [List.length_append, length_blockBytes, hl]; rfl
    split
    · rename_i hlt
      have hk : (d.j + 1).toNat = d.j.toNat + 1 := toNat_succ hlt (h.registers hbusy (by simp [hph])).eVal_lt
      refine .running h hchecked { KeepsHostState.refl d with } ⟨rfl, rfl⟩ h.roundLe rfl rfl ?_ ?_
      · show PhaseInv P _
        simp only [PhaseInv, Device.freePort, hph]
        exact ⟨{ hr with }, by omega, by change _ ≤ d.eVal; omega, by rw [hk]; exact hlen⟩
      · rw [Device.stepsLeft_expand (by exact hph)]
        change 3 + 3 * (d.eVal - (d.j + 1).toNat) + 2 + d.tailSteps < _
        omega
    · refine .running h hchecked { KeepsHostState.refl d with } ⟨rfl, rfl⟩ h.roundLe rfl rfl ⟨{ hr with }, ?_⟩ ?_
      · change (d.strm ++ blockBytes z).length = 16 * (d.eVal + 1)
        rw [hlen]
        omega
      · rw [Device.stepsLeft_reduce rfl]
        change 2 + d.tailSteps < _
        omega

/-! #### REDUCE, ADD, SUB, WRITEBACK (R151, R174 to R178) -/

/-- REDUCE never overflows: F is m(i) digits below r (R111, R140, R151). -/
theorem reduceStep_progress (h : DevInv P d) (hph : d.phase = .reduce) (hp : d.port = .free) :
    Progress P d (reduceStep d) := by
  have hbusy : d.phase ≠ .idle := by simp [hph]
  have hchecked := h.checked hbusy (by simp [hph])
  obtain ⟨hr, -⟩ := h.phaseInv.reduce hph
  have hpos := (h.registers hbusy (by simp [hph])).radix_pos
  rw [reduceStep_eq hpos]
  have hleft := Device.stepsLeft_reduce hph
  have hlen : (str d.rVal d.mVal (num256 (d.strm.take (d.dVal + 4)) % d.rVal ^ d.mVal)).length = d.mVal :=
    length_str ..
  have hdigits : ∀ c ∈ str d.rVal d.mVal (num256 (d.strm.take (d.dVal + 4)) % d.rVal ^ d.mVal), c < d.rVal :=
    fun c => str_digit_lt hpos
  generalize str d.rVal d.mVal (num256 (d.strm.take (d.dVal + 4)) % d.rVal ^ d.mVal) = f at hlen hdigits ⊢
  obtain hc | hc | hc := hr.cmd
  · rw [show afterReduce d.cmd = .add by rw [hc]; rfl]
    refine .running h hchecked { KeepsHostState.refl d with } ⟨rfl, rfl⟩ h.roundLe rfl hp
      (.inr ⟨hc, { hr with }, hlen, hdigits⟩) ?_
    rw [Device.stepsLeft_add rfl, hleft]
    change 1 + d.tailSteps < _
    omega
  · rw [show afterReduce d.cmd = .sub by rw [hc]; rfl]
    refine .running h hchecked { KeepsHostState.refl d with } ⟨rfl, rfl⟩ h.roundLe rfl hp
      (.inr ⟨hc, { hr with }, hlen, hdigits⟩) ?_
    rw [Device.stepsLeft_sub rfl, hleft]
    change 1 + d.tailSteps < _
    omega
  · rw [show afterReduce d.cmd = .writeback by rw [hc]; rfl]
    refine .running h hchecked { KeepsHostState.refl d with } ⟨rfl, rfl⟩ h.roundLe rfl hp
      (.inr (.inl ⟨hc, hlen, hdigits⟩)) ?_
    rw [Device.stepsLeft_writeback rfl, hleft]
    omega

/-- ADD (R174, R176): MADD's sum, the next encryption round, or WRITEBACK after round 9. -/
theorem addStep_progress (h : DevInv P d) (hph : d.phase = .add) (hp : d.port = .free) :
    Progress P d (addStep d) := by
  have hbusy : d.phase ≠ .idle := by simp [hph]
  have hchecked := h.checked hbusy (by simp [hph])
  have hpos := (h.registers hbusy (by simp [hph])).radix_pos
  have hleft := Device.stepsLeft_add hph
  have htail : 1 ≤ d.tailSteps := by unfold Device.tailSteps; omega
  obtain ⟨hc, hpair⟩ | ⟨hc, hr, hF⟩ := h.phaseInv.add hph
  · rw [addStep_madd hc hpos]
    refine .running h hchecked { KeepsHostState.refl d with } ⟨rfl, rfl⟩ h.roundLe rfl hp
      (.inr (.inr ⟨.inl hc, length_radd ..⟩)) ?_
    rw [Device.stepsLeft_writeback rfl]
    omega
  obtain ⟨hlenA, hlenB⟩ := hr.encLen hc
  have hlen : (radd d.rVal d.regA.length d.regA d.regF).length = d.mVal := (length_radd ..).trans hlenA
  have hdigits : ∀ c ∈ radd d.rVal d.regA.length d.regA d.regF, c < d.rVal := fun c => str_digit_lt hpos
  have hm : d.mVal ≤ d.nVal := mOf_le ..
  by_cases hi : d.i.toNat < 9
  · rw [addStep_round hc hpos hi]
    have hnext : (d.i + 1).toNat = d.iVal + 1 := by
      rw [BitVec.toNat_add]
      exact Nat.mod_eq_of_lt (by change d.i.toNat + 1 < 16; omega)
    have hmnext : mOf d.nVal (d.i + 1).toNat = d.nVal - d.mVal := by rw [hnext, mOf_succ]; rfl
    refine .running h hchecked { KeepsHostState.refl d with } ⟨rfl, rfl⟩ (hnext.trans_le hi) rfl hp
      ⟨{ cmd := hr.cmd, encLen := fun _ => ?_, decLen := fun he => absurd (hc.symm.trans he) (by decide)
         prfLen := fun he => absurd (hc.symm.trans he) (by decide), digitsA := hr.digitsB, digitsB := hdigits },
        le_refl 1, one_le_qOf ..⟩ ?_
    · change d.regB.length = mOf d.nVal (d.i + 1).toNat ∧ (radd ..).length = d.nVal - mOf d.nVal (d.i + 1).toNat
      rw [hmnext, hlen]
      exact ⟨hlenB, by omega⟩
    · rw [hleft]
      refine Device.stepsLeft_nextRound rfl hp rfl rfl ?_
      rw [Device.roundsLeft_enc hc, Device.roundsLeft_enc (by exact hc)]
      change 9 - d.i.toNat = 9 - (d.i + 1).toNat + 1
      rw [hnext]
      change 9 - d.i.toNat = 9 - (d.i.toNat + 1) + 1
      omega
  · rw [addStep_last hc hpos hi]
    refine .running h hchecked { KeepsHostState.refl d with } ⟨rfl, rfl⟩ h.roundLe rfl hp (.inl ⟨.inl hc, ?_⟩) ?_
    · change d.regB.length + (radd ..).length = d.nVal
      rw [hlen, hlenB]
      omega
    · rw [Device.stepsLeft_writeback rfl]
      omega

/-- SUB (R175, R177): MSUB's difference, the next decryption round, or WRITEBACK after round 0. -/
theorem subStep_progress (h : DevInv P d) (hph : d.phase = .sub) (hp : d.port = .free) :
    Progress P d (subStep d) := by
  have hbusy : d.phase ≠ .idle := by simp [hph]
  have hchecked := h.checked hbusy (by simp [hph])
  have hpos := (h.registers hbusy (by simp [hph])).radix_pos
  have hleft := Device.stepsLeft_sub hph
  have htail : 1 ≤ d.tailSteps := by unfold Device.tailSteps; omega
  obtain ⟨hc, hpair⟩ | ⟨hc, hr, hF⟩ := h.phaseInv.sub hph
  · rw [subStep_msub hc hpos]
    refine .running h hchecked { KeepsHostState.refl d with } ⟨rfl, rfl⟩ h.roundLe rfl hp
      (.inr (.inr ⟨.inr hc, length_rsub ..⟩)) ?_
    rw [Device.stepsLeft_writeback rfl]
    omega
  obtain ⟨hlenB, hlenA⟩ := hr.decLen hc
  have hlen : (rsub d.rVal d.regB.length d.regB d.regF).length = d.mVal := (length_rsub ..).trans hlenB
  have hdigits : ∀ c ∈ rsub d.rVal d.regB.length d.regB d.regF, c < d.rVal := fun c => str_digit_lt hpos
  have hm : d.mVal ≤ d.nVal := mOf_le ..
  by_cases hi : 0 < d.i.toNat
  · rw [subStep_round hc hpos hi]
    have hnext : (d.i - 1).toNat + 1 = d.iVal := by
      change _ = d.i.toNat
      bv_omega
    have hmnext : d.mVal = d.nVal - mOf d.nVal (d.i - 1).toNat := by
      rw [← mOf_succ, hnext]; rfl
    have hle : mOf d.nVal (d.i - 1).toNat ≤ d.nVal := mOf_le ..
    have hle9 : (d.i - 1).toNat ≤ 9 := (Nat.le_succ _).trans (hnext.trans_le h.roundLe)
    refine .running h hchecked { KeepsHostState.refl d with } ⟨rfl, rfl⟩ hle9 rfl hp
      ⟨{ cmd := hr.cmd, encLen := fun he => absurd (hc.symm.trans he) (by decide), decLen := fun _ => ?_
         prfLen := fun he => absurd (hc.symm.trans he) (by decide), digitsA := hdigits, digitsB := hr.digitsA },
        le_refl 1, one_le_qOf ..⟩ ?_
    · change d.regA.length = mOf d.nVal (d.i - 1).toNat ∧ (rsub ..).length = d.nVal - mOf d.nVal (d.i - 1).toNat
      rw [hlen, hlenA, hmnext]
      exact ⟨by omega, rfl⟩
    · rw [hleft]
      refine Device.stepsLeft_nextRound rfl hp rfl rfl ?_
      rw [Device.roundsLeft_dec hc, Device.roundsLeft_dec (by exact hc)]
      exact hnext.symm
  · rw [subStep_last hc hpos hi]
    refine .running h hchecked { KeepsHostState.refl d with } ⟨rfl, rfl⟩ h.roundLe rfl hp (.inl ⟨.inr hc, ?_⟩) ?_
    · change (rsub ..).length + d.regA.length = d.nVal
      rw [hlen, hlenA]
      omega
    · rw [Device.stepsLeft_writeback rfl]
      omega

/-- A result of the right length is written inside its buffer, and the command ends (R178, R179). -/
theorem writeResult_progress (h : DevInv P d) (hbusy : d.phase ≠ .idle) (hp : d.port = .free) {b : Buf} {n : Nat}
    {v : List Nat} (hv : v.length = n) (hn : n ≤ Params.size P b) : Progress P d (writeResult P b n v d) := by
  rw [writeResult_eq hv hn, Device.setBuf_complete]
  have hend : DevInv P d.complete := h.ended (complete_keeps d) ⟨rfl, rfl⟩ rfl rfl hp (by simp)
  have hok := (h.bufOk b).writeBytes (a := 0) (vs := digitBytes v) (by simp; omega)
  exact .ended (hend.setBuf rfl hok) hbusy (Device.setBuf_phase ..)

/-- WRITEBACK never fails: every result has its length and lies inside its buffer (R178, R187). -/
theorem writebackStep_progress (h : DevInv P d) (hph : d.phase = .writeback) (hp : d.port = .free) :
    Progress P d (writebackStep P d) := by
  have hbusy : d.phase ≠ .idle := by simp [hph]
  have hn := (h.registers hbusy (by simp [hph])).len
  unfold writebackStep
  obtain ⟨hc, hl⟩ | ⟨hc, hF, -⟩ | ⟨hc, hl⟩ := h.phaseInv.writeback hph
  · rw [if_pos hc]
    exact writeResult_progress h hbusy hp (by rw [List.length_append, hl]) hn
  · rw [if_neg (by rw [hc]; decide), if_pos hc]
    exact writeResult_progress h hbusy hp hF ((mOf_le ..).trans hn)
  · rw [if_neg (by rcases hc with hc | hc <;> rw [hc] <;> decide),
      if_neg (by rcases hc with hc | hc <;> rw [hc] <;> decide), if_pos hc]
    exact writeResult_progress h hbusy hp hl hn

/-! #### Any step of a running command -/

/-- A controller step of a running command that does not wait for the engine (R194). -/
theorem ctlStep_progress (h : DevInv P d) (hbusy : d.phase ≠ .idle) (hw : d.waiting = false) :
    Progress P d (ctlStep P d) := by
  have hcall : d.port = .free ∨ ∃ res, d.port = .rsp res := by
    cases hp : d.port with
    | free => exact .inl rfl
    | req key x => simp [Device.waiting, hp] at hw
    | rsp res => exact .inr ⟨res, rfl⟩
  cases hph : d.phase with
  | idle => exact absurd hph hbusy
  | check =>
    have hp := h.port_free (by simp [hph])
    rw [ctlStep_check hph hp]
    exact checkStep_progress h hph hp
  | load =>
    have hp := h.port_free (by simp [hph])
    rw [ctlStep_load hph hp]
    exact loadStep_progress h hph hp
  | hdr =>
    rcases hcall with hp | ⟨res, hp⟩
    · rw [ctlStep_hdr hph hp]
      exact .issue h (.inl hph) hp _
    · rw [ctlStep_hdr_rsp hph hp]
      exact hdrConsume_progress h hph hp
  | mac =>
    rcases hcall with hp | ⟨res, hp⟩
    · rw [ctlStep_mac hph hp]
      exact macIssue_progress h hph hp
    · rw [ctlStep_mac_rsp hph hp]
      exact macConsume_progress h hph hp
  | expand =>
    rcases hcall with hp | ⟨res, hp⟩
    · rw [ctlStep_expand hph hp]
      exact .issue h (.inr (.inr hph)) hp _
    · rw [ctlStep_expand_rsp hph hp]
      exact expandConsume_progress h hph hp
  | reduce =>
    have hp := h.port_free (by simp [hph])
    rw [ctlStep_reduce hph hp]
    exact reduceStep_progress h hph hp
  | add =>
    have hp := h.port_free (by simp [hph])
    rw [ctlStep_add hph hp]
    exact addStep_progress h hph hp
  | sub =>
    have hp := h.port_free (by simp [hph])
    rw [ctlStep_sub hph hp]
    exact subStep_progress h hph hp
  | writeback =>
    have hp := h.port_free (by simp [hph])
    rw [ctlStep_writeback hph hp]
    exact writebackStep_progress h hph hp

/-- The engine's answer to a request brings the call one step on (R66). -/
theorem Advances.serve (h : DevInv P d) (hw : d.waiting = true) (a : EngineDraw) : Advances P d (d.serve P a) := by
  obtain ⟨key, x, hp⟩ := Device.waiting_iff.mp hw
  refine ⟨h.serve a, ?_, fun _ => (serve_keeps P a d).2⟩
  unfold Device.serve
  rw [hp]
  exact Device.stepsLeft_call (h.portFree (by simp [hp])) d.ciphcnt (by rw [hp]; simp [Port.callSteps])

end Row

end Sys2Proof.Machine
end

section
/-! The invariant of the reachable states under runs, merged commands (42_feistel_controller R180 to R185), host
accesses (20_memory R65, R69) and resets (70_reset_and_hazards R250), and so under every step of the machine. -/
namespace Sys2Proof.Machine

/-! ### From single steps to runs -/

theorem Device.busy_iff {d : Device} : d.busy = true ↔ d.phase ≠ .idle := by simp [Device.busy]

theorem Device.busy_false_iff {d : Device} : d.busy = false ↔ d.phase = .idle := by simp [Device.busy]

section Run
variable {P : Params} {s t : State}

theorem advance_advances (h : DevInv P s.dev) (hb : s.dev.busy = true) (ha : advance P s = .ok t) :
    Advances P s.dev t.dev := by
  obtain ⟨hw, rfl⟩ | ⟨hw, e, he, rfl⟩ := advance_cases ha
  · exact .serve h hw _
  · have hp := ctlStep_progress h (Device.busy_iff.mp hb) hw
    rwa [he] at hp

theorem controllerMove_error {f : Fault} (h : controllerMove P s = .error f) : ctlStep P s.dev = .error f := by
  unfold controllerMove at h
  split at h
  · cases h; assumption
  · cases h

/-- The controller stops only on a byte without a value. -/
theorem ctlStep_error {d : Device} {f : Fault} (h : DevInv P d) (hf : ctlStep P d = .error f) : UnwrittenFault d f := by
  have hbusy : d.phase ≠ .idle := fun hi => by rw [ctlStep_idle hi] at hf; cases hf
  have hw : d.waiting = false := by
    by_contra hw
    rw [ctlStep_waiting (by simpa using hw)] at hf
    cases hf
  have hp := ctlStep_progress h hbusy hw
  rwa [hf] at hp

theorem advance_error {f : Fault} (h : DevInv P s.dev) (ha : advance P s = .error f) : UnwrittenFault s.dev f := by
  unfold advance at ha
  split at ha
  · cases ha
  · exact ctlStep_error h (controllerMove_error ha)

theorem Steps.devInv {n : Nat} (hs : Steps P n s t) : DevInv P s.dev → DevInv P t.dev :=
  hs.keeps (R := fun s t => DevInv P s.dev → DevInv P t.dev) (fun _ h => h) (fun _ _ _ h g hi => g (h hi))
    fun _ _ hb ha h => (advance_advances h hb ha).inv

/-- A run with fuel for the steps left stops only on a byte that had no value when it began: it writes no buffer before
its last step (R195, R223, R265). -/
theorem runToIdle_error {m : Nat} {f : Fault} (h : DevInv P s.dev) (hm : s.dev.stepsLeft ≤ m)
    (hf : runToIdle P m s = .error f) : UnwrittenFault s.dev f := by
  induction m generalizing s with
  | zero =>
    unfold runToIdle at hf
    split at hf
    · have := Device.one_le_stepsLeft (Device.busy_iff.mp ‹_›)
      omega
    · cases hf
  | succ m ih =>
    unfold runToIdle at hf
    split at hf
    · rename_i hb
      split at hf
      · rename_i ha
        cases hf
        exact advance_error h ha
      · rename_i t ha
        have hadv := advance_advances h hb ha
        have hfewer := hadv.fewer
        have hbusy : t.dev.phase ≠ .idle := fun hi => by
          rw [runToIdle_idle m (Device.busy_false_iff.mpr hi)] at hf
          cases hf
        exact (ih hadv.inv (by omega) hf).of_keeps (hadv.buffers hbusy) (advance_keeps ha).1.tweak
    · cases hf

/-- An accepted START keeps the invariant (R170). -/
theorem DevInv.start {d : Device} (h : DevInv P d) (hi : d.phase = .idle) (c rd : BitVec 4) : DevInv P (d.start c rd) :=
  { h with
    noOverflow := by simp
    portFree := fun hn => absurd (h.port_free (by simp [hi])) hn
    checked := fun _ hc => absurd rfl hc
    phaseInv := trivial }

theorem DevInv.dropWrite {d : Device} (h : DevInv P d) : DevInv P d.dropWrite :=
  h.touch h.portFree d.done d.err true d.inten d.ciphcnt

theorem runCommand_devInv {c rd : BitVec 4} (h : DevInv P s.dev) (hr : runCommand P c rd s = .next t) :
    DevInv P t.dev := by
  cases hb : s.dev.busy with
  | true =>
    unfold runCommand at hr
    rw [if_pos hb] at hr
    cases hr
    exact h.dropWrite
  | false =>
    obtain ⟨-, n, -, hs⟩ := runCommand_next hb hr
    exact hs.devInv (h.start (Device.busy_false_iff.mp hb) c rd)

theorem runCommand_fault {c rd : BitVec 4} {f : Fault} (h : DevInv P s.dev) (hr : runCommand P c rd s = .fault f) :
    UnwrittenFault s.dev f := by
  unfold runCommand at hr
  split at hr
  · cases hr
  · rename_i hb
    have hi : s.dev.phase = .idle := Device.busy_false_iff.mp (by simpa using hb)
    unfold toOutcome at hr
    split at hr
    · rename_i he
      cases hr
      exact (runToIdle_error (h.start hi c rd) (le_of_eq (stepsLeft_start ..)) he).of_keeps ⟨rfl, rfl⟩ rfl
    · cases hr

theorem toOutcome_ne_refused (x : Except Fault State) (r : Refusal) : toOutcome x ≠ .refused r := by
  cases x <;> simp [toOutcome]

theorem runCommand_ne_refused (c rd : BitVec 4) (r : Refusal) : runCommand P c rd s ≠ .refused r := by
  unfold runCommand
  split
  · simp
  · exact toOutcome_ne_refused _ r

end Run

/-! ### Host accesses (R65, R68, R69) -/

theorem ite_ne_of_ne {α : Type} {p : Prop} [Decidable p] {x y z : α} (hx : x ≠ z) (hy : y ≠ z) :
    ite p x y ≠ z := by
  split <;> assumption

/-- Below the windows there is no buffer. -/
theorem registerAt_ne_buf (a p : Nat) (b : Buf) : registerAt a ≠ .buf b p := by
  unfold registerAt
  repeat refine ite_ne_of_ne (by simp) ?_
  simp

/-- The word index a buffer's window gives is a multiple of four (R63, R64). -/
theorem target_buf_mod {o : Offset} {b : Buf} {a : Nat} (h : target o = .buf b a) : a % 4 = 0 := by
  have hal : alignWord o % 4 = 0 := Nat.mul_mod_right ..
  unfold target at h
  simp only at h
  split at h
  · exact absurd h (registerAt_ne_buf _ a b)
  split at h
  · cases h; omega
  split at h
  · cases h; omega
  · cases h; omega

/-- While idle the host may write the protected registers (R47). -/
theorem DevInv.setRegisters {P : Params} {d : Device} (h : DevInv P d) (hi : d.phase = .idle)
    (ctrlCmd ctrlRound : BitVec 4) (radix : BitVec 8) (keylen : BitVec 6) (len tlen : BitVec 16)
    (key : Vector Byte 32) : DevInv P { d with
      ctrlCmd := ctrlCmd, ctrlRound := ctrlRound, radix := radix, keylen := keylen, len := len, tlen := tlen
      key := key } :=
  { h with
    checked := fun hn => absurd hi hn
    phaseInv := by simp only [PhaseInv, hi] }

theorem DevInv.writeCtrl {P : Params} {d : Device} (h : DevInv P d) (hi : d.phase = .idle) (x : Word) :
    DevInv P (writeCtrl x d) := by
  unfold Machine.writeCtrl
  split
  · exact h.start hi _ _
  · exact h.setRegisters hi (cwCmd x) (cwRound x) d.radix d.keylen d.len d.tlen d.key

/-- A word of a buffer lies inside it, or outside it, as a whole (R45, R63). -/
theorem DevInv.writeBufWord {d : Device} (h : DevInv Config.params d) (hi : d.phase = .idle) {b : Buf} {a : Nat}
    (ha : a % 4 = 0) (x : Word) : DevInv Config.params (writeBufWord Config.params b a x d) := by
  unfold Machine.writeBufWord
  split
  · rename_i hlt
    rw [Config.params_size] at hlt
    refine h.setBuf hi ((h.bufOk b).writeBytes ?_)
    rw [Config.params_size]
    simp only [List.length_cons, List.length_nil]
    omega
  · exact h

/-- A host write keeps the invariant: a protected target is written while idle only (R47, R69). -/
theorem DevInv.hostWrite {d : Device} (h : DevInv Config.params d) (o : Offset) (x : Word) :
    DevInv Config.params (hostWrite Config.params o x d) := by
  unfold Machine.hostWrite
  split
  · exact h.dropWrite
  · rename_i hdrop
    have hidle (hp : (target o).isProtected = true) : d.phase = .idle := by
      rw [hp, Bool.true_and, Device.busy_iff, not_not] at hdrop
      exact hdrop
    cases ht : target o with
    | ctrl => exact h.writeCtrl (hidle (by rw [ht]; rfl)) x
    | status => exact h.touch h.portFree _ _ _ d.inten d.ciphcnt
    | inten => exact h.touch h.portFree d.done d.err d.wbusy _ d.ciphcnt
    | radix => exact h.setRegisters (hidle (by rw [ht]; rfl)) d.ctrlCmd d.ctrlRound _ d.keylen d.len d.tlen d.key
    | keylen => exact h.setRegisters (hidle (by rw [ht]; rfl)) d.ctrlCmd d.ctrlRound d.radix _ d.len d.tlen d.key
    | len => exact h.setRegisters (hidle (by rw [ht]; rfl)) d.ctrlCmd d.ctrlRound d.radix d.keylen _ d.tlen d.key
    | tlen => exact h.setRegisters (hidle (by rw [ht]; rfl)) d.ctrlCmd d.ctrlRound d.radix d.keylen d.len _ d.key
    | key w => exact h.setRegisters (hidle (by rw [ht]; rfl)) d.ctrlCmd d.ctrlRound d.radix d.keylen d.len d.tlen _
    | buf b a => exact h.writeBufWord (hidle (by rw [ht]; rfl)) (target_buf_mod ht) x
    | id | cap | errinfo | ciphcnt | ivr | yr | unmapped => exact h

theorem DevInv.hostMove {s : State} (h : DevInv Config.params s.dev) :
    DevInv Config.params (hostMove Config.params s).dev := by
  unfold Machine.hostMove
  split
  · exact h
  · unfold hostAccess
    split
    · exact h.hostWrite ..
    · exact h
    · exact h

/-- The reset device is in the invariant (R251). -/
theorem devInv_reset : DevInv Config.params Device.reset where
  tweakOk := ⟨rfl, rfl⟩
  dataOk := ⟨rfl, rfl⟩
  opbOk := ⟨rfl, rfl⟩
  roundLe := Nat.zero_le 9
  noOverflow := by simp [Device.reset]
  portFree hn := absurd rfl hn
  checked hn := absurd rfl hn
  phaseInv := trivial

/-! ### One move, one step -/

theorem agentMove_devInv {m : Move} {s t : State} (h : DevInv Config.params s.dev)
    (ha : agentMove Config.params m s = .ok t) : DevInv Config.params t.dev := by
  cases m with
  | host => cases ha; exact h.hostMove
  | command => cases ha; exact h.hostMove
  | reset => cases ha; exact devInv_reset
  | engine =>
    cases ha
    unfold engineMove
    split
    · exact h.serve _
    · exact h
  | controller =>
    obtain ⟨e, he, rfl⟩ := controllerMove_ok ha
    by_cases hi : s.dev.phase = .idle
    · rw [ctlStep_idle hi] at he
      cases he
      exact h
    cases hw : s.dev.waiting with
    | true =>
      rw [ctlStep_waiting hw] at he
      cases he
      exact h
    | false =>
      have hp := ctlStep_progress h hi hw
      rw [he] at hp
      exact hp.inv

theorem agentMove_error {m : Move} {s : State} {f : Fault} (h : DevInv Config.params s.dev)
    (ha : agentMove Config.params m s = .error f) : UnwrittenFault s.dev f := by
  cases m with
  | controller => exact ctlStep_error h (controllerMove_error ha)
  | host | command | engine | reset => cases ha

/-- Every command is a merged run under its own CMD and ROUND (R180 to R185, R86). -/
theorem exec_eq_runCommand (i : Instr) (s : State) : exec i s = runCommand Config.params i.cmd i.round s := by
  cases i <;> rfl

theorem nextMove_dev {s s' : State} {m : Move} (h : nextMove s = some (m, s')) : s'.dev = s.dev := by
  unfold nextMove at h
  split at h
  · cases h; rfl
  · obtain ⟨m', -, he⟩ := Option.map_eq_some_iff.mp h
    cases he; rfl

theorem fetchCommand_dev {s s' : State} {i : Instr} (h : fetchCommand s = some (i, s')) : s'.dev = s.dev := by
  unfold fetchCommand at h
  split at h
  · split at h
    · split at h
      · cases h; rfl
      · cases h
    · cases h
  all_goals cases h

/-- Everything a step can be: nothing, a merged command, or one move of one agent, on the same device. -/
theorem step_cases (s : State) : step s = .next s ∨ ∃ s' : State, s'.dev = s.dev ∧
    ((∃ i, step s = exec i s') ∨ ∃ m, step s = toOutcome (agentMove Config.params m s')) := by
  unfold step
  cases hn : nextMove s with
  | none => exact .inl rfl
  | some ms =>
    obtain ⟨m, s'⟩ := ms
    have hd := nextMove_dev hn
    cases m with
    | command =>
      simp only
      cases hf : fetchCommand s' with
      | none => exact .inr ⟨s', hd, .inr ⟨_, rfl⟩⟩
      | some is =>
        obtain ⟨i, s''⟩ := is
        exact .inr ⟨s'', (fetchCommand_dev hf).trans hd, .inl ⟨i, rfl⟩⟩
    | host | controller | engine | reset => exact .inr ⟨s', hd, .inr ⟨_, rfl⟩⟩

theorem toOutcome_next {x : Except Fault State} {t : State} (h : toOutcome x = .next t) : x = .ok t := by
  unfold toOutcome at h
  split at h <;> cases h
  rfl

theorem toOutcome_fault {x : Except Fault State} {f : Fault} (h : toOutcome x = .fault f) : x = .error f := by
  unfold toOutcome at h
  split at h <;> cases h
  rfl

/-- Settles O7: a step is a merged command or one agent's move, and each keeps the invariant; that the controller's
steps do is `ctlStep_progress`, row by row of R194's table. -/
theorem stepKeepsInvariant : Obligations.StepKeepsInvariant := by
  intro s t hs hstep
  obtain h | ⟨s', hd, ⟨i, h⟩ | ⟨m, h⟩⟩ := step_cases s
  · rw [hstep] at h
    cases h
    exact hs
  all_goals
    have hs' : DevInv Config.params s'.dev := hd ▸ hs
    rw [hstep] at h
  · rw [exec_eq_runCommand] at h
    exact runCommand_devInv hs' h.symm
  · exact agentMove_devInv hs' (toOutcome_next h.symm)

/-- Settles O8: a controller step in the invariant makes progress or reads a byte without a value, and the steps left
never exceed the merged command's bound. -/
theorem onlyUnwrittenBytesFault : Obligations.OnlyUnwrittenBytesFault := by
  refine ⟨fun s f hs hstep => ?_, fun s r hstep => ?_⟩
  · show UnwrittenFault s.dev f
    obtain h | ⟨s', hd, ⟨i, h⟩ | ⟨m, h⟩⟩ := step_cases s
    · rw [hstep] at h
      cases h
    all_goals
      have hs' : DevInv Config.params s'.dev := hd ▸ hs
      rw [hstep] at h
      rw [← hd]
    · rw [exec_eq_runCommand] at h
      exact runCommand_fault hs' h.symm
    · exact agentMove_error hs' (toOutcome_fault h.symm)
  · obtain h | ⟨s', -, ⟨i, h⟩ | ⟨m, h⟩⟩ := step_cases s
    · rw [hstep] at h
      cases h
    · rw [hstep, exec_eq_runCommand] at h
      exact runCommand_ne_refused _ _ _ h.symm
    · rw [hstep] at h
      exact toOutcome_ne_refused _ _ h.symm

end Sys2Proof.Machine
end

section
/-! The register window: what each offset reaches (10_state R30), what a host write does there (10_state R33 to R47,
20_memory R61 to R69), and the words reads return (10_state R31 to R46). -/
namespace Sys2Proof.Machine

/-! ### What an offset reaches (R30, R63, R64) -/

theorem alignWord_lt (o : Offset) : alignWord o < 0x40000 := by
  have := o.isLt
  unfold alignWord
  omega

theorem target_register {o : Offset} (h : alignWord o < 0x10000) : target o = registerAt (alignWord o) := if_pos h

/-- The buffer of a window (R63). -/
def windowBuf (a : Nat) : Buf := if a < 0x20000 then .tweak else if a < 0x30000 then .data else .opb

theorem target_window {o : Offset} (h : 0x10000 ≤ alignWord o) :
    target o = .buf (windowBuf (alignWord o)) (alignWord o % 0x10000) := by
  have hlt := alignWord_lt o
  unfold target windowBuf
  simp only
  rw [if_neg (by omega)]
  split
  · rw [show alignWord o - 0x10000 = alignWord o % 0x10000 by omega]
  split
  · rw [show alignWord o - 0x20000 = alignWord o % 0x10000 by omega]
  · rw [show alignWord o - 0x30000 = alignWord o % 0x10000 by omega]

theorem registerAt_key {a : Nat} (h1 : 0x040 ≤ a) (h2 : a < 0x060) : registerAt a = .key ((a - 0x040) / 4) := by
  unfold registerAt
  iterate 11 rw [if_neg (by omega)]
  rw [if_pos ⟨h1, h2⟩]

theorem registerAt_ivr {a : Nat} (h1 : 0x060 ≤ a) (h2 : a < 0x070) : registerAt a = .ivr ((a - 0x060) / 4) := by
  unfold registerAt
  iterate 12 rw [if_neg (by omega)]
  rw [if_pos ⟨h1, h2⟩]

theorem registerAt_yr {a : Nat} (h1 : 0x070 ≤ a) (h2 : a < 0x080) : registerAt a = .yr ((a - 0x070) / 4) := by
  unfold registerAt
  iterate 13 rw [if_neg (by omega)]
  rw [if_pos ⟨h1, h2⟩]

theorem registerAt_unmapped {a : Nat} (h : (0x02C ≤ a ∧ a < 0x040) ∨ 0x080 ≤ a) : registerAt a = .unmapped := by
  unfold registerAt
  iterate 14 rw [if_neg (by omega)]

/-- The offset's word is the register at literal address a. -/
theorem target_of_alignWord {o : Offset} {a : Nat} (h : alignWord o = a) (ha : a < 0x10000) :
    target o = registerAt a := by
  subst h
  exact target_register ha

/-! ### Host writes (R47, R69) -/

section Write
variable {P : Params} {d : Device} {o : Offset} {x : Word}

theorem hostWrite_busy (hp : (target o).isProtected = true) (hb : d.phase ≠ .idle) :
    hostWrite P o x d = { d with wbusy := true } := by
  unfold hostWrite
  rw [hp, Device.busy_iff.mpr hb]
  rfl

theorem hostWrite_idle (hi : d.phase = .idle) : hostWrite P o x d = writeTarget P x d (target o) := by
  unfold hostWrite
  rw [Device.busy_false_iff.mpr hi, Bool.and_false]
  rfl

theorem hostWrite_unprotected (hp : (target o).isProtected = false) :
    hostWrite P o x d = writeTarget P x d (target o) := by
  unfold hostWrite
  rw [hp]
  rfl

/-- A key write sets the four bytes of its word, byte c from bits [31−8c : 24−8c] (R42). -/
theorem setKeyWord_get (w : Nat) (x : Word) (key : Vector Byte 32) {p : Nat} (hp : p < 32) :
    (setKeyWord w x key)[p]? = if p / 4 = w then some (wordByte x (p % 4)) else key[p]? := by
  unfold setKeyWord
  rw [Vector.getElem?_eq_getElem hp, Vector.getElem_ofFn]
  split
  · rfl
  · exact (Vector.getElem?_eq_getElem hp).symm

/-- A buffer write changes that buffer only. -/
theorem writeBufWord_frame (b : Buf) (a : Nat) :
    writeBufWord P b a x d = d.setBuf b ((writeBufWord P b a x d).buf b) := by
  unfold writeBufWord
  split <;> simp

/-- A buffer write sets the four bytes of its word, inside the buffer only (R61, R63). -/
theorem read_writeBufWord (b : Buf) (a p : Nat) :
    Memory.read ((writeBufWord P b a x d).buf b) p =
      if a < Params.size P b ∧ a ≤ p ∧ p < a + 4 then some (wordByte x (p - a)) else Memory.read (d.buf b) p := by
  unfold writeBufWord
  by_cases ha : a < Params.size P b
  · rw [if_pos ha, Device.setBuf_buf_same]
    by_cases hp : a ≤ p ∧ p < a + 4
    · obtain ⟨c, rfl⟩ := Nat.exists_eq_add_of_le hp.1
      have hc : c < 4 := by omega
      rw [if_pos ⟨ha, hp⟩, Memory.read_writeBytes_inside _ _ _ _ (by simpa using hc), Nat.add_sub_cancel_left]
      interval_cases c <;> rfl
    · rw [if_neg (fun h => hp h.2), Memory.read_writeBytes_other]
      simp only [List.length_cons, List.length_nil]
      omega
  · rw [if_neg ha, if_neg (fun h => ha h.1)]

end Write

/-- The protected offsets of R47. -/
theorem target_isProtected {o : Offset}
    (h : alignWord o = 0x008 ∨ alignWord o = 0x014 ∨ alignWord o = 0x018 ∨ alignWord o = 0x01C ∨ alignWord o = 0x020 ∨
      (0x040 ≤ alignWord o ∧ alignWord o < 0x060) ∨ 0x10000 ≤ alignWord o) : (target o).isProtected = true := by
  obtain h | h | h | h | h | ⟨h1, h2⟩ | h := h
  case inr.inr.inr.inr.inr.inr => rw [target_window h]; rfl
  case inr.inr.inr.inr.inr.inl => rw [target_register (by omega), registerAt_key h1 h2]; rfl
  all_goals
    rw [target_of_alignWord h (by decide)]
    rfl

/-- Settles O45: the target of each protected offset, and what a write does there. -/
theorem protectedWritesWhileBusyAreDropped : Obligations.ProtectedWritesWhileBusyAreDropped := by
  intro d o x a e hprot
  refine ⟨fun hb => hostWrite_busy (target_isProtected hprot) hb, fun hi => ?_⟩
  have he : e = writeTarget Config.params x d (target o) := hostWrite_idle hi
  have hreg {b : Nat} (h : a = b) (hb : b < 0x10000) : e = writeTarget Config.params x d (registerAt b) := by
    rw [he, target_of_alignWord h hb]
  clear_value e
  refine ⟨fun h hs => ?_, fun h hs => ?_, fun h => hreg h (by decide), fun h => hreg h (by decide),
    fun h => hreg h (by decide), fun h => hreg h (by decide), fun w hw h => ?_, fun h => ?_⟩
  · rw [hreg h (by decide)]
    exact if_neg (by rw [cwStart, hs]; decide)
  · rw [hreg h (by decide)]
    exact if_pos hs
  · have hkey : registerAt (0x040 + 4 * w) = .key w := by
      rw [registerAt_key (by omega) (by omega)]
      congr 1
      omega
    have hw' := hreg h (by omega)
    rw [hkey] at hw'
    subst hw'
    exact ⟨rfl, fun p hp => setKeyWord_get w x d.key hp⟩
  · rw [target_window h] at he
    subst he
    refine ⟨writeBufWord_frame .., fun p => ?_⟩
    have hr := read_writeBufWord (P := Config.params) (d := d) (x := x) (windowBuf a) (a % 0x10000) p
    rw [Config.params_size] at hr
    exact hr

/-- Settles O47: none of these offsets is protected, and a write there acts by its register's rule. -/
theorem unprotectedWritesActAtAnyTime : Obligations.UnprotectedWritesActAtAnyTime := by
  intro d o x a
  have hwrite {t : Target} (ht : target o = t) (hp : t.isProtected = false) :
      hostWrite Config.params o x d = writeTarget Config.params x d t := by
    subst ht
    exact hostWrite_unprotected hp
  have hreg {b : Nat} (h : a = b) (hb : b < 0x10000) : target o = registerAt b := target_of_alignWord h hb
  refine ⟨fun h => hwrite (hreg h (by decide)) rfl, fun h => hwrite (hreg h (by decide)) rfl, fun h => ?_⟩
  obtain h | h | h | h | ⟨h1, h2⟩ | ⟨h1, h2⟩ := h
  · exact hwrite (hreg h (by decide)) rfl
  · exact hwrite (hreg h (by decide)) rfl
  · exact hwrite (hreg h (by decide)) rfl
  · exact hwrite (hreg h (by decide)) rfl
  · exact hwrite ((hreg rfl (by omega)).trans (registerAt_unmapped (.inl ⟨h1, h2⟩))) rfl
  by_cases h3 : a < 0x070
  · exact hwrite ((hreg rfl h2).trans (registerAt_ivr h1 h3)) rfl
  by_cases h4 : a < 0x080
  · exact hwrite ((hreg rfl h2).trans (registerAt_yr (by omega) h4)) rfl
  · exact hwrite ((hreg rfl h2).trans (registerAt_unmapped (.inr (by omega)))) rfl

/-- The offset of KEYw (R42). -/
theorem target_key {w : Nat} (hw : w < 8) : target (BitVec.ofNat 18 (0x040 + 4 * w)) = .key w := by
  interval_cases w <;> rfl

/-- Settles O50: a KEY write sets one word's bytes, a KEY read is 0, and no other target's word reads KEY. -/
theorem keyIsWriteOnly : Obligations.KeyIsWriteOnly := by
  constructor
  · intro d w x n hw o
    refine ⟨fun hi => ?_, ?_⟩
    · have he : hostWrite Config.params o x d = { d with key := setKeyWord w x d.key } := by
        rw [hostWrite_idle hi, target_key hw]
        rfl
      rw [he]
      refine ⟨rfl, fun c hc => ?_, fun p hp => ?_⟩
      · have hdiv : (4 * w + c) / 4 = w := by omega
        have hmod : (4 * w + c) % 4 = c := by omega
        have hget := setKeyWord_get w x d.key (p := 4 * w + c) (by omega)
        rw [if_pos hdiv, hmod] at hget
        exact hget
      · by_cases h32 : p < 32
        · exact (setKeyWord_get w x d.key h32).trans (if_neg (by omega))
        · show (setKeyWord w x d.key)[p]? = d.key[p]?
          rw [Vector.getElem?_eq_none (by omega), Vector.getElem?_eq_none (by omega)]
    · unfold hostRead
      rw [target_key hw]
      rfl
  · intro d key o n
    unfold hostRead
    cases target o with
    | buf b a => cases b <;> rfl
    | _ => rfl

end Sys2Proof.Machine
end

section
/-! The words that host reads return (10_state R31 to R46), as numbers: fields at their bit positions. -/
namespace Sys2Proof.Machine

/-- Fields side by side: the high one is shifted by the width of the low one. -/
theorem toNat_append_eq_add {a b : Nat} (x : BitVec a) (y : BitVec b) :
    (x ++ y).toNat = x.toNat * 2 ^ b + y.toNat := by
  rw [BitVec.toNat_append, ← Nat.shiftLeft_add_eq_or_of_lt y.isLt, Nat.shiftLeft_eq]

theorem toNat_flagBit (b : Bool) : (flagBit b).toNat = b.toNat := by cases b <;> rfl

/-- STATUS by its fields (R34). -/
theorem toNat_statusWord (d : Device) :
    d.statusWord.toNat = d.i.toNat * 2 ^ 20 + d.phase.code.toNat * 2 ^ 16 + d.errcode.code.toNat * 2 ^ 8
      + d.wbusy.toNat * 8 + d.err.toNat * 4 + d.done.toNat * 2 + d.busy.toNat := by
  unfold Device.statusWord
  simp only [toNat_append_eq_add, toNat_flagBit, BitVec.toNat_ofNat]
  omega

theorem Device.busy_eq_decide (d : Device) : d.busy = decide (d.phase ≠ .idle) := by
  unfold busy
  cases d.phase <;> rfl

/-- CTRL reads ROUND<<8 | CMD<<4 (R33). -/
theorem toNat_ctrlWord (d : Device) : d.ctrlWord.toNat = d.ctrlRound.toNat * 2 ^ 8 + d.ctrlCmd.toNat * 2 ^ 4 := by
  unfold Device.ctrlWord
  simp only [toNat_append_eq_add, BitVec.toNat_ofNat]
  omega

/-- Word w of a block, most significant first (R43, R44). -/
theorem toNat_blockWord (z : Block) (w : Nat) : (blockWord z w).toNat = z.toNat / 2 ^ (96 - 32 * w) % 2 ^ 32 := by
  rw [blockWord, BitVec.extractLsb'_toNat, Nat.shiftRight_eq_div_pow]

/-- A register narrower than the bus reads zero-extended (R35 to R40). -/
theorem toNat_setWidth_word {k : Nat} (x : BitVec k) (h : k ≤ 32) : (x.setWidth 32).toNat = x.toNat :=
  BitVec.toNat_setWidth_of_le h

/-- Settles O51: the target of each offset, and the number its word is. -/
theorem registerReadWords : Obligations.RegisterReadWords := by
  intro d n o a v
  have hread {t : Target} (ht : target o = t) : v = (readTarget Config.params d n t).toNat := by
    subst ht
    rfl
  have hreg {b : Nat} (h : a = b) (hb : b < 0x10000) : v = (readTarget Config.params d n (registerAt b)).toNat :=
    hread (target_of_alignWord h hb)
  clear_value v
  refine ⟨fun h => hreg h (by decide), fun h => hreg h (by decide), fun h => ?_, fun h => ?_, fun h => ?_, fun h => ?_,
    fun h => ?_, fun h => ?_, fun h => ?_, fun h => ?_, fun h => hreg h (by decide), fun w hw h => ?_,
    fun w hw h => ?_, fun h => ?_⟩
  · exact (hreg h (by decide)).trans (toNat_ctrlWord d)
  · rw [← Device.busy_eq_decide]
    exact (hreg h (by decide)).trans (toNat_statusWord d)
  · exact (hreg h (by decide)).trans (toNat_setWidth_word d.inten (by decide))
  · exact (hreg h (by decide)).trans (toNat_setWidth_word d.radix (by decide))
  · exact (hreg h (by decide)).trans (toNat_setWidth_word d.keylen (by decide))
  · exact (hreg h (by decide)).trans (toNat_setWidth_word d.len (by decide))
  · exact (hreg h (by decide)).trans (toNat_setWidth_word d.tlen (by decide))
  · exact (hreg h (by decide)).trans (toNat_setWidth_word d.errinfo (by decide))
  · have ht : registerAt (0x060 + 4 * w) = .ivr w := by
      rw [registerAt_ivr (by omega) (by omega), show (0x060 + 4 * w - 0x060) / 4 = w by omega]
    rw [hreg h (by omega), ht]
    exact toNat_blockWord d.iv w
  · have ht : registerAt (0x070 + 4 * w) = .yr w := by
      rw [registerAt_yr (by omega) (by omega), show (0x070 + 4 * w - 0x070) / 4 = w by omega]
    rw [hreg h (by omega), ht]
    exact toNat_blockWord d.y w
  · have hlt : a < 0x10000 := by omega
    by_cases hk : 0x040 ≤ a ∧ a < 0x060
    · rw [hreg rfl hlt, registerAt_key hk.1 hk.2]
      rfl
    · rw [hreg rfl hlt, registerAt_unmapped (by omega)]
      rfl

/-- The flags' bits in STATUS (R34). -/
theorem statusWord_flags (d : Device) :
    d.statusWord.getLsbD 1 = d.done ∧ d.statusWord.getLsbD 2 = d.err ∧ d.statusWord.getLsbD 3 = d.wbusy := by
  unfold Device.statusWord
  simp only [BitVec.getLsbD_append]
  cases d.done <;> cases d.err <;> cases d.wbusy <;> simp [flagBit]

/-- Settles O52: the level of R46 is over the flags STATUS shows. -/
theorem irqIsTheEnabledPendingLevel : Obligations.IrqIsTheEnabledPendingLevel := by
  refine ⟨fun d => ?_, rfl⟩
  obtain ⟨hdone, herr, hwbusy⟩ := statusWord_flags d
  rw [hdone, herr, hwbusy]
  simp [Device.irq, or_assoc]

end Sys2Proof.Machine
end

section
/-! Commands that come to read a buffer byte nothing has written (10_state R50): in CHECK's scan of DATA and OPB
(60_exceptions R221), and in the MAC block of the first round that the tweak byte lies in (41_round_function R147). -/
namespace Sys2Proof.Machine

/-! ### A run that stops -/

section Stop
variable {P : Params} {c rd : BitVec 4} {s : State} {f : Fault}

/-- Steps within the bound that lead to a fault are the command's outcome. -/
theorem runCommand_fault_of_steps {n : Nat} {t : State} (hi : s.dev.busy = false)
    (h : Steps P n { s with dev := s.dev.start c rd } t) (hb : t.dev.busy = true) (ha : advance P t = .error f)
    (hn : n < commandBound s.dev.nVal s.dev.rVal s.dev.tVal) : runCommand P c rd s = .fault f := by
  obtain ⟨m, hm⟩ := Nat.exists_eq_add_of_lt hn
  have hrun : runToIdle P (commandBound s.dev.nVal s.dev.rVal s.dev.tVal) { s with dev := s.dev.start c rd } =
      .error f := by
    rw [hm, Nat.add_assoc, runToIdle_steps _ h]
    unfold runToIdle
    rw [if_pos hb, ha]
  unfold runCommand
  rw [if_neg (by simp [hi]), hrun]
  rfl

theorem advance_error_of_ctlStep (hp : s.dev.port = .free) (h : ctlStep P s.dev = .error f) :
    advance P s = .error f := by
  simp [advance, Device.waiting, hp, controllerMove, h]

/-- A scan that fails stops the command in CHECK. -/
theorem runCommand_fault_of_scan (hi : s.dev.Idle) (hr : registerError P (s.dev.start c rd) = none)
    (hs : symbolScan P (s.dev.start c rd) = .error f) : runCommand P c rd s = .fault f := by
  have hcheck : checkStep P (s.dev.start c rd) = .error f := by
    unfold checkStep
    rw [hr, hs]
  exact runCommand_fault_of_steps (Device.busy_false_iff.mpr hi.1) (.refl _) rfl
    (advance_error_of_ctlStep (s := { s with dev := s.dev.start c rd }) hi.2
      ((ctlStep_check (d := s.dev.start c rd) rfl hi.2).trans hcheck))
    (by unfold commandBound; omega)

end Stop

/-! ### The scan of DATA and OPB (R221) -/

section Scan
variable {P : Params} {d : Device} {p : Nat}

theorem scanBuf_unwritten {bf : Buf} {n : Nat} (hn : n ≤ Params.size P bf) (hp : p < n)
    (hb : ∀ a, a < p → ∃ c, Memory.read (d.buf bf) a = some c ∧ c.toNat < d.rVal)
    (hr : Memory.read (d.buf bf) p = none) : scanBuf P d bf n = .error (.unwrittenByte bf p) := by
  unfold scanBuf
  rw [if_pos hn, scanFrom_error 0 n (Nat.zero_le p) (by omega) (fun a _ ha => hb a ha) hr]

/-- The scan of a command other than IVGEN begins with DATA. -/
theorem symbolScan_data_unwritten (hreg : RegistersPass P d) (hiv : d.cmd ≠ Cmd.ivgen)
    (hp : p < if d.cmd = Cmd.prf then d.wVal else d.nVal)
    (hb : ∀ a, a < p → ∃ c, Memory.read d.data a = some c ∧ c.toNat < d.rVal) (hr : Memory.read d.data p = none) :
    symbolScan P d = .error (.unwrittenByte .data p) := by
  have hn : d.nVal ≤ Params.size P .data := hreg.len
  by_cases hprf : d.cmd = Cmd.prf
  · rw [if_pos hprf] at hp
    rw [symbolScan_of_prf hprf]
    exact scanBuf_unwritten (d.wVal_le.trans hn) hp hb hr
  rw [if_neg hprf] at hp
  have hscan : scanBuf P d .data d.nVal = .error (.unwrittenByte .data p) := scanBuf_unwritten hn hp hb hr
  unfold symbolScan
  rw [hscan]
  have hcmd := isCommand_cases hreg.command
  by_cases hf : d.cmd = Cmd.enc ∨ d.cmd = Cmd.dec
  · exact if_pos hf
  · rw [if_neg hf]
    exact if_pos (by tauto)

/-- The scan of MADD and MSUB goes on with OPB. -/
theorem symbolScan_opb_unwritten (hreg : RegistersPass P d) (hc : d.cmd = Cmd.madd ∨ d.cmd = Cmd.msub)
    (hp : p < d.nVal) (hdata : ∀ a, a < d.nVal → ∃ c, Memory.read d.data a = some c ∧ c.toNat < d.rVal)
    (hb : ∀ a, a < p → ∃ c, Memory.read d.opb a = some c ∧ c.toNat < d.rVal) (hr : Memory.read d.opb p = none) :
    symbolScan P d = .error (.unwrittenByte .opb p) := by
  have hd : scanBuf P d .data d.nVal = .ok none := (scanBuf_none_iff hreg.len).mpr hdata
  have ho : scanBuf P d .opb d.nVal = .error (.unwrittenByte .opb p) := scanBuf_unwritten hreg.len hp hb hr
  unfold symbolScan
  rw [if_neg (by rcases hc with hc | hc <;> rw [hc] <;> decide), if_pos hc, hd, ho]

end Scan

/-! ### The MAC block a tweak byte lies in (R135, R147) -/

/-- A read stops at the first byte without a value (R50). -/
theorem Memory.readBytes_unwritten {bf : Buf} {m : Memory} {p : Nat} (a n : Nat) (h1 : a ≤ p) (h2 : p < a + n)
    (hb : ∀ q, q < p → ∃ c, Memory.read m q = some c) (hp : Memory.read m p = none) :
    Memory.readBytes bf m a n = .error (.unwrittenByte bf p) := by
  induction n generalizing a with
  | zero => omega
  | succ n ih =>
    unfold Memory.readBytes
    obtain rfl | h3 := Nat.eq_or_lt_of_le h1
    · rw [hp]
    · obtain ⟨c, hc⟩ := hb a h3
      rw [hc, ih (a + 1) h3 (by omega)]

/-- A read of written bytes answers. -/
theorem Memory.readBytes_written {bf : Buf} {m : Memory} {a n : Nat}
    (hb : ∀ q, q < a + n → ∃ c, Memory.read m q = some c) : ∃ vs, Memory.readBytes bf m a n = .ok vs := by
  cases h : Memory.readBytes bf m a n with
  | ok vs => exact ⟨vs, rfl⟩
  | error f =>
    obtain ⟨p, -, -, hp, hr⟩ := Memory.readBytes_error h
    obtain ⟨c, hc⟩ := hb p hp
    rw [hr] at hc
    cases hc

/-- Q has the block that tweak byte p lies in (R136). -/
theorem block_le_qOf (n r : Nat) {t p : Nat} (h : p < t) : p / 16 + 1 ≤ qOf n r t := by
  unfold qOf padOf
  omega

section Mac
variable {P : Params} {d : Device} {p : Nat}

/-- MAC's request where the bytes of its block are written. -/
theorem macIssue_written (hf : num d.rVal d.half < 256 ^ d.bVal) (ht : d.tVal ≤ P.tweakMax) (h1 : 1 ≤ d.k.toNat)
    (hq : d.k.toNat ≤ d.qVal) (hb : ∀ a, a < 16 * d.k.toNat → ∃ c, Memory.read d.tweak a = some c) :
    ∃ x, macIssue P d = .ok (d.issue x) := by
  obtain ⟨vs, hvs⟩ := Memory.readBytes_written (bf := .tweak) (m := d.tweak) (a := min (16 * (d.k.toNat - 1)) d.tVal)
    (n := min 16 (d.tVal - 16 * (d.k.toNat - 1))) fun a ha => hb a (by omega)
  have hm : memRead P d .tweak (min (16 * (d.k.toNat - 1)) d.tVal) (min 16 (d.tVal - 16 * (d.k.toNat - 1))) = .ok vs := by
    unfold memRead
    rw [if_pos (by show _ ≤ P.tweakMax; omega)]
    exact hvs
  unfold macIssue qBlockBytes
  simp only
  rw [if_pos ⟨h1, hq⟩, if_pos hf, hm]
  exact ⟨_, rfl⟩

/-- MAC's request in whose block the first byte without a value lies. -/
theorem macIssue_unwritten (hf : num d.rVal d.half < 256 ^ d.bVal) (ht : d.tVal ≤ P.tweakMax) (hp : p < d.tVal)
    (hk : d.k.toNat = p / 16 + 1) (hb : ∀ a, a < p → ∃ c, Memory.read d.tweak a = some c)
    (hr : Memory.read d.tweak p = none) : macIssue P d = .error (.unwrittenByte .tweak p) := by
  have hq : d.k.toNat ≤ d.qVal := hk ▸ block_le_qOf _ _ hp
  have hm : memRead P d .tweak (min (16 * (d.k.toNat - 1)) d.tVal) (min 16 (d.tVal - 16 * (d.k.toNat - 1))) =
      .error (.unwrittenByte .tweak p) := by
    unfold memRead
    rw [if_pos (by show _ ≤ P.tweakMax; omega)]
    exact Memory.readBytes_unwritten _ _ (by omega) (by omega) hb hr
  unfold macIssue qBlockBytes
  simp only
  rw [if_pos ⟨by omega, hq⟩, if_pos hf, hm]

/-- One MAC call answered Ok, whatever its request, not the last of the round. -/
theorem steps_mac_call {s : State} {x : Block} (hph : s.dev.phase = .mac) (hp : s.dev.port = .free)
    (hi : macIssue P s.dev = .ok (s.dev.issue x)) (hq : s.dev.k.toNat < s.dev.qVal) (ha : s.env.nextDraw = .ok) :
    Steps P 3 s (s.after (macNext s.dev (cipherOf P s.dev x)) 1) := by
  refine Steps.call (by simp [Device.busy, hph]) hp ((ctlStep_mac hph hp).trans hi) ?_
  rw [ctlStep_mac_rsp (by exact hph) rfl, ha]
  exact congrArg Except.ok (macConsume_more _ (by exact hq))

/-- From block k on, MAC makes the c calls below the block of byte p, and stops there. -/
theorem steps_mac_to_unwritten (c : Nat) {s : State} (hph : s.dev.phase = .mac) (hp : s.dev.port = .free)
    (hf : num s.dev.rVal s.dev.half < 256 ^ s.dev.bVal) (ht : s.dev.tVal ≤ P.tweakMax) (hr : s.dev.rVal ≤ 64)
    (hpt : p < s.dev.tVal) (h1 : 1 ≤ s.dev.k.toNat) (hk : s.dev.k.toNat + c = p / 16 + 1)
    (hb : ∀ a, a < p → ∃ v, Memory.read s.dev.tweak a = some v) (hn : Memory.read s.dev.tweak p = none)
    (ha : s.env.Answers c) :
    ∃ t, Steps P (3 * c) s t ∧ t.dev.busy = true ∧ advance P t = .error (.unwrittenByte .tweak p) := by
  have hbusy : s.dev.busy = true := by simp [Device.busy, hph]
  have hq : p / 16 + 1 ≤ s.dev.qVal := block_le_qOf _ _ hpt
  induction c generalizing s with
  | zero =>
    exact ⟨s, .refl s, hbusy, advance_error_of_ctlStep hp ((ctlStep_mac hph hp).trans
      (macIssue_unwritten hf ht hpt hk hb hn))⟩
  | succ c ih =>
    obtain ⟨x, hx⟩ := macIssue_written hf ht h1 (by omega) fun a ha => hb a (by omega)
    have hcall := steps_mac_call hph hp hx (by omega) (Env.nextDraw_of_answers ha)
    have hnext : (s.dev.k + 1).toNat = s.dev.k.toNat + 1 :=
      toNat_succ (q := s.dev.qVal) (by omega) (qOf_lt hr s.dev.nVal_lt s.dev.tVal_lt)
    obtain ⟨t, hsteps, hstop⟩ := ih (s := s.after (macNext s.dev (cipherOf P s.dev x)) 1) hph rfl hf ht hr hpt
      (by change 1 ≤ (s.dev.k + 1).toNat; omega) (by change (s.dev.k + 1).toNat + c = _; omega) hb hn
      (State.answers_after (by rwa [Nat.add_comm 1])) hbusy hq
    exact ⟨t, by rw [Nat.mul_succ, Nat.add_comm]; exact hcall.trans hsteps, hstop⟩

end Mac

/-! ### From START to the MAC block (R180 to R182) -/

/-- A command that has reached its first round stops on the first tweak byte without a value. -/
theorem runCommand_fault_of_round {P : Params} {c rd : BitVec 4} {s : State} {e : Device} {i p : Nat}
    {ab : List Nat × List Nat} {iv : Block} (h : CipherReady P s.dev)
    (hstart : Steps P 5 (s.after (s.dev.start c rd) 0) (s.after e 1)) (hround : AtRound i ab iv e)
    (hkeeps : RoundKeeps 1 (s.dev.start c rd) e) (hl : e.half.length ≤ vOf s.dev.nVal)
    (hd : ∀ x ∈ e.half, x < s.dev.rVal) (hp : p < s.dev.tVal)
    (hb : ∀ a, a < p → ∃ v, Memory.read s.dev.tweak a = some v) (hn : Memory.read s.dev.tweak p = none)
    (ha : s.env.Answers (1 + p / 16)) : runCommand P c rd s = .fault (.unwrittenByte .tweak p) := by
  obtain ⟨hr2, hr62⟩ := h.radix
  obtain ⟨dr, dn, dt, -, -, db⟩ := hkeeps.derived
  have hdr : e.rVal = s.dev.rVal := dr
  have hdt : e.tVal = s.dev.tVal := dt
  have hdb : e.bVal = s.dev.bVal := db
  have htw : e.tweak = s.dev.tweak := hkeeps.tweak
  have hk1 : e.k.toNat = 1 := by rw [hround.first]; rfl
  obtain ⟨t, hsteps, hbusy, herr⟩ := steps_mac_to_unwritten (P := P) (p := p) (p / 16) (s := s.after e 1)
    hround.phase hround.port (by rw [State.after_dev, hdr, hdb]; exact num_half_lt (by omega) hl hd)
    (by rw [State.after_dev, hdt]; exact h.tlen) (by rw [State.after_dev, hdr]; omega)
    (by rw [State.after_dev, hdt]; exact hp) (by rw [State.after_dev, hk1]) (by rw [State.after_dev, hk1]; omega)
    (by rw [State.after_dev, htw]; exact hb) (by rw [State.after_dev, htw]; exact hn) (State.answers_after ha)
  have hq : p / 16 + 1 ≤ qOf s.dev.nVal s.dev.rVal s.dev.tVal := block_le_qOf _ _ hp
  exact runCommand_fault_of_steps (Device.busy_false_iff.mpr h.idle.1) (hstart.trans hsteps) hbusy herr
    (by unfold commandBound; omega)

/-- A cipher command whose registers pass is ready, idle. -/
theorem cipherReady_of_registersPass {P : Params} {d : Device} {c rd : BitVec 4} (hi : d.Idle)
    (h : RegistersPass P (d.start c rd)) (hc : usesCipher c = true) : CipherReady P d :=
  ⟨⟨hi, h.radix, h.len⟩, h.key hc, h.tlen hc⟩

theorem splitHalves_length_le (x : List Nat) :
    (splitHalves x).1.length ≤ vOf x.length ∧ (splitHalves x).2.length ≤ vOf x.length := by
  unfold splitHalves uOf vOf
  simp only [List.length_take, List.length_drop]
  omega

theorem wOf_le_vOf (n i : Nat) : wOf n i ≤ vOf n := by
  rw [wOf_eq]
  exact sub_mOf_le_vOf n i

/-- Settles O20: CHECK's scan stops on a DATA or OPB byte, MAC on a tweak byte in the block of its own. -/
theorem unwrittenOperandByteFaults : Obligations.UnwrittenOperandByteFaults := by
  refine ⟨fun i s p hi hr hiv hp hb hn => ?_, fun i s p hi hr hc hp hdata hb hn => ?_,
    fun i s x p hi hr hc h1 hx hd hp hb hn ha => ?_⟩
  · rw [exec_eq_runCommand]
    exact runCommand_fault_of_scan hi hr
      (symbolScan_data_unwritten (registersPass_of_registerError hr) hiv hp hb hn)
  · rw [exec_eq_runCommand]
    exact runCommand_fault_of_scan hi hr
      (symbolScan_opb_unwritten (registersPass_of_registerError hr) hc hp hdata hb hn)
  rw [exec_eq_runCommand]
  have hreg := registersPass_of_registerError hr
  have ha1 : s.env.Answers 1 := Env.answers_mono ha (by omega)
  obtain hc | hc | hc := hc <;> rw [hc] at hreg hx ⊢
  · have hready := cipherReady_of_registersPass hi hreg (by decide)
    rw [if_neg (by decide)] at hx
    obtain ⟨e, hsteps, hround, hkeeps⟩ := steps_start_enc i.round hready h1 hx hd ha1
    have hhalf : e.half = (splitHalves x).2 := by
      unfold Device.half
      rw [hkeeps.cmd]
      exact hround.halfB
    exact runCommand_fault_of_round hready hsteps hround hkeeps
      (by rw [hhalf, ← hx]; exact (splitHalves_length_le x).2)
      (by rw [hhalf]; exact fun c hm => hd.2 c (List.mem_of_mem_drop hm)) hp hb hn ha
  · have hready := cipherReady_of_registersPass hi hreg (by decide)
    rw [if_neg (by decide)] at hx
    obtain ⟨e, hsteps, hround, hkeeps⟩ := steps_start_dec i.round hready h1 hx hd ha1
    have hhalf : e.half = (splitHalves x).1 := by
      unfold Device.half
      rw [hkeeps.cmd]
      exact hround.halfA
    exact runCommand_fault_of_round hready hsteps hround hkeeps
      (by rw [hhalf, ← hx]; exact (splitHalves_length_le x).1)
      (by rw [hhalf]; exact fun c hm => hd.2 c (List.mem_of_mem_take hm)) hp hb hn ha
  · have hready := cipherReady_of_registersPass hi hreg (by decide)
    rw [if_pos rfl] at hx
    obtain ⟨e, hsteps, hround, hkeeps⟩ := steps_start_prf hready h1 (hreg.prfRound rfl) hx hd ha1
    have hhalf : e.half = x := by
      unfold Device.half
      rw [hkeeps.cmd]
      exact hround.halfB
    exact runCommand_fault_of_round hready hsteps hround hkeeps (by rw [hhalf, hx]; exact wOf_le_vOf _ _)
      (by rw [hhalf]; exact hd.2) hp hb hn ha

end Sys2Proof.Machine
end

section
/-! The host's and the engine's moves as steps (20_memory R65, R66, R70, 30_encoding R88), word alignment of host
accesses (20_memory R64), and a buffer word written and read back (20_memory R61, R63, R68, R69). -/
namespace Sys2Proof.Machine

/-! ### A scheduled move is the step (R231) -/

section Sched
variable {s : State} {ms : List Move}

/-- A scheduled move other than the merged command is that agent's move, taken off the schedule. -/
theorem step_of_sched {m : Move} (h : s.env.sched = m :: ms) (hm : m ≠ .command) :
    step s = toOutcome (agentMove Config.params m { s with env := { s.env with sched := ms } }) := by
  have hn : nextMove s = some (m, { s with env := { s.env with sched := ms } }) := by
    unfold nextMove
    rw [h]
  unfold step
  rw [hn]
  cases m with
  | command => exact absurd rfl hm
  | host | controller | engine | reset => rfl

theorem step_host (h : s.env.sched = .host :: ms) :
    step s = .next (hostMove Config.params { s with env := { s.env with sched := ms } }) :=
  step_of_sched h (by decide)

/-- The host's step makes the access at the head of the script. -/
theorem step_host_access {op : HostOp} {ops : List HostOp} (h : s.env.sched = .host :: ms)
    (hs : s.env.script = op :: ops) :
    step s = .next (hostAccess Config.params op ops { s with env := { s.env with sched := ms } }) := by
  rw [step_host h, hostMove]
  simp only [hs]

/-- While the port is Req the controller has no step (R194). -/
theorem step_controller_waiting (h : s.env.sched = .controller :: ms) (hw : s.dev.waiting = true) :
    step s = .next { s with env := { s.env with sched := ms } } := by
  rw [step_of_sched h (by decide), agentMove, controllerMove, ctlStep_waiting hw]
  rfl

/-- The engine serves a request with its next draw (R66). -/
theorem step_engine_waiting (h : s.env.sched = .engine :: ms) (hw : s.dev.waiting = true) :
    step s = .next { dev := s.dev.serve Config.params s.env.nextDraw,
                     env := { s.env with sched := ms, engine := s.env.engine.tail } } := by
  rw [step_of_sched h (by decide), agentMove, engineMove, if_pos hw]
  rfl

/-- With no request the engine has no step (R66). -/
theorem step_engine_not_waiting (h : s.env.sched = .engine :: ms) (hw : s.dev.waiting = false) :
    step s = .next { s with env := { s.env with sched := ms } } := by
  rw [step_of_sched h (by decide), agentMove, engineMove, if_neg (by rw [hw]; decide)]
  rfl

end Sched

theorem Device.serve_ok {P : Params} {d : Device} {key : List Byte} {x : Block} (h : d.port = .req key x) :
    d.serve P .ok = { d with port := .rsp (.ok (P.ciph key x)) } := by
  rw [serve, h]

theorem Device.serve_fail {P : Params} {d : Device} {key : List Byte} {x : Block} (h : d.port = .req key x) :
    d.serve P .fail = { d with port := .rsp .fail } := by
  rw [serve, h]

/-- Settles O41: a waiting controller stays, and the engine serves exactly a waiting port. -/
theorem portProtocolAlternates : Obligations.PortProtocolAlternates := by
  intro s key x ms
  have hwait (hp : s.dev.port = .req key x) : s.dev.waiting = true := Device.waiting_iff.mpr ⟨key, x, hp⟩
  refine ⟨fun hp hs => step_controller_waiting hs (hwait hp), fun hp hs hd => ?_, fun hp hs hd => ?_,
    fun hw hs => step_engine_not_waiting hs hw⟩
  · rw [step_engine_waiting hs (hwait hp), Env.nextDraw, hd, Device.serve_ok hp]
  · rw [step_engine_waiting hs (hwait hp), Env.nextDraw, hd, Device.serve_fail hp]

/-- Settles O43: reads and polls change the host's own data only. -/
theorem hostReadsHaveNoSideEffect : Obligations.HostReadsHaveNoSideEffect := by
  intro s o mask val ops ms hs
  refine ⟨fun hr => ⟨_, step_host_access hs hr, rfl, rfl, rfl, rfl, rfl⟩, fun hp => ?_⟩
  refine ⟨_, step_host_access hs hp, rfl, rfl, rfl, rfl, fun hmatch => if_pos hmatch, fun hdiff => ?_⟩
  exact (if_neg hdiff).trans hp.symm

/-- Settles O44: the head of the script is the write. -/
theorem hostWriteStepWritesTheWindow : Obligations.HostWriteStepWritesTheWindow :=
  fun _ _ _ _ _ hs hw => step_host_access hs hw

/-! ### Word alignment (R64) -/

/-- Masking bits [1:0] of an offset leaves its word as it is. -/
theorem alignWord_mask (o : Offset) : alignWord (o &&& 0x3FFFC#18) = alignWord o := by
  have hdiv : (o.toNat &&& 0x3FFFC) / 4 = o.toNat / 4 :=
    calc (o.toNat &&& 0x3FFFC) / 4
      _ = (o.toNat &&& 0x3FFFC) >>> 2 := (Nat.shiftRight_eq_div_pow _ 2).symm
      _ = o.toNat >>> 2 &&& (2 ^ 16 - 1) := Nat.shiftRight_and_distrib
      _ = o.toNat / 4 % 2 ^ 16 := by rw [Nat.and_two_pow_sub_one_eq_mod, Nat.shiftRight_eq_div_pow]
      _ = o.toNat / 4 := Nat.mod_eq_of_lt (by omega)
  exact congrArg (4 * ·) hdiv

/-- What an offset reaches depends on its word only. -/
theorem target_mask (o : Offset) : target (o &&& 0x3FFFC#18) = target o := by
  simp only [target, alignWord_mask]

/-- Settles O48: reads and writes see the offset through its target, and a host move always has an answer. -/
theorem offsetLowBitsAreIgnored : Obligations.OffsetLowBitsAreIgnored := by
  refine ⟨fun d o x n => ⟨?_, ?_⟩, fun s ms hs => ⟨_, step_host hs⟩⟩
  · rw [hostWrite, hostWrite, target_mask]
  · rw [hostRead, hostRead, target_mask]

/-! ### A buffer word (R61, R63, R68, R69) -/

/-- The four bytes of a word, packed, are the word (R61). -/
theorem packWord_wordByte (x : Word) :
    packWord (wordByte x 0) (wordByte x 1) (wordByte x 2) (wordByte x 3) = x := by
  apply BitVec.eq_of_toNat_eq
  simp only [packWord, wordByte, toNat_append_eq_add, BitVec.extractLsb'_toNat, Nat.shiftRight_eq_div_pow]
  omega

/-- The offset of a window's word reaches that word of the window's buffer (R63). -/
theorem target_buffer {b : Buf} {base : Nat} {o : Offset}
    (hb : (b = .tweak ∧ base = 0x10000) ∨ (b = .data ∧ base = 0x20000) ∨ (b = .opb ∧ base = 0x30000))
    (hlo : base ≤ o.toNat) (hhi : o.toNat < base + 0x10000) : target o = .buf b (4 * ((o.toNat - base) / 4)) := by
  have ha : alignWord o = base + 4 * ((o.toNat - base) / 4) := by
    unfold alignWord
    omega
  rw [target_window (by omega), windowBuf, show alignWord o % 0x10000 = 4 * ((o.toNat - base) / 4) by omega]
  obtain ⟨rfl, rfl⟩ | ⟨rfl, rfl⟩ | ⟨rfl, rfl⟩ := hb
  · rw [if_pos (by omega)]
  · rw [if_neg (by omega), if_pos (by omega)]
  · rw [if_neg (by omega), if_neg (by omega)]

section BufWord
variable {P : Params} {d : Device} {b : Buf} {a : Nat}

theorem writeBufWord_outside (x : Word) (h : Params.size P b ≤ a) : writeBufWord P b a x d = d :=
  if_neg (by omega)

theorem writeBufWord_phase (x : Word) : (writeBufWord P b a x d).phase = d.phase := by
  rw [writeBufWord_frame, Device.setBuf_phase]

theorem bufWord_busy (n : Nat) (h : d.phase ≠ .idle) : bufWord P d b a n = 0 := if_pos (Device.busy_iff.mpr h)

theorem bufWord_outside (n : Nat) (h : Params.size P b ≤ a) : bufWord P d b a n = 0 := by
  rw [bufWord, if_neg (show ¬ a < Params.size P b by omega), ite_self]

/-- While idle a word inside the buffer reads as its four bytes. -/
theorem bufWord_inside (n : Nat) (hi : d.phase = .idle) (h : a < Params.size P b) :
    bufWord P d b a n = packWord (hostByte (d.buf b) a n) (hostByte (d.buf b) (a + 1) (n + 1))
      (hostByte (d.buf b) (a + 2) (n + 2)) (hostByte (d.buf b) (a + 3) (n + 3)) := by
  rw [bufWord, Device.busy_false_iff.mpr hi, if_neg (by decide), if_pos h]

/-- The host sees the byte just written, whatever a free byte would be. -/
theorem hostByte_writeBufWord (x : Word) (k : Nat) (h : a < Params.size P b) {c : Nat} (hc : c < 4) :
    hostByte ((writeBufWord P b a x d).buf b) (a + c) k = wordByte x c := by
  rw [hostByte, read_writeBufWord, if_pos ⟨h, by omega, by omega⟩, Nat.add_sub_cancel_left]
  rfl

/-- A word written while idle inside the buffer reads back. -/
theorem bufWord_writeBufWord (x : Word) (n : Nat) (hi : d.phase = .idle) (h : a < Params.size P b) :
    bufWord P (writeBufWord P b a x d) b a n = x := by
  have hbyte (k : Nat) {c : Nat} (hc : c < 4) := hostByte_writeBufWord (d := d) x k h hc
  have hfirst := hbyte n (c := 0) (by decide)
  rw [Nat.add_zero] at hfirst
  rw [bufWord_inside n ((writeBufWord_phase x).trans hi) h, hfirst, hbyte (n + 1) (c := 1) (by decide),
    hbyte (n + 2) (c := 2) (by decide), hbyte (n + 3) (c := 3) (by decide), packWord_wordByte]

end BufWord

/-- Settles O49: the offset reaches the word of its window's buffer; there a write sets four bytes, a read packs
them. -/
theorem bufferWindowWordAccess : Obligations.BufferWindowWordAccess := by
  intro d b base o x n hb hlo hhi a
  have ht : target o = .buf b a := target_buffer hb hlo hhi
  have hread (e : Device) : hostRead Config.params o e n = bufWord Config.params e b a n := by
    rw [hostRead, ht]
    rfl
  have hwrite (hi : d.phase = .idle) : hostWrite Config.params o x d = writeBufWord Config.params b a x d := by
    rw [hostWrite_idle hi, ht]
    rfl
  clear_value a
  rw [← Config.params_size b]
  refine ⟨fun hi ha => ?_, fun hi ha => ?_, fun hbusy => ?_⟩
  · rw [hread, hwrite hi]
    refine ⟨fun c hc => ?_, fun p hp => ?_, writeBufWord_frame .., bufWord_writeBufWord x n hi ha⟩
    · rw [read_writeBufWord, if_pos ⟨ha, by omega, by omega⟩, Nat.add_sub_cancel_left]
      rfl
    · rw [read_writeBufWord, if_neg (by omega)]
  · rw [hread, hwrite hi]
    exact ⟨writeBufWord_outside x ha, bufWord_outside n ha⟩
  · rw [hread]
    exact bufWord_busy n hbusy

end Sys2Proof.Machine
end

section
/-! The command word CW: decoding and encoding undo each other (30_encoding R80, R81, R86, R87), and a step runs the
command whose word the host writes next (42_feistel_controller R170). -/
namespace Sys2Proof

/-! ### The opcode map (R81, R86) -/

@[simp] theorem instrOf_cmd (c rd : BitVec 4) : (instrOf c rd).cmd = c := by
  revert c rd
  decide

@[simp] theorem instrOf_round (c rd : BitVec 4) : (instrOf c rd).round = rd := by
  revert c rd
  decide

theorem instrOf_wf (c rd : BitVec 4) : (instrOf c rd).wf = true := by
  revert c rd
  decide

/-- A CMD that is no command falls to the map's last row. -/
theorem instrOf_illegal {c : BitVec 4} (rd : BitVec 4) (h : (Instr.illegal c rd).wf = true) :
    instrOf c rd = .illegal c rd := by
  revert c rd
  decide

/-- A well-formed command is the map's row at its own CMD and ROUND. -/
theorem instrOf_cmd_round {i : Instr} (h : i.wf = true) : instrOf i.cmd i.round = i := by
  cases i with
  | illegal c rd => exact instrOf_illegal rd h
  | enc | dec | prf | madd | msub | ivgen => rfl

/-! ### Words (R80, R87) -/

theorem decode_of_start {x : Word} (h : x.getLsbD 0 = true) : decode x = .ok (instrOf (cwCmd x) (cwRound x)) :=
  if_pos h

theorem decode_of_no_start {x : Word} (h : x.getLsbD 0 = false) : decode x = .error .noStart := by
  rw [decode, cwStart, h]
  rfl

/-- Every command's word has its fields in place. -/
theorem encode_fields (i : Instr) : Laws.EncodeFields.Statement i := Laws.EncodeFields.fields i.cmd i.round

theorem decode_encode {i : Instr} (h : i.wf = true) : decode (encode i) = .ok i := by
  obtain ⟨hstart, hcmd, hround, -⟩ := encode_fields i
  rw [decode_of_start hstart, hcmd, hround, instrOf_cmd_round h]

/-- The fields of a START word, put together again, are the word without its reserved bits. -/
theorem encode_instrOf {x : Word} (h : x.getLsbD 0 = true) :
    encode (instrOf (cwCmd x) (cwRound x)) = x &&& 0x00000FF1#32 := by
  rw [encode, instrOf_cmd, instrOf_round, cwCmd, cwRound]
  ext b hb
  interval_cases b <;> simp [← BitVec.getLsbD_eq_getElem, h]

/-- Settles O1: CMD and ROUND pass through the word's fields, and the opcode map gives each CMD its own row. -/
theorem decodeEncodeRoundTrip : Obligations.DecodeEncodeRoundTrip :=
  ⟨fun _ => decode_encode, fun _ h => ⟨_, decode_of_start h, instrOf_wf _ _, encode_instrOf h⟩,
    fun _ => decode_of_no_start⟩

/-- Settles O2: each word's START bit is set, and its CMD and ROUND give the row. -/
theorem specCommandWordsDecode : Obligations.SpecCommandWordsDecode :=
  ⟨decode_of_start rfl, decode_of_start rfl, decode_of_start rfl, decode_of_start rfl, decode_of_start rfl,
    decode_of_start rfl, decode_of_start rfl, decode_of_start rfl, decode_of_start rfl, decode_of_start rfl⟩

namespace Machine

/-! ### The step that starts a command (R80, R170) -/

/-- A START word written to CTRL is fetched as its command. -/
theorem fetchCommand_start {s : State} {o : Offset} {x : Word} {i : Instr} {ops : List HostOp} (ho : target o = .ctrl)
    (hx : decode x = .ok i) (hs : s.env.script = .write o x :: ops) :
    fetchCommand s = some (i, { s with env := { s.env with script := ops } }) := by
  simp only [fetchCommand, hs, ho, hx, if_true]

theorem step_command {s s' s'' : State} {i : Instr} (hn : nextMove s = some (.command, s'))
    (hf : fetchCommand s' = some (i, s'')) : step s = exec i s'' := by
  simp only [step, hn, hf]

/-- Settles O3: the merged move is next, by the schedule or by default, and it fetches the command written. -/
theorem stepRunsFetchedCommand : Obligations.StepRunsFetchedCommand := by
  intro s o x i ops ho hx hs
  refine ⟨fun ms hm => ?_, fun hm hi => ?_⟩
  · have hn : nextMove s = some (.command, { s with env := { s.env with sched := ms } }) := by
      simp only [nextMove, hm]
    exact step_command hn (fetchCommand_start ho hx hs)
  · have hn : nextMove s = some (.command, s) := by
      simp [nextMove, hm, defaultMove, hi, hs]
    exact step_command hn (fetchCommand_start ho hx hs)

end Machine
end Sys2Proof
end

section
/-! A START whose command ends in CHECK (60_exceptions R221, R222), and with it the ILLEGAL row of the opcode table
(30_encoding R86). -/
namespace Sys2Proof.Machine

section Check
variable {P : Params} {c rd : BitVec 4} {s : State}

/-- A command that CHECK ends is its START and that one step (R172). -/
theorem runCommand_of_check {e : Device} (hi : s.dev.Idle) (h : checkStep P (s.dev.start c rd) = .ok e)
    (he : e.phase = .idle) : runCommand P c rd s = .next { s with dev := e } :=
  runCommand_of_steps (Device.busy_false_iff.mpr hi.1)
    (.controller rfl hi.2 ((ctlStep_check (d := s.dev.start c rd) rfl hi.2).trans h)) (Device.busy_false_iff.mpr he)
    (by unfold commandBound; omega)

/-- The first of R221's register conditions that holds ends the command. -/
theorem runCommand_of_registerError {code : ErrorCode} (hi : s.dev.Idle)
    (h : registerError P (s.dev.start c rd) = some code) :
    runCommand P c rd s = .next { s with dev := (s.dev.start c rd).raise code 0 } :=
  runCommand_of_check hi (by rw [checkStep, h]) rfl

/-- An error raised right after START is an error end with no cipher call (R222, R223). -/
theorem errorEnd_raise_start {code : ErrorCode} {info : BitVec 17} (hp : s.dev.port = .free)
    (hinfo : code ≠ .invalidSymbol → info = 0) :
    ErrorEnd c rd 0 code info s { s with dev := (s.dev.start c rd).raise code info } where
  inten := rfl
  radix := rfl
  keylen := rfl
  len := rfl
  tlen := rfl
  key := rfl
  tweak := rfl
  phase := rfl
  port := hp
  cmd := rfl
  ctrlCmd := rfl
  ctrlRound := rfl
  wbusy := rfl
  ciphcnt := rfl
  env := rfl
  data := rfl
  opb := rfl
  done := rfl
  err := rfl
  errcode := rfl
  errinfo := by
    rw [Device.raise_errinfo, Device.start_errinfo, ite_eq_left_iff]
    exact fun hc => (hinfo hc).symm

theorem keepsWorking_raise (code : ErrorCode) (info : BitVec 17) (d : Device) : KeepsWorking d (d.raise code info) :=
  ⟨rfl, rfl, rfl, rfl, rfl, rfl, rfl, rfl, rfl⟩

theorem keepsWorking_raise_start (code : ErrorCode) (info : BitVec 17) (d : Device) :
    KeepsWorking d ((d.start c rd).raise code info) := ⟨rfl, rfl, rfl, rfl, rfl, rfl, rfl, rfl, rfl⟩

/-- Condition 1 of R221 comes before every other. -/
theorem registerError_of_not_command {d : Device} (h : isCommand d.cmd = false) :
    registerError P d = some .illegalCommand := if_pos (by rw [h]; rfl)

end Check

/-- Settles O15: an ill-coded CMD is the first condition CHECK tests, and its error is raised in the START's state. -/
theorem illegalCommandEndsInError : Obligations.IllegalCommandEndsInError := by
  intro c rd s hwf hi
  have hc : isCommand c = false := by simpa [Instr.wf] using hwf
  exact ⟨_, runCommand_of_registerError hi (registerError_of_not_command hc),
    errorEnd_raise_start hi.2 fun _ => rfl, keepsWorking_raise_start ..⟩

end Sys2Proof.Machine
end

section
/-! What a command leaves unchanged, whatever its outcome (30_encoding R82, 42_feistel_controller R178,
70_reset_and_hazards R259): the buffer bytes no WRITEBACK writes, and the working registers a command does not use. -/
namespace Sys2Proof.Machine

/-! ### Buffer bytes kept -/

theorem KeepsFrom.refl (n : Nat) (m : Memory) : KeepsFrom n m m := fun _ _ => rfl

theorem KeepsFrom.trans {n : Nat} {m m' m'' : Memory} (h : KeepsFrom n m m') (g : KeepsFrom n m' m'') :
    KeepsFrom n m m'' := fun a ha => (g a ha).trans (h a ha)

theorem KeepsFrom.writeBytes (m : Memory) (vs : List Byte) : KeepsFrom vs.length m (Memory.writeBytes m 0 vs) :=
  fun a ha => Memory.read_writeBytes_other m 0 a vs (.inr (by omega))

/-- What a controller step may write of DATA and OPB: the result range of its command, in the result's buffer (R178). -/
structure WritesResultOnly (d e : Device) : Prop where
  dataFrom : KeepsFrom d.nVal d.data e.data
  opbFrom : KeepsFrom d.mVal d.opb e.opb
  opb : d.cmd ≠ Cmd.prf → e.opb = d.opb
  data : d.cmd = Cmd.prf → e.data = d.data

theorem KeepsBuffers.writesResultOnly {d e : Device} (h : KeepsBuffers d e) : WritesResultOnly d e where
  dataFrom := by rw [h.data]; exact .refl _ _
  opbFrom := by rw [h.opb]; exact .refl _ _
  opb _ := h.opb
  data _ := h.data

section Step
variable {P : Params} {d e : Device}

/-- DATA and OPB are written in WRITEBACK only (R223). -/
theorem ctlStep_keepsBuffers (hph : d.phase ≠ .writeback) (h : ctlStep P d = .ok e) : KeepsBuffers d e := by
  obtain rfl | ⟨-, -, h⟩ | ⟨-, -, h⟩ | ⟨-, -, rfl⟩ | ⟨-, res, -, rfl⟩ | ⟨-, -, h⟩ | ⟨-, res, -, rfl⟩ | ⟨-, -, rfl⟩ |
    ⟨-, res, -, rfl⟩ | ⟨-, -, h⟩ | ⟨-, -, h⟩ | ⟨-, -, h⟩ | ⟨hw, -, -⟩ := ctlStep_cases h
  · exact ⟨rfl, rfl⟩
  · obtain ⟨c, -, rfl⟩ | ⟨-, x, -, rfl⟩ | ⟨-, -, rfl⟩ := checkStep_ok h
    · exact ⟨rfl, rfl⟩
    · exact ⟨rfl, rfl⟩
    · exact (checkPassed_keeps d).2
  · exact (loadStep_keeps h).2
  · exact ⟨rfl, rfl⟩
  · exact (hdrConsume_keeps res d).2
  · obtain ⟨s, -, rfl⟩ := macIssue_ok h; exact ⟨rfl, rfl⟩
  · exact (macConsume_keeps res d).2
  · exact ⟨rfl, rfl⟩
  · exact (expandConsume_keeps res d).2
  · obtain ⟨f, -, rfl⟩ := reduceStep_ok h; exact ⟨rfl, rfl⟩
  · exact (addStep_keeps h).2
  · exact (subStep_keeps h).2
  · exact absurd hw hph

/-- WRITEBACK puts PRF's m(i) digits in OPB and any other command's n digits in DATA, and completes (R178, R179). -/
theorem writebackStep_ok (h : writebackStep P d = .ok e) :
    (d.cmd = Cmd.prf ∧ ∃ v : List Byte, v.length = d.mVal ∧
      e = { d with opb := Memory.writeBytes d.opb 0 v }.complete) ∨
    (d.cmd ≠ Cmd.prf ∧ ∃ v : List Byte, v.length = d.nVal ∧
      e = { d with data := Memory.writeBytes d.data 0 v }.complete) := by
  unfold writebackStep writeHalves writePrf writeSum at h
  split at h
  case isTrue hc =>
    obtain ⟨hl, -, rfl⟩ := writeResult_ok h
    exact .inr ⟨by rcases hc with hc | hc <;> rw [hc] <;> decide, _, by simpa using hl, rfl⟩
  split at h
  case isTrue hc =>
    obtain ⟨hl, -, rfl⟩ := writeResult_ok h
    exact .inl ⟨hc, _, by simpa using hl, rfl⟩
  case isFalse hc =>
    split at h
    · obtain ⟨hl, -, rfl⟩ := writeResult_ok h
      exact .inr ⟨hc, _, by simpa using hl, rfl⟩
    · cases h

theorem writebackStep_writesResultOnly (h : writebackStep P d = .ok e) : WritesResultOnly d e := by
  obtain ⟨hc, v, hv, rfl⟩ | ⟨hc, v, hv, rfl⟩ := writebackStep_ok h
  · exact { dataFrom := .refl _ _, opbFrom := hv ▸ .writeBytes _ _, opb := fun hn => absurd hc hn, data := fun _ => rfl }
  · exact { dataFrom := hv ▸ .writeBytes _ _, opbFrom := .refl _ _, opb := fun _ => rfl, data := fun he => absurd he hc }

theorem ctlStep_writesResultOnly (h : ctlStep P d = .ok e) : WritesResultOnly d e := by
  by_cases hph : d.phase = .writeback
  · have hcases := ctlStep_cases h
    simp only [hph, reduceCtorEq, false_and, true_and, false_or] at hcases
    obtain rfl | ⟨-, hw⟩ := hcases
    · exact KeepsBuffers.writesResultOnly ⟨rfl, rfl⟩
    · exact writebackStep_writesResultOnly hw
  · exact (ctlStep_keepsBuffers hph h).writesResultOnly

end Step

/-! ### Along a command -/

section Exec
variable {i : Instr} {s t : State}

/-- What every command keeps, whatever its outcome (R82, R259). -/
theorem exec_keeps (hi : s.dev.phase = .idle) (h : exec i s = .next t) :
    KeepsOperands s.dev t.dev ∧ t.dev.wbusy = s.dev.wbusy ∧ t.env = { s.env with engine := t.env.engine } := by
  rw [exec_eq_runCommand] at h
  obtain ⟨-, n, -, hs⟩ := runCommand_next (Device.busy_false_iff.mpr hi) h
  obtain ⟨hk, k, hv⟩ := hs.keepsHost
  exact ⟨⟨hk.inten, hk.radix, hk.keylen, hk.len, hk.tlen, hk.key, hk.tweak⟩, hk.wbusy, by rw [hv]⟩

/-- What holds at the START and is kept by every step of the running command holds at its end. -/
theorem exec_induction {I : State → Prop} (hi : s.dev.phase = .idle) (h : exec i s = .next t)
    (hstart : I { s with dev := s.dev.start i.cmd i.round })
    (hstep : ∀ u v, KeepsHostState (s.dev.start i.cmd i.round) u.dev → I u → advance Config.params u = .ok v → I v) :
    I t := by
  rw [exec_eq_runCommand] at h
  obtain ⟨-, n, -, hs⟩ := runCommand_next (Device.busy_false_iff.mpr hi) h
  have hrun := hs.keeps
    (R := fun u v => KeepsHostState (s.dev.start i.cmd i.round) u.dev ∧ I u →
      KeepsHostState (s.dev.start i.cmd i.round) v.dev ∧ I v)
    (fun _ hu => hu) (fun _ _ _ huv hvw hu => hvw (huv hu))
    fun u v _ ha hu => ⟨hu.1.trans (advance_keeps ha).1, hstep u v hu.1 hu.2 ha⟩
  exact (hrun ⟨.refl _, hstart⟩).2

/-- The same of the device alone: the engine's answer keeps it, and each controller step does. -/
theorem exec_device_induction {I : Device → Prop} (hi : s.dev.phase = .idle) (h : exec i s = .next t)
    (hstart : I (s.dev.start i.cmd i.round)) (hserve : ∀ d a, I d → I (d.serve Config.params a))
    (hstep : ∀ d e, KeepsHostState (s.dev.start i.cmd i.round) d → I d → ctlStep Config.params d = .ok e → I e) :
    I t.dev := by
  refine exec_induction (I := fun u => I u.dev) hi h hstart fun u v hk hu ha => ?_
  obtain ⟨-, rfl⟩ | ⟨-, e, he, rfl⟩ := advance_cases ha
  · exact hserve _ _ hu
  · exact hstep _ _ hk hu he

/-- A command other than PRF writes no OPB byte and no DATA byte from n on. -/
theorem exec_keeps_of_ne_prf (hi : s.dev.phase = .idle) (hc : i.cmd ≠ Cmd.prf) (h : exec i s = .next t) :
    t.dev.opb = s.dev.opb ∧ KeepsFrom s.dev.nVal s.dev.data t.dev.data := by
  refine exec_device_induction (I := fun e => e.opb = s.dev.opb ∧ KeepsFrom s.dev.nVal s.dev.data e.data) hi h
    ⟨rfl, .refl _ _⟩ (fun d a hd => ?_) fun d e hk ⟨hopb, hdata⟩ he => ?_
  · have hs := (serve_keeps Config.params a d).2
    rwa [hs.opb, hs.data]
  · have hw := ctlStep_writesResultOnly he
    have hn : d.nVal = s.dev.nVal := congrArg BitVec.toNat hk.len
    exact ⟨(hw.opb (by rw [hk.cmd]; exact hc)).trans hopb, hdata.trans (hn ▸ hw.dataFrom)⟩

end Exec

/-- Settles O24: neither command is PRF, so neither writes OPB. -/
theorem feistelCommandsFrame : Obligations.FeistelCommandsFrame := by
  intro i s t hc hi h
  obtain ⟨hk, hw, hv⟩ := exec_keeps hi h
  obtain ⟨hopb, hdata⟩ := exec_keeps_of_ne_prf hi (by rcases hc with hc | hc <;> rw [hc] <;> decide) h
  exact ⟨hk, hopb, hdata, hw, hv⟩

/-! ### PRF: the round index at WRITEBACK is ROUND -/

/-- From LOAD on, the round index of a PRF is CTRL.ROUND (R173). -/
def PrfRound (d : Device) : Prop := d.phase = .idle ∨ d.phase = .check ∨ d.phase = .load ∨ d.i = d.ctrlRound

section Prf
variable {P : Params} {d e : Device}

theorem PrfRound.round_eq (h : PrfRound d) (hi : d.phase ≠ .idle) (hc : d.phase ≠ .check) (hl : d.phase ≠ .load) :
    d.i = d.ctrlRound := by
  obtain h | h | h | h := h
  · exact absurd h hi
  · exact absurd h hc
  · exact absurd h hl
  · exact h

theorem checkPassed_phase (d : Device) : (checkPassed d).phase = .idle ∨ (checkPassed d).phase = .load ∨
    ((checkPassed d).phase = .hdr ∧ d.cmd = Cmd.ivgen) := by
  unfold checkPassed
  split
  · exact .inl rfl
  split
  · exact .inr (.inr ⟨rfl, ‹_›⟩)
  · exact .inr (.inl rfl)

theorem checkPassed_keepsWorking (d : Device) : KeepsWorking d (checkPassed d) := by
  unfold checkPassed
  repeat' split
  all_goals exact ⟨rfl, rfl, rfl, rfl, rfl, rfl, rfl, rfl, rfl⟩

theorem hdrConsume_i (res : CipherResult) (d : Device) : (hdrConsume res d).i = d.i := by
  unfold hdrConsume
  repeat' split
  all_goals rfl

theorem macConsume_i (res : CipherResult) (d : Device) : (macConsume res d).i = d.i := by
  unfold macConsume
  repeat' split
  all_goals rfl

theorem expandConsume_i (res : CipherResult) (d : Device) : (expandConsume res d).i = d.i := by
  unfold expandConsume
  repeat' split
  all_goals rfl

theorem loadStep_prf (hc : d.cmd = Cmd.prf) : loadStep P d = loadPrf P d := by
  unfold loadStep
  rw [if_neg (by rw [hc]; decide), if_neg (by rw [hc]; decide), if_pos hc]

/-- The steps that may change the round index are LOAD and the ADD and SUB of a round (R173, R176, R177). -/
theorem ctlStep_i (h : ctlStep P d = .ok e) (hl : d.phase ≠ .load) (ha : d.phase ≠ .add) (hs : d.phase ≠ .sub) :
    e.i = d.i := by
  obtain rfl | ⟨-, -, h⟩ | ⟨hp, -, -⟩ | ⟨-, -, rfl⟩ | ⟨-, res, -, rfl⟩ | ⟨-, -, h⟩ | ⟨-, res, -, rfl⟩ | ⟨-, -, rfl⟩ |
    ⟨-, res, -, rfl⟩ | ⟨-, -, h⟩ | ⟨hp, -, -⟩ | ⟨hp, -, -⟩ | ⟨-, -, h⟩ := ctlStep_cases h
  · rfl
  · obtain ⟨c, -, rfl⟩ | ⟨-, x, -, rfl⟩ | ⟨-, -, rfl⟩ := checkStep_ok h
    · rfl
    · rfl
    · exact (checkPassed_keepsWorking d).i
  · exact absurd hp hl
  · rfl
  · exact hdrConsume_i res d
  · obtain ⟨s, -, rfl⟩ := macIssue_ok h; rfl
  · exact macConsume_i res d
  · rfl
  · exact expandConsume_i res d
  · obtain ⟨f, -, rfl⟩ := reduceStep_ok h; rfl
  · exact absurd hp ha
  · exact absurd hp hs
  · obtain ⟨-, v, -, rfl⟩ | ⟨-, v, -, rfl⟩ := writebackStep_ok h <;> rfl

/-- ADD is of MADD or of an encryption round. -/
theorem addStep_cmd (h : addStep d = .ok e) : d.cmd = Cmd.madd ∨ d.cmd = Cmd.enc := by
  unfold addStep at h
  split_ifs at h with hm he
  · exact .inl hm
  · exact .inr he

/-- SUB is of MSUB or of a decryption round. -/
theorem subStep_cmd (h : subStep d = .ok e) : d.cmd = Cmd.msub ∨ d.cmd = Cmd.dec := by
  unfold subStep at h
  split_ifs at h with hm he
  · exact .inl hm
  · exact .inr he

theorem ctlStep_prfRound (hc : d.cmd = Cmd.prf) (hr : PrfRound d) (h : ctlStep P d = .ok e) : PrfRound e := by
  have hcases := ctlStep_cases h
  have hround (hi : d.i = d.ctrlRound) (he : e.i = d.i) : PrfRound e :=
    .inr (.inr (.inr (by rw [he, hi, (ctlStep_keeps h).ctrlRound])))
  cases hph : d.phase with
  | idle =>
    rw [ctlStep_idle hph] at h
    cases h
    exact hr
  | check =>
    simp only [hph, reduceCtorEq, false_and, true_and, or_false] at hcases
    obtain rfl | ⟨-, hs⟩ := hcases
    · exact hr
    obtain ⟨c, -, rfl⟩ | ⟨-, x, -, rfl⟩ | ⟨-, -, rfl⟩ := checkStep_ok hs
    · exact .inl rfl
    · exact .inl rfl
    obtain hp | hp | ⟨-, hv⟩ := checkPassed_phase d
    · exact .inl hp
    · exact .inr (.inr (.inl hp))
    · rw [hc] at hv
      exact absurd hv (by decide)
  | load =>
    simp only [hph, reduceCtorEq, false_and, true_and, or_false, false_or] at hcases
    obtain rfl | ⟨-, hs⟩ := hcases
    · exact hr
    rw [loadStep_prf hc] at hs
    obtain ⟨b, -, rfl⟩ := loadPrf_ok hs
    exact .inr (.inr (.inr rfl))
  | add =>
    simp only [hph, reduceCtorEq, false_and, true_and, or_false, false_or] at hcases
    obtain rfl | ⟨-, hs⟩ := hcases
    · exact hr
    · exact absurd (addStep_cmd hs) (by rw [hc]; decide)
  | sub =>
    simp only [hph, reduceCtorEq, false_and, true_and, or_false, false_or] at hcases
    obtain rfl | ⟨-, hs⟩ := hcases
    · exact hr
    · exact absurd (subStep_cmd hs) (by rw [hc]; decide)
  | hdr | mac | expand | reduce | writeback =>
    exact hround (hr.round_eq (by simp [hph]) (by simp [hph]) (by simp [hph]))
      (ctlStep_i h (by simp [hph]) (by simp [hph]) (by simp [hph]))

end Prf

/-- The engine changes the port only. -/
theorem serve_eq (P : Params) (a : EngineDraw) (d : Device) : ∃ p, d.serve P a = { d with port := p } := by
  unfold Device.serve
  split
  · exact ⟨_, rfl⟩
  · exact ⟨d.port, rfl⟩
  · exact ⟨d.port, rfl⟩

/-- Settles O25: OPB is written in WRITEBACK only, and there the round index is the command's ROUND. -/
theorem prfFrame : Obligations.PrfFrame := by
  intro rd s t hi h
  obtain ⟨hk, hw, hv⟩ := exec_keeps hi h
  have hrun : PrfRound t.dev ∧ t.dev.data = s.dev.data ∧ KeepsFrom (mOf s.dev.nVal rd.toNat) s.dev.opb t.dev.opb := by
    refine exec_device_induction
      (I := fun e => PrfRound e ∧ e.data = s.dev.data ∧ KeepsFrom (mOf s.dev.nVal rd.toNat) s.dev.opb e.opb) hi h
      ⟨.inr (.inl rfl), rfl, .refl _ _⟩ (fun d a hd => ?_) fun d e hk ⟨hr, hdata, hopb⟩ he => ?_
    · obtain ⟨p, hp⟩ := serve_eq Config.params a d
      rw [hp]
      exact hd
    · have hres := ctlStep_writesResultOnly he
      refine ⟨ctlStep_prfRound hk.cmd hr he, (hres.data hk.cmd).trans hdata, ?_⟩
      by_cases hph : d.phase = .writeback
      · have hround := hr.round_eq (by simp [hph]) (by simp [hph]) (by simp [hph])
        have hm : d.mVal = mOf s.dev.nVal rd.toNat := by
          rw [Device.mVal, Device.nVal, Device.iVal, hround, hk.len, hk.ctrlRound]
          rfl
        exact hopb.trans (hm ▸ hres.opbFrom)
      · rw [(ctlStep_keepsBuffers hph he).opb]
        exact hopb
  obtain ⟨-, hdata, hopb⟩ := hrun
  exact ⟨hk, hdata, hopb, hw, hv⟩

/-! ### IVGEN: CHECK and HDR only -/

/-- The phases of IVGEN (R185). -/
def IvgenPhase (ph : Phase) : Prop := ph = .idle ∨ ph = .check ∨ ph = .hdr

/-- Every working register but IV. -/
def KeepsWorkingButIv (d e : Device) : Prop := KeepsWorking { d with iv := e.iv } e

theorem KeepsWorkingButIv.refl (d : Device) : KeepsWorkingButIv d d := ⟨rfl, rfl, rfl, rfl, rfl, rfl, rfl, rfl, rfl⟩

theorem KeepsWorkingButIv.trans {d e f : Device} (h : KeepsWorkingButIv d e) (g : KeepsWorkingButIv e f) :
    KeepsWorkingButIv d f where
  i := g.i.trans h.i
  k := g.k.trans h.k
  j := g.j.trans h.j
  regA := g.regA.trans h.regA
  regB := g.regB.trans h.regB
  regF := g.regF.trans h.regF
  iv := rfl
  y := g.y.trans h.y
  strm := g.strm.trans h.strm

theorem KeepsWorking.butIv {d e : Device} (h : KeepsWorking d e) : KeepsWorkingButIv d e := { h with iv := rfl }

section Ivgen
variable {P : Params} {d e : Device}

theorem hdrConsume_ivgen (res : CipherResult) (hc : d.cmd = Cmd.ivgen) :
    (hdrConsume res d).phase = .idle ∧ KeepsWorkingButIv d (hdrConsume res d) := by
  unfold hdrConsume
  split
  · exact ⟨rfl, rfl, rfl, rfl, rfl, rfl, rfl, rfl, rfl, rfl⟩
  · rw [if_pos hc]
    exact ⟨rfl, rfl, rfl, rfl, rfl, rfl, rfl, rfl, rfl, rfl⟩

theorem checkPassed_ivgen (hc : d.cmd = Cmd.ivgen) : checkPassed d = { d with phase := .hdr } := by
  unfold checkPassed
  rw [if_neg fun h => absurd h.2 (by rw [hc]; decide), if_pos hc]

theorem ctlStep_ivgen (hc : d.cmd = Cmd.ivgen) (hp : IvgenPhase d.phase) (h : ctlStep P d = .ok e) :
    IvgenPhase e.phase ∧ KeepsBuffers d e ∧ KeepsWorkingButIv d e := by
  have hcases := ctlStep_cases h
  have hbuf := ctlStep_keepsBuffers (by rcases hp with hp | hp | hp <;> rw [hp] <;> decide) h
  suffices hs : IvgenPhase e.phase ∧ KeepsWorkingButIv d e from ⟨hs.1, hbuf, hs.2⟩
  obtain hph | hph | hph := id hp
  · rw [ctlStep_idle hph] at h
    cases h
    exact ⟨hp, .refl d⟩
  · simp only [hph, reduceCtorEq, false_and, true_and, or_false] at hcases
    obtain rfl | ⟨-, hs⟩ := hcases
    · exact ⟨hp, .refl _⟩
    obtain ⟨c, -, rfl⟩ | ⟨-, x, -, rfl⟩ | ⟨-, -, rfl⟩ := checkStep_ok hs
    · exact ⟨.inl rfl, (keepsWorking_raise ..).butIv⟩
    · exact ⟨.inl rfl, (keepsWorking_raise ..).butIv⟩
    · rw [checkPassed_ivgen hc]
      exact ⟨.inr (.inr rfl), KeepsWorking.butIv ⟨rfl, rfl, rfl, rfl, rfl, rfl, rfl, rfl, rfl⟩⟩
  · simp only [hph, reduceCtorEq, false_and, true_and, or_false, false_or] at hcases
    obtain rfl | ⟨-, rfl⟩ | ⟨res, -, rfl⟩ := hcases
    · exact ⟨hp, .refl _⟩
    · exact ⟨hp, KeepsWorking.butIv ⟨rfl, rfl, rfl, rfl, rfl, rfl, rfl, rfl, rfl⟩⟩
    · obtain ⟨hidle, hw⟩ := hdrConsume_ivgen res hc
      exact ⟨.inl hidle, hw⟩

end Ivgen

/-- Settles O27: CHECK and HDR store nothing, and HDR's answer of IVGEN goes to IV. -/
theorem ivgenFrame : Obligations.IvgenFrame := by
  intro rd s t hi h
  obtain ⟨hk, hw, hv⟩ := exec_keeps hi h
  have hrun : IvgenPhase t.dev.phase ∧ KeepsBuffers s.dev t.dev ∧ KeepsWorkingButIv s.dev t.dev := by
    refine exec_device_induction
      (I := fun e => IvgenPhase e.phase ∧ KeepsBuffers s.dev e ∧ KeepsWorkingButIv s.dev e) hi h
      ⟨.inr (.inl rfl), ⟨rfl, rfl⟩, KeepsWorking.butIv ⟨rfl, rfl, rfl, rfl, rfl, rfl, rfl, rfl, rfl⟩⟩
      (fun d a ⟨hp, hb, hu⟩ => ?_) fun d e hk ⟨hp, hb, hu⟩ he => ?_
    · obtain ⟨p, heq⟩ := serve_eq Config.params a d
      rw [heq]
      exact ⟨hp, ⟨hb.data, hb.opb⟩, hu.trans (KeepsWorking.butIv ⟨rfl, rfl, rfl, rfl, rfl, rfl, rfl, rfl, rfl⟩)⟩
    · obtain ⟨hpe, hbe, hue⟩ := ctlStep_ivgen hk.cmd hp he
      exact ⟨hpe, ⟨hbe.data.trans hb.data, hbe.opb.trans hb.opb⟩, hu.trans hue⟩
  obtain ⟨-, hbuf, hiv⟩ := hrun
  exact ⟨hk, hbuf, hiv, hw, hv⟩

/-! ### MADD and MSUB: no cipher call -/

/-- The phases of MADD and MSUB (R183, R184). -/
def RadixPhase (ph : Phase) : Prop :=
  ph = .idle ∨ ph = .check ∨ ph = .load ∨ ph = .add ∨ ph = .sub ∨ ph = .writeback

/-- What only a round and a cipher call change: i, k, j, IV, Y, S, the port and CIPHCNT. -/
structure KeepsCipherState (d e : Device) : Prop where
  i : e.i = d.i
  k : e.k = d.k
  j : e.j = d.j
  iv : e.iv = d.iv
  y : e.y = d.y
  strm : e.strm = d.strm
  port : e.port = d.port
  ciphcnt : e.ciphcnt = d.ciphcnt

theorem KeepsCipherState.refl (d : Device) : KeepsCipherState d d := ⟨rfl, rfl, rfl, rfl, rfl, rfl, rfl, rfl⟩

theorem KeepsCipherState.trans {d e f : Device} (h : KeepsCipherState d e) (g : KeepsCipherState e f) :
    KeepsCipherState d f :=
  ⟨g.i.trans h.i, g.k.trans h.k, g.j.trans h.j, g.iv.trans h.iv, g.y.trans h.y, g.strm.trans h.strm,
    g.port.trans h.port, g.ciphcnt.trans h.ciphcnt⟩

section Radix
variable {P : Params} {d e : Device}

theorem checkPassed_keepsCipherState (d : Device) : KeepsCipherState d (checkPassed d) := by
  unfold checkPassed
  repeat' split
  all_goals exact ⟨rfl, rfl, rfl, rfl, rfl, rfl, rfl, rfl⟩

theorem loadStep_radix (hc : d.cmd = Cmd.madd ∨ d.cmd = Cmd.msub) (h : loadStep P d = .ok e) :
    RadixPhase e.phase ∧ KeepsCipherState d e := by
  obtain ⟨ph, hph, hl⟩ : ∃ ph, RadixPhase ph ∧ loadPair P ph d = .ok e := by
    obtain hc | hc := hc
    · exact ⟨.add, by simp [RadixPhase], by rw [loadStep, hc] at h; exact h⟩
    · exact ⟨.sub, by simp [RadixPhase], by rw [loadStep, hc] at h; exact h⟩
  obtain ⟨a, b, -, -, rfl⟩ := loadPair_ok hl
  exact ⟨hph, ⟨rfl, rfl, rfl, rfl, rfl, rfl, rfl, rfl⟩⟩

theorem addStep_radix (hc : d.cmd = Cmd.madd ∨ d.cmd = Cmd.msub) (h : addStep d = .ok e) :
    e.phase = .writeback ∧ KeepsCipherState d e := by
  unfold addStep at h
  split_ifs at h with hm he
  · obtain ⟨a, -, rfl⟩ := addMadd_ok h
    exact ⟨rfl, ⟨rfl, rfl, rfl, rfl, rfl, rfl, rfl, rfl⟩⟩
  · rw [he] at hc
    exact absurd hc (by decide)

theorem subStep_radix (hc : d.cmd = Cmd.madd ∨ d.cmd = Cmd.msub) (h : subStep d = .ok e) :
    e.phase = .writeback ∧ KeepsCipherState d e := by
  unfold subStep at h
  split_ifs at h with hm he
  · obtain ⟨a, -, rfl⟩ := subMsub_ok h
    exact ⟨rfl, ⟨rfl, rfl, rfl, rfl, rfl, rfl, rfl, rfl⟩⟩
  · rw [he] at hc
    exact absurd hc (by decide)

theorem ctlStep_radix (hc : d.cmd = Cmd.madd ∨ d.cmd = Cmd.msub) (hp : RadixPhase d.phase)
    (h : ctlStep P d = .ok e) : RadixPhase e.phase ∧ KeepsCipherState d e := by
  have hcases := ctlStep_cases h
  obtain hph | hph | hph | hph | hph | hph := id hp
  · rw [ctlStep_idle hph] at h
    cases h
    exact ⟨hp, .refl d⟩
  all_goals
    simp only [hph, reduceCtorEq, false_and, true_and, or_false, false_or] at hcases
    obtain rfl | ⟨-, hs⟩ := hcases
    · exact ⟨hp, .refl _⟩
  · obtain ⟨c, -, rfl⟩ | ⟨-, x, -, rfl⟩ | ⟨-, -, rfl⟩ := checkStep_ok hs
    · exact ⟨.inl rfl, ⟨rfl, rfl, rfl, rfl, rfl, rfl, rfl, rfl⟩⟩
    · exact ⟨.inl rfl, ⟨rfl, rfl, rfl, rfl, rfl, rfl, rfl, rfl⟩⟩
    refine ⟨?_, checkPassed_keepsCipherState d⟩
    obtain he | he | ⟨-, he⟩ := checkPassed_phase d
    · exact .inl he
    · exact .inr (.inr (.inl he))
    · rw [he] at hc
      exact absurd hc (by decide)
  · exact loadStep_radix hc hs
  · obtain ⟨he, hk⟩ := addStep_radix hc hs
    exact ⟨.inr (.inr (.inr (.inr (.inr he)))), hk⟩
  · obtain ⟨he, hk⟩ := subStep_radix hc hs
    exact ⟨.inr (.inr (.inr (.inr (.inr he)))), hk⟩
  · obtain ⟨-, v, -, rfl⟩ | ⟨-, v, -, rfl⟩ := writebackStep_ok hs <;>
      exact ⟨.inl rfl, ⟨rfl, rfl, rfl, rfl, rfl, rfl, rfl, rfl⟩⟩

end Radix

/-- Settles O26: neither command comes to a phase that calls the cipher, so the port stays free and the engine idle. -/
theorem radixCommandsFrame : Obligations.RadixCommandsFrame := by
  intro i s t hc hi h
  obtain ⟨hk, hw, -⟩ := exec_keeps hi.1 h
  obtain ⟨hopb, hdata⟩ := exec_keeps_of_ne_prf hi.1 (by rcases hc with hc | hc <;> rw [hc] <;> decide) h
  have hrun : RadixPhase t.dev.phase ∧ KeepsCipherState (s.dev.start i.cmd i.round) t.dev ∧ t.env = s.env := by
    refine exec_induction (I := fun u => RadixPhase u.dev.phase ∧
      KeepsCipherState (s.dev.start i.cmd i.round) u.dev ∧ u.env = s.env) hi.1 h ⟨.inr (.inl rfl), .refl _, rfl⟩
      fun u v hk ⟨hp, hu, henv⟩ ha => ?_
    obtain ⟨hwait, -⟩ | ⟨-, e, he, rfl⟩ := advance_cases ha
    · rw [Device.waiting, hu.port, Device.start_port, hi.2] at hwait
      cases hwait
    · obtain ⟨hpe, hke⟩ := ctlStep_radix (by rw [hk.cmd]; exact hc) hp he
      exact ⟨hpe, hu.trans hke, henv⟩
  obtain ⟨-, hcs, henv⟩ := hrun
  exact ⟨hk, hopb, hdata, hcs.i, hcs.k, hcs.j, hcs.iv, hcs.y, hcs.strm, hw, hcs.ciphcnt, henv⟩

end Sys2Proof.Machine
end

section
/-! Host scripts of writes only (30_encoding R88, R89): one host move for each write, and what LOADBUF and SETKEY leave
in a buffer and in KEY (10_state R42, 20_memory R61, R63). -/
namespace Sys2Proof.Machine

/-! ### A script of writes -/

/-- The accesses of a list of writes. -/
def writeOps (ws : List (Offset × Word)) : List HostOp := ws.map fun w => .write w.1 w.2

/-- FFXR after a list of host writes (R69). -/
def hostWrites (ws : List (Offset × Word)) (d : Device) : Device :=
  ws.foldl (fun e w => hostWrite Config.params w.1 w.2 e) d

/-- s with a list of writes as the host's script and a host move scheduled for each. -/
def State.withWrites (s : State) (ws : List (Offset × Word)) : State :=
  { s with env := { s.env with sched := List.replicate ws.length .host, script := writeOps ws } }

theorem step_withWrites (s : State) (o : Offset) (x : Word) (ws : List (Offset × Word)) :
    core.step (s.withWrites ((o, x) :: ws)) =
      .next (State.withWrites { s with dev := hostWrite Config.params o x s.dev } ws) :=
  step_host_access (s := s.withWrites ((o, x) :: ws)) (ms := List.replicate ws.length .host) (ops := writeOps ws) rfl rfl

/-- A run of a machine whose first step answers goes on from there. -/
theorem run_succ_of_step (M : Host.Core) (k : Nat) {s t : M.State} (h : M.step s = .next t) :
    M.run (k + 1) s = M.run k t := by
  rw [Host.Core.run, h]

/-- One host move for each write makes them all, in order, and uses the script up. -/
theorem run_withWrites (ws : List (Offset × Word)) (s : State) :
    core.run ws.length (s.withWrites ws) = .next (State.withWrites { s with dev := hostWrites ws s.dev } []) := by
  induction ws generalizing s with
  | nil => rfl
  | cons w ws ih =>
    obtain ⟨o, x⟩ := w
    exact (run_succ_of_step core ws.length (step_withWrites s o x ws)).trans (ih _)

/-! ### LOADBUF's writes (R89) -/

/-- The first n writes of LOADBUF. -/
def loadWrites (base : Nat) (bs : List Byte) (n : Nat) : List (Offset × Word) :=
  (List.range n).map fun p => (BitVec.ofNat 18 (base + 4 * p), stringWord bs p)

theorem scriptLoadBuf_eq (base : Nat) (bs : List Byte) :
    scriptLoadBuf base bs = writeOps (loadWrites base bs (wordCount bs.length)) := by
  simp [scriptLoadBuf, writeOps, loadWrites]

@[simp] theorem length_writeOps (ws : List (Offset × Word)) : (writeOps ws).length = ws.length := List.length_map ..

theorem hostWrites_append (ws vs : List (Offset × Word)) (d : Device) :
    hostWrites (ws ++ vs) d = hostWrites vs (hostWrites ws d) := List.foldl_append

theorem hostWrites_loadWrites_succ (base : Nat) (bs : List Byte) (n : Nat) (d : Device) :
    hostWrites (loadWrites base bs (n + 1)) d =
      hostWrite Config.params (BitVec.ofNat 18 (base + 4 * n)) (stringWord bs n)
        (hostWrites (loadWrites base bs n) d) := by
  rw [loadWrites, List.range_succ, List.map_append, hostWrites_append]
  rfl

/-- Byte c of a packed word (R61). -/
theorem wordByte_packWord (f : Nat → Byte) {c : Nat} (hc : c < 4) :
    wordByte (packWord (f 0) (f 1) (f 2) (f 3)) c = f c := by
  apply BitVec.eq_of_toNat_eq
  simp only [wordByte, packWord, BitVec.extractLsb'_toNat, toNat_append_eq_add, Nat.shiftRight_eq_div_pow]
  interval_cases c <;> omega

/-- Byte c of word p of a string is the string's byte 4p + c, zero past its end (R61, R89). -/
theorem wordByte_stringWord (bs : List Byte) (p : Nat) {c : Nat} (hc : c < 4) :
    wordByte (stringWord bs p) c = byteOrZero bs (4 * p + c) :=
  wordByte_packWord (fun c => byteOrZero bs (4 * p + c)) hc

theorem target_windowBase (b : Buf) {a : Nat} (ha : a < 0x10000) :
    target (BitVec.ofNat 18 (windowBase b + a)) = .buf b (4 * (a / 4)) := by
  have hbase : windowBase b ≤ 0x30000 := by cases b <;> decide
  have ho : (BitVec.ofNat 18 (windowBase b + a)).toNat = windowBase b + a := by
    rw [BitVec.toNat_ofNat, Nat.mod_eq_of_lt (by omega)]
  have ht := target_buffer (b := b) (base := windowBase b) (o := BitVec.ofNat 18 (windowBase b + a))
    (by cases b <;> simp [windowBase]) (by omega) (by omega)
  rwa [ho, Nat.add_sub_cancel_left] at ht

/-- The first n words of LOADBUF, inside the buffer: the string's bytes there, nothing else changed. -/
theorem hostWrites_loadBuf {d : Device} (b : Buf) (bs : List Byte) (hi : d.phase = .idle) (n : Nat) (hn : 4 * n ≤ 256) :
    let e := hostWrites (loadWrites (windowBase b) bs n) d
    e = d.setBuf b (e.buf b) ∧
      ∀ p, Memory.read (e.buf b) p = if p < 4 * n then some (byteOrZero bs p) else Memory.read (d.buf b) p := by
  induction n with
  | zero => exact ⟨(Device.setBuf_self d b).symm, fun p => rfl⟩
  | succ n ih =>
    intro e
    obtain ⟨hframe, hread⟩ := ih (by omega)
    have he : e = writeBufWord Config.params b (4 * n) (stringWord bs n)
        (hostWrites (loadWrites (windowBase b) bs n) d) := by
      have hidle : (hostWrites (loadWrites (windowBase b) bs n) d).phase = .idle := by
        rw [hframe, Device.setBuf_phase, hi]
      have ht := target_windowBase b (a := 4 * n) (by omega)
      rw [Nat.mul_div_cancel_left n (by decide)] at ht
      rw [show e = _ from hostWrites_loadWrites_succ .., hostWrite_idle hidle, ht]
      rfl
    refine ⟨?_, fun p => ?_⟩
    · rw [he, writeBufWord_frame, hframe]
      cases b <;> rfl
    · rw [he, read_writeBufWord, Config.params_size, hread]
      by_cases hlo : p < 4 * n
      · rw [if_neg (by omega), if_pos hlo, if_pos (by omega)]
      by_cases hhi : p < 4 * (n + 1)
      · rw [if_pos ⟨by omega, by omega, by omega⟩, if_pos hhi, wordByte_stringWord bs n (by omega),
          Nat.add_sub_cancel' (by omega)]
      · rw [if_neg (by omega), if_neg hlo, if_neg hhi]

/-- Settles O54: each write of the script sets the next word of the buffer. -/
theorem loadBufScriptLoadsTheBuffer : Obligations.LoadBufScriptLoadsTheBuffer := by
  intro s b bs hi hlen
  rw [Config.params_size] at hlen
  obtain ⟨hframe, hread⟩ := hostWrites_loadBuf b bs hi (wordCount bs.length) (by unfold wordCount; omega)
  rw [scriptLoadBuf_eq, length_writeOps]
  refine ⟨_, run_withWrites _ s, fun a ha => ?_, fun a ha => ?_, hframe, rfl⟩
  · exact (hread a).trans (if_pos ha)
  · exact (hread a).trans (if_neg (by omega))

/-! ### SETKEY's writes (R89) -/

/-- The first n words of a key: the string's bytes there, nothing but KEY changed. -/
theorem hostWrites_loadKey {d : Device} (kb : List Byte) (hi : d.phase = .idle) (n : Nat) (hn : n ≤ 8) :
    let e := hostWrites (loadWrites 0x040 kb n) d
    e = { d with key := e.key } ∧
      ∀ p, e.key[p]? = if p < 4 * n then some (byteOrZero kb p) else d.key[p]? := by
  induction n with
  | zero => exact ⟨rfl, fun p => rfl⟩
  | succ n ih =>
    intro e
    obtain ⟨hframe, hread⟩ := ih (by omega)
    have hidle : (hostWrites (loadWrites 0x040 kb n) d).phase = .idle := by
      rw [hframe]
      exact hi
    have he : e = { d with key := setKeyWord n (stringWord kb n) (hostWrites (loadWrites 0x040 kb n) d).key } := by
      rw [show e = _ from hostWrites_loadWrites_succ .., hostWrite_idle hidle, target_key (by omega), hframe]
      rfl
    rw [he]
    refine ⟨rfl, fun p => ?_⟩
    by_cases h32 : p < 32
    · refine (setKeyWord_get n _ _ h32).trans ?_
      rw [hread]
      by_cases hlo : p < 4 * n
      · rw [if_neg (by omega), if_pos hlo, if_pos (by omega)]
      by_cases hhi : p < 4 * (n + 1)
      · rw [if_pos (by omega), if_pos hhi, wordByte_stringWord kb n (by omega)]
        congr 2
        omega
      · rw [if_neg (by omega), if_neg hlo, if_neg hhi]
    · rw [if_neg (by omega), Vector.getElem?_eq_none (by omega), Vector.getElem?_eq_none (by omega)]

theorem scriptSetKey_eq (kb : List Byte) : scriptSetKey kb =
    writeOps (loadWrites 0x040 kb (wordCount kb.length) ++ [(0x018, BitVec.ofNat 32 kb.length)]) := by
  rw [scriptSetKey, scriptLoadBuf_eq, writeOps, writeOps, List.map_append]
  rfl

/-- KEY's first bytes, when they are a string's and KEYLEN is its length, are K (R42, R49). -/
theorem keyBytes_eq {d : Device} {kb : List Byte} (hlen : d.keylen.toNat = kb.length)
    (hread : ∀ p, p < kb.length → d.key[p]? = kb[p]?) : d.keyBytes = kb := by
  apply List.ext_getElem?
  intro p
  rw [Device.keyBytes, hlen, List.getElem?_take]
  split
  case isTrue hp => rw [← hread p hp, Vector.getElem?_toList]
  case isFalse hp => exact (List.getElem?_eq_none (by omega)).symm

/-- The last write of SETKEY sets KEYLEN only (R37, R89). -/
theorem hostWrite_keylen {d : Device} (hi : d.phase = .idle) (n : Nat) :
    hostWrite Config.params 0x018 (BitVec.ofNat 32 n) d =
      { d with keylen := (BitVec.ofNat 32 n).extractLsb' 0 6 } := hostWrite_idle hi

/-- SETKEY on an idle device: the key's bytes in KEY, its length in KEYLEN, nothing else changed. -/
theorem hostWrites_setKey {d : Device} {kb : List Byte} (hi : d.phase = .idle) (h32 : kb.length ≤ 32)
    (h4 : kb.length % 4 = 0) :
    let e := hostWrites (loadWrites 0x040 kb (wordCount kb.length) ++ [(0x018, BitVec.ofNat 32 kb.length)]) d
    e = { d with key := e.key, keylen := e.keylen } ∧ e.keylen.toNat = kb.length ∧
      ∀ p, e.key[p]? = if p < kb.length then some (byteOrZero kb p) else d.key[p]? := by
  intro e
  obtain ⟨hframe, hread⟩ := hostWrites_loadKey kb hi (wordCount kb.length) (by unfold wordCount; omega)
  rw [show 4 * wordCount kb.length = kb.length by unfold wordCount; omega] at hread
  have he : e = { hostWrites (loadWrites 0x040 kb (wordCount kb.length)) d with
      keylen := (BitVec.ofNat 32 kb.length).extractLsb' 0 6 } :=
    (hostWrites_append ..).trans (hostWrite_keylen (by rw [hframe]; exact hi) _)
  rw [he]
  refine ⟨by rw [hframe], ?_, hread⟩
  simp only [BitVec.extractLsb'_toNat, BitVec.toNat_ofNat, Nat.shiftRight_zero]
  omega

/-- Settles O53: eight words at most, each to its own KEYw, and then the length. -/
theorem setKeyScriptLoadsTheKey : Obligations.SetKeyScriptLoadsTheKey := by
  intro s kb hi hlen
  obtain ⟨hframe, hkeylen, hread⟩ := hostWrites_setKey (kb := kb) hi (by omega) (by omega)
  rw [scriptSetKey_eq, length_writeOps]
  refine ⟨_, run_withWrites _ s, keyBytes_eq hkeylen fun p hp => ?_, ?_, fun p hp => ?_, hframe, rfl⟩
  · refine (hread p).trans ?_
    rw [if_pos hp, byteOrZero, List.getD_eq_getElem _ _ hp, List.getElem?_eq_getElem hp]
  · obtain h | h | h := hlen
    · exact .inl (BitVec.eq_of_toNat_eq (hkeylen.trans h))
    · exact .inr (.inl (BitVec.eq_of_toNat_eq (hkeylen.trans h)))
    · exact .inr (.inr (BitVec.eq_of_toNat_eq (hkeylen.trans h)))
  · exact (hread p).trans (if_neg (by omega))

end Sys2Proof.Machine
end

section
/-! The laws of NUM, STR and [x]^k (40_radix_arith R107): STR_r^l forgets exactly what a multiple of r^l adds, so it
takes numbers congruent modulo r^l to the same digits. -/
namespace Sys2Proof.Machine

/-! ### NUM and STR -/

/-- NUM undoes STR up to the multiples of r^m that STR drops (R101, R107). -/
theorem num_str (r m x : Nat) : num r (str r m x) = x % r ^ m := by
  induction m generalizing x with
  | zero => simp [str, Nat.mod_one]
  | succ m ih => rw [str, num_concat, ih, pow_succ', Nat.mod_mul, Nat.add_comm, Nat.mul_comm]

theorem num_str_of_lt {r m x : Nat} (h : x < r ^ m) : num r (str r m x) = x :=
  (num_str r m x).trans (Nat.mod_eq_of_lt h)

/-- STR splits off the least significant digit (R101). -/
theorem str_succ_mul_add {r x : Nat} (m a : Nat) (hx : x < r) : str r (m + 1) (a * r + x) = str r m a ++ [x] := by
  have hdiv : (a * r + x) / r = a := by
    rw [Nat.mul_comm, Nat.mul_add_div (Nat.zero_lt_of_lt hx), Nat.div_eq_of_lt hx, Nat.add_zero]
  have hmod : (a * r + x) % r = x := (Nat.mul_add_mod_self_right a r x).trans (Nat.mod_eq_of_lt hx)
  rw [str, hdiv, hmod]

/-- STR gives back the digits of a valid sequence (R107). -/
theorem str_num {r : Nat} {ds : List Nat} (h : ∀ c ∈ ds, c < r) : str r ds.length (num r ds) = ds := by
  induction ds using List.reverseRecOn with
  | nil => rfl
  | append_singleton ds d ih =>
    rw [List.length_append, List.length_singleton, num_concat, str_succ_mul_add _ _ (h d (by simp)),
      ih fun c hc => h c (by simp [hc])]

theorem str_mod {r : Nat} (l a : Nat) (hr : 0 < r) : str r l (a % r ^ l) = str r l a := by
  have h := str_num fun c (hc : c ∈ str r l a) => str_digit_lt hr hc
  rwa [length_str, num_str] at h

/-- Numbers congruent modulo r^l have the same l digits. -/
theorem str_congr {r l a b : Nat} (hr : 0 < r) (h : a ≡ b [MOD r ^ l]) : str r l a = str r l b := by
  rw [← str_mod l a hr, h, str_mod l b hr]

/-- [x]^k is the radix-256 numeral, its digits as bytes (R103, R104). -/
theorem num256_bytesBE (k x : Nat) : num256 (bytesBE k x) = num 256 (str 256 k x) :=
  congrArg (num 256) (digitsOf_digitBytes fun _ hc => str_digit_lt (by decide) hc)

/-- Settles O34, from what NUM keeps of STR, at every radix and at 256. -/
theorem numStrConversionLaws : Obligations.NumStrConversionLaws := by
  refine ⟨?_, fun _ _ _ _ _ => num_str_of_lt, fun k x hx => (num256_bytesBE k x).trans (num_str_of_lt hx)⟩
  rintro r _ ds - - rfl hd
  exact ⟨num_lt hd, str_num hd⟩

end Sys2Proof.Machine
end

section
/-! The modular radix adder and subtractor (40_radix_arith R108 to R112). RADD is STR of the sum, and RSUB is STR of any
number that gives X back, modulo r^L, when Y is added; each form of the two operations is such a number. -/
namespace Sys2Proof.Machine

/-! ### RADD and RSUB modulo r^L -/

theorem radd_eq_str {r : Nat} (l : Nat) (x y : List Nat) (hr : 0 < r) :
    radd r l x y = str r l (num r x + num r y) := str_mod l _ hr

theorem num_radd (r l : Nat) (x y : List Nat) : num r (radd r l x y) ≡ num r x + num r y [MOD r ^ l] := by
  rw [radd, num_str, raddNum]
  exact (Nat.mod_modEq ..).trans (Nat.mod_modEq ..)

/-- The least non-negative residue of NUM X - NUM Y, with NUM Y added (R109). -/
theorem rsubNum_add {r : Nat} (l : Nat) (x y : List Nat) (hr : 0 < r) :
    rsubNum r l x y + num r y ≡ num r x [MOD r ^ l] := by
  have hM : ((r ^ l : Nat) : Int) ≠ 0 := by exact_mod_cast (Nat.pow_pos hr).ne'
  have hsub := (Int.mod_modEq ((num r x : Int) - num r y) (r ^ l : Nat)).add_right (num r y)
  rw [Int.sub_add_cancel] at hsub
  rw [← Int.natCast_modEq_iff, Nat.cast_add, rsubNum, Int.toNat_of_nonneg (Int.emod_nonneg _ hM)]
  exact hsub

theorem num_rsub_add {r : Nat} (l : Nat) (x y : List Nat) (hr : 0 < r) :
    num r (rsub r l x y) + num r y ≡ num r x [MOD r ^ l] := by
  rw [rsub, num_str_of_lt (rsubNum_lt x y hr)]
  exact rsubNum_add l x y hr

/-- RSUB is STR of every number that NUM Y completes to NUM X modulo r^l (R109). -/
theorem rsub_eq_str {r l a : Nat} {x y : List Nat} (hr : 0 < r) (h : a + num r y ≡ num r x [MOD r ^ l]) :
    rsub r l x y = str r l a :=
  str_congr hr (((rsubNum_add l x y hr).trans h.symm).add_right_cancel')

/-- RSUB by adding r^l before the subtraction (R109). -/
theorem rsub_eq_str_borrow {r l : Nat} {x y : List Nat} (hr : 0 < r) (hy : num r y ≤ r ^ l) :
    rsub r l x y = str r l (num r x + r ^ l - num r y) := by
  refine rsub_eq_str hr ?_
  rw [Nat.sub_add_cancel (Nat.le_add_left_of_le hy)]
  exact Nat.add_mod_right ..

theorem num_le_of_length_eq {r : Nat} {x y : List Nat} (hl : y.length = x.length) (hy : ∀ c ∈ y, c < r) :
    num r y ≤ r ^ x.length := hl ▸ (num_lt hy).le

/-- Settles O35: X is what Y completes to X + Y, and X - Y completed by Y is X. -/
theorem raddRsubInverse : Obligations.RaddRsubInverse := by
  intro r x y hr _ _ hx _
  have hpos : 0 < r := by omega
  constructor
  · rw [rsub_eq_str hpos (num_radd r x.length x y).symm, str_num hx]
  · rw [radd_eq_str _ _ _ hpos, str_congr hpos (num_rsub_add x.length x y hpos), str_num hx]

/-- Settles O37: both branches complete NUM Y to NUM X modulo r^L. -/
theorem borrowFormOfRsubAgrees : Obligations.BorrowFormOfRsubAgrees := by
  intro r x y hr _ hl _ hy
  have hpos : 0 < r := by omega
  split
  case isTrue hle => exact rsub_eq_str hpos (by rw [Nat.sub_add_cancel hle])
  case isFalse => exact rsub_eq_str_borrow hpos (num_le_of_length_eq hl hy)

/-! ### The digit-serial forms (R110) -/

/-- The adder's digits are STR of the sum with the carry in; the carry out of each digit is what STR divides on. -/
theorem reverse_addSerialLsb {r : Nat} (hr : 0 < r) (c : Nat) {xs ys : List Nat} (hl : ys.length = xs.length) :
    (addSerialLsb r c xs ys).reverse = str r xs.length (num r xs.reverse + num r ys.reverse + c) := by
  induction xs generalizing c ys with
  | nil => rfl
  | cons x xs ih =>
    obtain _ | ⟨y, ys⟩ := ys
    · cases hl
    have hsum : num r (x :: xs).reverse + num r (y :: ys).reverse + c =
        (num r xs.reverse + num r ys.reverse + (x + y + c) / r) * r + (x + y + c) % r := by
      have := Nat.div_add_mod' (x + y + c) r
      rw [List.reverse_cons, List.reverse_cons, num_concat, num_concat]
      linarith
    rw [addSerialLsb, List.reverse_cons, ih _ (Nat.succ.inj hl), hsum, List.length_cons,
      str_succ_mul_add _ _ (Nat.mod_lt _ hr)]

/-- The subtractor's digits are STR of the difference with r^L added and the borrow in taken off. -/
theorem reverse_subSerialLsb {r b : Nat} {xs ys : List Nat} (hb : b ≤ 1) (hl : ys.length = xs.length)
    (hx : ∀ c ∈ xs, c < r) (hy : ∀ c ∈ ys, c < r) :
    (subSerialLsb r b xs ys).reverse =
      str r xs.length (num r xs.reverse + r ^ xs.length - num r ys.reverse - b) := by
  induction xs generalizing b ys with
  | nil => rfl
  | cons x xs ih =>
    obtain _ | ⟨y, ys⟩ := ys
    · cases hl
    obtain ⟨hx0, hxs⟩ := List.forall_mem_cons.mp hx
    obtain ⟨hy0, hys⟩ := List.forall_mem_cons.mp hy
    have hl' : ys.length = xs.length := Nat.succ.inj hl
    have hlt : num r ys.reverse < r ^ xs.length := by
      simpa [hl'] using num_lt (ds := ys.reverse) (by simpa using hys)
    have hmul : num r ys.reverse * r + r ≤ r ^ xs.length * r := by
      rw [← Nat.succ_mul]; exact Nat.mul_le_mul_right r hlt
    rw [subSerialLsb, List.length_cons, List.reverse_cons, List.reverse_cons, num_concat, num_concat, pow_succ]
    split
    case isTrue hborrow =>
      rw [List.reverse_cons, ih le_rfl hl' hxs hys, ← str_succ_mul_add _ _ (by omega : x + r - y - b < r)]
      congr 1
      simp only [Nat.sub_mul, Nat.add_mul]
      omega
    case isFalse hno =>
      rw [List.reverse_cons, ih (Nat.zero_le 1) hl' hxs hys, ← str_succ_mul_add _ _ (by omega : x - y - b < r)]
      congr 1
      simp only [Nat.sub_mul, Nat.add_mul]
      omega

/-- Settles O36, by induction on the length with the carry or borrow of the digits before. -/
theorem digitSerialArithmeticAgrees : Obligations.DigitSerialArithmeticAgrees := by
  intro r x y hr _ hl hx hy
  have hpos : 0 < r := by omega
  constructor
  · rw [raddSerial, reverse_addSerialLsb hpos 0 (by simpa using hl), radd_eq_str _ _ _ hpos]
    simp
  · rw [rsubSerial, reverse_subSerialLsb (Nat.zero_le 1) (by simpa using hl) (by simpa using hx) (by simpa using hy),
      rsub_eq_str_borrow hpos (num_le_of_length_eq hl hy)]
    simp

end Sys2Proof.Machine
end

section
/-! The sizes and the cipher calls of the round function (41_round_function): BITS and the width b of a numeral (R131,
R141), the lengths of Q and S (R132, R135 to R138), and the block each issue step asks the engine for (R145, R147,
R149). -/
namespace Sys2Proof.Machine

/-! ### BITS (R131) -/

theorem ceilLog2_le_iff (x k : Nat) : ceilLog2 x ≤ k ↔ x ≤ 2 ^ k :=
  ⟨fun h => (le_two_pow_ceilLog2 x).trans (Nat.pow_le_pow_right (by decide) h), ceilLog2_le⟩

/-- Settles O38: BITS is a least exponent, and b bytes hold the 2^BITS values it counts. -/
theorem halfByteCountIsExact : Obligations.HalfByteCountIsExact :=
  ⟨fun v r k _ => ceilLog2_le_iff (r ^ v) k, fun _ _ _ hr _ hl hd => num_half_lt (Nat.zero_lt_of_lt hr) hl hd⟩

/-! ### The lengths of Q and S (R132, R135, R136, R138) -/

/-- The pad completes tweak, round index and numeral to whole blocks (R135). -/
theorem padded_length_eq (n r t : Nat) : t + (padOf n r t + 1 + bOf n r) = 16 * qOf n r t := by
  unfold qOf padOf
  omega

/-- A pad shorter than a block makes q the least block count that holds t + b + 1 bytes (R136). -/
theorem qOf_eq_ceil (n r t : Nat) : qOf n r t = (t + bOf n r + 1 + 15) / 16 := by
  have hlen := padded_length_eq n r t
  have hpad := padOf_lt n r t
  omega

@[simp] theorem length_expandChain (E : Block → Block) (y : Block) (j : Nat) :
    (expandChain E y j).length = 16 * (j + 1) := by
  induction j with
  | zero => exact length_blockBytes y
  | succ j ih => rw [expandChain, List.length_append, ih, length_blockBytes, Nat.mul_succ 16 (j + 1)]

/-- Y and its e expansion blocks are at least the d + 4 bytes of S (R138). -/
theorem length_keyStream (E : Block → Block) (n r : Nat) (y : Block) : (keyStream E n r y).length = dOf n r + 4 := by
  rw [keyStream, List.length_take, length_expandChain]
  unfold eOf
  omega

/-- Settles O39: lengths of Q and S from those of their parts, and d as b rounded up. -/
theorem prfInputHasWholeBlocks : Obligations.PrfInputHasWholeBlocks := by
  intro E tw n r i h y
  have hd : dOf n r % 4 = 0 ∧ bOf n r ≤ dOf n r ∧ dOf n r < bOf n r + 4 := by
    unfold dOf
    omega
  exact ⟨(length_qString ..).trans (padded_length_eq ..), one_le_qOf .., qOf_eq_ceil .., padOf_lt ..,
    length_keyStream .., hd⟩

/-! ### The issue steps (R145, R147, R149) -/

/-- The block of [x]^16 is x, reduced to a block's 128 bits (R67, R104). -/
theorem blockOf_bytesBE (x : Nat) : blockOf (bytesBE 16 x) = BitVec.ofNat 128 x := by
  apply BitVec.eq_of_toNat_eq
  rw [blockOf, num256_bytesBE, num_str, BitVec.toNat_ofNat, BitVec.toNat_ofNat]
  exact Nat.mod_mod x (2 ^ 128)

theorem expandIssue_eq (d : Device) : expandIssue d = d.issue (d.y ^^^ BitVec.ofNat 128 d.j.toNat) := by
  rw [expandIssue, blockOf_bytesBE]

/-- Settles O40: each of the three rows of R194 is one issue, of P, of Y ⊕ Q_k or of Y ⊕ [j]^16. -/
theorem issueStepsPostTheRequests : Obligations.IssueStepsPostTheRequests := by
  refine fun d hport => ⟨fun hphase => ?_, fun tw hphase htweak hfits hk hq => ?_, fun hphase => ?_⟩
  · exact ctlStep_hdr hphase hport
  · exact (ctlStep_mac hphase hport).trans (macIssue_eq htweak hfits hk hq)
  · exact (ctlStep_expand hphase hport).trans (congrArg Except.ok (expandIssue_eq d))

end Sys2Proof.Machine
end

section
/-! FFX_ENC and FFX_DEC as functions (42_feistel_controller R186): lengths, digits, and that a decryption round undoes
the encryption round of its index (R187, R188, R190). -/
namespace Sys2Proof.Machine

/-! ### The half lengths (R187) -/

/-- The half a round changes has m(i) digits, the half it reads the other n − m(i) (R139, R187). -/
structure HalfLengths (n i : Nat) (changed input : List Nat) : Prop where
  changed : changed.length = mOf n i
  input : input.length = n - mOf n i

theorem splitHalves_fst_length (x : List Nat) : (splitHalves x).1.length = uOf x.length := by
  simp [splitHalves, uOf, Nat.div_le_self]

theorem splitHalves_snd_length (x : List Nat) : (splitHalves x).2.length = vOf x.length := by
  simp [splitHalves, uOf, vOf]

theorem halfLengths_split_enc (x : List Nat) : HalfLengths x.length 0 (splitHalves x).1 (splitHalves x).2 where
  changed := splitHalves_fst_length x
  input := splitHalves_snd_length x

theorem halfLengths_split_dec (x : List Nat) : HalfLengths x.length 9 (splitHalves x).2 (splitHalves x).1 where
  changed := splitHalves_snd_length x
  input := by
    have := uOf_add_vOf x.length
    rw [splitHalves_fst_length, mOf_nine]
    omega

/-- The rounds take the halves in turn, upward in encryption and downward in decryption (R187). -/
theorem HalfLengths.succ {n i : Nat} {a b c : List Nat} (h : HalfLengths n i a b) (hc : c.length = a.length) :
    HalfLengths n (i + 1) b c where
  changed := by rw [h.input, mOf_succ]
  input := by
    have := mOf_le n i
    rw [hc, h.changed, mOf_succ]
    omega

theorem HalfLengths.pred {n i : Nat} {a b c : List Nat} (h : HalfLengths n (i + 1) a b) (hc : c.length = a.length) :
    HalfLengths n i b c where
  changed := by
    have := mOf_le n i
    rw [h.input, mOf_succ]
    omega
  input := by rw [hc, h.changed, mOf_succ]

section Rounds
variable (E : Block → Block) (tw : List Byte) (r : Nat) (iv : Block)

/-- The halves at the start of encryption round c. -/
theorem encRounds_halfLengths (x : List Nat) (c : Nat) :
    HalfLengths x.length c (encRounds E tw x.length r iv (splitHalves x) c).1
      (encRounds E tw x.length r iv (splitHalves x) c).2 := by
  induction c with
  | zero => exact halfLengths_split_enc x
  | succ c ih => exact ih.succ (length_radd ..)

/-- The halves at the start of decryption round 9 − c. -/
theorem decRounds_halfLengths (x : List Nat) {c : Nat} (hc : c ≤ 9) :
    HalfLengths x.length (9 - c) (decRounds E tw x.length r iv (splitHalves x) c).2
      (decRounds E tw x.length r iv (splitHalves x) c).1 := by
  induction c with
  | zero => exact halfLengths_split_dec x
  | succ c ih =>
    have h := ih (by omega)
    rw [show 9 - c = 9 - (c + 1) + 1 by omega] at h
    exact h.pred (length_rsub ..)

/-- After decryption round 0 the halves have their first lengths again. -/
theorem decRounds_ten_fst_length (x : List Nat) :
    (decRounds E tw x.length r iv (splitHalves x) 10).1.length = uOf x.length :=
  (length_rsub ..).trans (decRounds_halfLengths E tw r iv x (le_refl 9)).changed

/-! ### Lengths and digits of the results (R111, R190) -/

/-- What every round keeps, the rounds keep. -/
theorem encRounds_keeps {I : List Nat × List Nat → Prop} {n : Nat} {ab : List Nat × List Nat} (h : I ab)
    (hround : ∀ i ab, I ab → I (encRound E tw n r iv i ab)) (c : Nat) : I (encRounds E tw n r iv ab c) := by
  induction c with
  | zero => exact h
  | succ c ih => exact hround c _ ih

theorem decRounds_keeps {I : List Nat × List Nat → Prop} {n : Nat} {ab : List Nat × List Nat} (h : I ab)
    (hround : ∀ i ab, I ab → I (decRound E tw n r iv i ab)) (c : Nat) : I (decRounds E tw n r iv ab c) := by
  induction c with
  | zero => exact h
  | succ c ih => exact hround (9 - c) _ ih

/-- Two halves that are n digits below r together. -/
structure HalvesOf (n r : Nat) (ab : List Nat × List Nat) : Prop where
  length : (ab.1 ++ ab.2).length = n
  digits : ∀ c ∈ ab.1 ++ ab.2, c < r

theorem HalvesOf.digitsA {n r : Nat} {ab : List Nat × List Nat} (h : HalvesOf n r ab) : ∀ c ∈ ab.1, c < r :=
  fun c hc => h.digits c (List.mem_append_left _ hc)

theorem HalvesOf.digitsB {n r : Nat} {ab : List Nat × List Nat} (h : HalvesOf n r ab) : ∀ c ∈ ab.2, c < r :=
  fun c hc => h.digits c (List.mem_append_right _ hc)

theorem splitHalves_append (x : List Nat) : (splitHalves x).1 ++ (splitHalves x).2 = x := List.take_append_drop _ x

theorem halvesOf_split {r : Nat} {x : List Nat} (hx : ∀ c ∈ x, c < r) : HalvesOf x.length r (splitHalves x) where
  length := by rw [splitHalves_append]
  digits := by rwa [splitHalves_append]

variable {r} {n : Nat} {ab : List Nat × List Nat}

theorem HalvesOf.encRound (hr : 0 < r) (i : Nat) (h : HalvesOf n r ab) :
    HalvesOf n r (encRound E tw n r iv i ab) where
  length := by
    have hl := h.length
    rw [List.length_append] at hl
    rw [Machine.encRound, List.length_append, length_radd, Nat.add_comm]
    exact hl
  digits := List.forall_mem_append.mpr ⟨h.digitsB, fun _ => str_digit_lt hr⟩

theorem HalvesOf.decRound (hr : 0 < r) (i : Nat) (h : HalvesOf n r ab) :
    HalvesOf n r (decRound E tw n r iv i ab) where
  length := by
    have hl := h.length
    rw [List.length_append] at hl
    rw [Machine.decRound, List.length_append, length_rsub, Nat.add_comm]
    exact hl
  digits := List.forall_mem_append.mpr ⟨fun _ => str_digit_lt hr, h.digitsA⟩

theorem HalvesOf.encRounds (hr : 0 < r) (h : HalvesOf n r ab) (c : Nat) :
    HalvesOf n r (encRounds E tw n r iv ab c) := encRounds_keeps E tw r iv h (fun i _ => .encRound E tw iv hr i) c

theorem HalvesOf.decRounds (hr : 0 < r) (h : HalvesOf n r ab) (c : Nat) :
    HalvesOf n r (decRounds E tw n r iv ab c) := decRounds_keeps E tw r iv h (fun i _ => .decRound E tw iv hr i) c

end Rounds

/-- Settles O33: the halves swap in every round, and the changed one keeps its length. -/
theorem roundHalvesAlternate : Obligations.RoundHalvesAlternate := by
  intro E tw r iv x i hi
  have henc := encRounds_halfLengths E tw r iv x i
  have hdec := decRounds_halfLengths E tw r iv x (Nat.sub_le 9 i)
  rw [show 9 - (9 - i) = i by omega] at hdec
  exact ⟨⟨henc.changed, henc.input⟩, ⟨hdec.changed, hdec.input⟩, fun _ => length_str ..⟩

section Ffx
variable (E : Block → Block) (tw : List Byte) (r : Nat) {x : List Nat}

/-- FFX_ENC of a message that is not empty: the halves after round 9 (R186). -/
theorem ffxEnc_eq (hx : x.length ≠ 0) : ffxEnc E tw r x =
    (encRounds E tw x.length r (ivOf E x.length r tw.length) (splitHalves x) 10).1 ++
      (encRounds E tw x.length r (ivOf E x.length r tw.length) (splitHalves x) 10).2 := if_neg hx

/-- FFX_DEC of a message that is not empty: the halves after round 0 (R186). -/
theorem ffxDec_eq (hx : x.length ≠ 0) : ffxDec E tw r x =
    (decRounds E tw x.length r (ivOf E x.length r tw.length) (splitHalves x) 10).1 ++
      (decRounds E tw x.length r (ivOf E x.length r tw.length) (splitHalves x) 10).2 := if_neg hx

/-- Cut at u, FFX_ENC gives the halves after round 9 back. -/
theorem splitHalves_ffxEnc (hx : x.length ≠ 0) : splitHalves (ffxEnc E tw r x) =
    encRounds E tw x.length r (ivOf E x.length r tw.length) (splitHalves x) 10 := by
  have h := encRounds_halfLengths E tw r (ivOf E x.length r tw.length) x 10
  rw [ffxEnc_eq E tw r hx]
  generalize encRounds E tw x.length r (ivOf E x.length r tw.length) (splitHalves x) 10 = ab at h ⊢
  have hlen : (ab.1 ++ ab.2).length = x.length := by
    have := mOf_le x.length 10
    rw [List.length_append, h.changed, h.input]
    omega
  have hu : uOf x.length = ab.1.length := h.changed.symm
  rw [splitHalves, hlen, hu, List.take_left, List.drop_left]

theorem drop_ffxDec (hx : x.length ≠ 0) : (ffxDec E tw r x).drop (uOf x.length) =
    (decRounds E tw x.length r (ivOf E x.length r tw.length) (splitHalves x) 10).2 := by
  rw [ffxDec_eq E tw r hx, ← decRounds_ten_fst_length E tw r (ivOf E x.length r tw.length) x, List.drop_left]

theorem ffxEnc_nil : ffxEnc E tw r [] = [] := if_pos rfl

theorem ffxDec_nil : ffxDec E tw r [] = [] := if_pos rfl

variable {r}

/-- FFX_ENC keeps the length and the radix (R190). -/
theorem ffxEnc_keeps (hr : 0 < r) (hx : ∀ c ∈ x, c < r) :
    (ffxEnc E tw r x).length = x.length ∧ ∀ c ∈ ffxEnc E tw r x, c < r := by
  by_cases hn : x.length = 0
  · obtain rfl := List.length_eq_zero_iff.mp hn
    rw [ffxEnc_nil]
    exact ⟨rfl, hx⟩
  · have h := (halvesOf_split hx).encRounds E tw (ivOf E x.length r tw.length) hr 10
    rw [ffxEnc_eq E tw r hn]
    exact ⟨h.length, h.digits⟩

/-- FFX_DEC keeps the length and the radix (R190). -/
theorem ffxDec_keeps (hr : 0 < r) (hx : ∀ c ∈ x, c < r) :
    (ffxDec E tw r x).length = x.length ∧ ∀ c ∈ ffxDec E tw r x, c < r := by
  by_cases hn : x.length = 0
  · obtain rfl := List.length_eq_zero_iff.mp hn
    rw [ffxDec_nil]
    exact ⟨rfl, hx⟩
  · have h := (halvesOf_split hx).decRounds E tw (ivOf E x.length r tw.length) hr 10
    rw [ffxDec_eq E tw r hn]
    exact ⟨h.length, h.digits⟩

/-! ### Decryption undoes encryption (R188) -/

/-- RSUB takes off what RADD added, whatever was added (R112). -/
theorem rsub_radd (hr : 0 < r) (hx : ∀ c ∈ x, c < r) (y : List Nat) :
    rsub r x.length (radd r x.length x y) y = x := by
  rw [rsub_eq_str hr (num_radd r x.length x y).symm, str_num hx]

/-- A decryption round undoes the encryption round of its index: both apply RF to the half that stays (R188). -/
theorem decRound_encRound {n : Nat} (iv : Block) (i : Nat) {ab : List Nat × List Nat} (hr : 0 < r)
    (ha : ∀ c ∈ ab.1, c < r) : decRound E tw n r iv i (encRound E tw n r iv i ab) = ab := by
  rw [decRound, encRound, length_radd, rsub_radd hr ha]

/-- The first c decryption rounds undo the last c of ten encryption rounds. -/
theorem decRounds_encRounds {n : Nat} (iv : Block) {ab : List Nat × List Nat} (hr : 0 < r) (h : HalvesOf n r ab)
    {c : Nat} (hc : c ≤ 10) :
    decRounds E tw n r iv (encRounds E tw n r iv ab 10) c = encRounds E tw n r iv ab (10 - c) := by
  induction c with
  | zero => rfl
  | succ c ih =>
    rw [decRounds, ih (by omega), show 10 - c = 9 - c + 1 by omega, encRounds,
      decRound_encRound E tw iv _ hr (h.encRounds E tw iv hr _).digitsA]
    congr 1
    omega

end Ffx

/-- Settles O32: every round keeps the halves' total length and their digits below the radix. -/
theorem ffxKeepsLengthAndRadix : Obligations.FfxKeepsLengthAndRadix := by
  intro E tw r x hr hx
  obtain ⟨hle, hde⟩ := ffxEnc_keeps E tw (by omega : 0 < r) hx
  obtain ⟨hld, hdd⟩ := ffxDec_keeps E tw (by omega : 0 < r) hx
  exact ⟨hle, hde, hld, hdd⟩

/-- Settles O31: ten decryption rounds undo ten encryption rounds, over the same IV since the length is kept. -/
theorem ffxDecInvertsFfxEnc : Obligations.FfxDecInvertsFfxEnc := by
  intro E tw r x hr hx
  have hpos : 0 < r := by omega
  by_cases hn : x.length = 0
  · obtain rfl := List.length_eq_zero_iff.mp hn
    rw [ffxEnc_nil, ffxDec_nil]
  · have hlen := (ffxEnc_keeps E tw hpos hx).1
    rw [ffxDec_eq E tw r (hlen.symm ▸ hn), splitHalves_ffxEnc E tw r hn, hlen,
      decRounds_encRounds E tw _ hpos (halvesOf_split hx) (le_refl 10)]
    exact splitHalves_append x

end Sys2Proof.Machine
end

section
/-! A START as one host write (42_feistel_controller R170, 10_state R47), and the merged command as a run of single
host, controller and engine moves (20_memory R66, 42_feistel_controller R194, 60_exceptions R231; log 3). -/
namespace Sys2Proof.Machine

/-! ### START while busy and while idle -/

theorem runCommand_busy {P : Params} {c rd : BitVec 4} {s : State} (h : s.dev.phase ≠ .idle) :
    runCommand P c rd s = .next { s with dev := s.dev.dropWrite } := if_pos (Device.busy_iff.mpr h)

/-- Settles O17: every command is a merged run, and a merged run while busy is the dropped write. -/
theorem startWhileBusyIsDropped : Obligations.StartWhileBusyIsDropped :=
  fun i s h => (exec_eq_runCommand i s).trans (runCommand_busy h)

/-- A START written to CTRL while idle (R170). -/
theorem hostWrite_ctrl_idle {P : Params} {d : Device} {x : Word} (hi : d.phase = .idle) (hx : cwStart x = true) :
    hostWrite P 0x008 x d = d.start (cwCmd x) (cwRound x) := (hostWrite_idle hi).trans (if_pos hx)

/-- A START written to CTRL while busy (R47). -/
theorem hostWrite_ctrl_busy {P : Params} {d : Device} {x : Word} (h : d.phase ≠ .idle) :
    hostWrite P 0x008 x d = d.dropWrite := hostWrite_busy rfl h

/-- BUSY is bit 0 of STATUS (R34). -/
theorem statusWord_busy (d : Device) : d.statusWord.getLsbD 0 = d.busy := by
  unfold Device.statusWord
  rw [BitVec.getLsbD_append]
  cases d.busy <;> rfl

/-- Settles O46: the write is the START, which leaves phase CHECK and WBUSY as it was. -/
theorem startAcceptanceWrite : Obligations.StartAcceptanceWrite := by
  intro d x hi hx e
  have he : e = d.start (cwCmd x) (cwRound x) := hostWrite_ctrl_idle hi hx
  clear_value e
  subst he
  exact ⟨rfl, statusWord_busy _, (statusWord_flags _).2.2⟩

/-! ### The merged command move by move -/

/-- s with another schedule. -/
def State.withSched (s : State) (ms : List Move) : State := { s with env := { s.env with sched := ms } }

theorem controllerMove_of_ctlStep {P : Params} {s : State} {e : Device} (h : ctlStep P s.dev = .ok e) :
    controllerMove P s = .ok { s with dev := e } := by
  rw [controllerMove, h]

/-- A step of `advance` is the scheduled move of the engine or the controller. -/
theorem step_of_advance {s t : State} (ms : List Move) (h : advance Config.params s = .ok t) :
    step (s.withSched ((if s.dev.waiting then .engine else .controller) :: ms)) = .next (t.withSched ms) := by
  obtain ⟨hw, rfl⟩ | ⟨hw, e, he, rfl⟩ := advance_cases h
  · rw [if_pos hw]
    exact step_engine_waiting (s := s.withSched (.engine :: ms)) rfl hw
  · rw [if_neg (by rw [hw]; decide), step_of_sched (ms := ms) rfl (by decide), agentMove,
      controllerMove_of_ctlStep (by exact he)]
    rfl

/-- The steps of a merged run are a run of the machine under a schedule that names the agent of each. -/
theorem Steps.run {n : Nat} {s t : State} (h : Steps Config.params n s t) :
    ∃ ms : List Move, (∀ m ∈ ms, m = .controller ∨ m = .engine) ∧
      core.run ms.length (s.withSched ms) = .next (t.withSched []) := by
  induction h with
  | refl s => exact ⟨[], by simp, rfl⟩
  | @step n s t u _ ha _ ih =>
    obtain ⟨ms, hagents, hrun⟩ := ih
    refine ⟨(if s.dev.waiting then .engine else .controller) :: ms, List.forall_mem_cons.mpr ⟨?_, hagents⟩, ?_⟩
    · split
      · exact .inr rfl
      · exact .inl rfl
    · exact (run_succ_of_step core ms.length (step_of_advance ms ha)).trans hrun

/-- The host's first move, the write of the command word, and what the machine then runs. -/
theorem run_of_ctrlWrite {s : State} {i : Instr} {d : Device} (ms : List Move)
    (hd : hostWrite Config.params 0x008 (encode i) s.dev = d) :
    core.run (ms.length + 1)
        { s with env := { s.env with sched := .host :: ms, script := .write 0x008 (encode i) :: s.env.script } } =
      core.run ms.length (State.withSched { s with dev := d } ms) := by
  subst hd
  exact run_succ_of_step core ms.length (step_host_access (s := { s with env := { s.env with
    sched := .host :: ms, script := .write 0x008 (encode i) :: s.env.script } }) rfl rfl)

/-- Settles O28: the host's write is the START or the dropped START, and the steps of the merged run follow. -/
theorem mergedCommandIsRunOfSingleSteps : Obligations.MergedCommandIsRunOfSingleSteps := by
  intro i s t hwf h
  obtain ⟨hstart, hcmd, hround, -⟩ := encode_fields i
  rw [exec_eq_runCommand] at h
  by_cases hi : s.dev.phase = .idle
  · obtain ⟨-, n, -, hsteps⟩ := runCommand_next (Device.busy_false_iff.mpr hi) h
    obtain ⟨ms, hagents, hrun⟩ := hsteps.run
    have hwrite : hostWrite Config.params 0x008 (encode i) s.dev = s.dev.start i.cmd i.round := by
      rw [hostWrite_ctrl_idle hi hstart, hcmd, hround]
    exact ⟨ms, hagents, (run_of_ctrlWrite ms hwrite).trans hrun⟩
  · rw [runCommand_busy hi] at h
    cases h
    exact ⟨[], by simp, run_of_ctrlWrite [] (hostWrite_ctrl_busy hi)⟩

end Sys2Proof.Machine
end

section
/-! How a command that succeeds ends (42_feistel_controller R172, R178, R179), and the commands without rounds: the
empty message (R172, R191), IVGEN (R185), MADD (R183) and MSUB (R184). -/
namespace Sys2Proof.Machine

/-! ### complete() -/

section Ends
variable {P : Params} {c rd : BitVec 4} {calls n : Nat} {s : State} {e : Device}

/-- complete() after steps that keep what a round keeps is a successful end (R179). -/
theorem RoundKeeps.successEnd (h : RoundKeeps calls (s.dev.start c rd) e) (hp : e.port = .free) :
    SuccessEnd c rd calls s (s.after e.complete calls) where
  inten := h.inten
  radix := h.radix
  keylen := h.keylen
  len := h.len
  tlen := h.tlen
  key := h.key
  tweak := h.tweak
  phase := rfl
  port := hp
  cmd := h.cmd
  ctrlCmd := h.ctrlCmd
  ctrlRound := h.ctrlRound
  wbusy := h.wbusy
  ciphcnt := h.ciphcnt.trans (BitVec.zero_add _)
  env := rfl
  done := rfl
  err := h.err
  errcode := rfl
  errinfo := h.errinfo

/-- What DATA and OPB hold is no part of a successful end. -/
theorem SuccessEnd.setBuf (h : SuccessEnd c rd calls s (s.after e n)) {b : Buf} (hb : b ≠ .tweak) (m : Memory) :
    SuccessEnd c rd calls s (s.after (e.setBuf b m) n) := by
  cases b with
  | tweak => exact absurd rfl hb
  | data | opb => exact { h with }

/-! ### WRITEBACK of a result (R178) -/

/-- A command that has ended with the digits v in a buffer: the rest of it, and the other buffers, as at the START. -/
structure ResultEnd (P : Params) (c rd : BitVec 4) (calls : Nat) (b : Buf) (v : List Nat) (s t : State) : Prop
    extends SuccessEnd c rd calls s t where
  holds : HoldsDigits P t.dev b v
  rest : KeepsFrom v.length (s.dev.buf b) (t.dev.buf b)
  others : ∀ b' : Buf, b' ≠ b → t.dev.buf b' = s.dev.buf b'

theorem holdsDigits_of_write {b : Buf} {m : Memory} {v : List Nat} (hm : e.buf b = Memory.writeBytes m 0 (digitBytes v))
    (hn : v.length ≤ Params.size P b) (hv : ∀ x ∈ v, x < e.rVal) : HoldsDigits P e b v := by
  refine ⟨?_, hv⟩
  rw [memRead, if_pos (by omega), hm, ← length_digitBytes]
  exact Memory.readBytes_writeBytes ..

theorem RoundKeeps.buf {d : Device} (h : RoundKeeps calls d e) (b : Buf) : e.buf b = d.buf b := by
  cases b
  · exact h.tweak
  · exact h.data
  · exact h.opb

theorem Device.start_buf (d : Device) (b : Buf) : (d.start c rd).buf b = d.buf b := by cases b <;> rfl

theorem Device.complete_setBuf_keepsWorking (d : Device) (b : Buf) (m : Memory) :
    KeepsWorking d (d.complete.setBuf b m) := by
  cases b <;> exact ⟨rfl, rfl, rfl, rfl, rfl, rfl, rfl, rfl, rfl⟩

/-- Steps from START to WRITEBACK, and the WRITEBACK of digits of the radix, are a successful command. -/
theorem runCommand_of_writeback {b : Buf} {v : List Nat} (hi : s.dev.phase = .idle)
    (hs : Steps P n (s.after (s.dev.start c rd) 0) (s.after e calls)) (hk : RoundKeeps calls (s.dev.start c rd) e)
    (hph : e.phase = .writeback) (hp : e.port = .free) (hw : writebackStep P e = writeResult P b v.length v e)
    (hb : b ≠ .tweak) (hsize : v.length ≤ Params.size P b) (hv : ∀ x ∈ v, x < s.dev.rVal)
    (hn : n < commandBound s.dev.nVal s.dev.rVal s.dev.tVal) :
    ∃ t, runCommand P c rd s = .next t ∧ ResultEnd P c rd calls b v s t ∧ KeepsWorking e t.dev := by
  rw [writeResult_eq rfl hsize, Device.setBuf_complete] at hw
  have hlast := Steps.controller (P := P) (s := s.after e calls) (Device.busy_iff.mpr (by simp [hph])) hp
    ((ctlStep_writeback hph hp).trans hw)
  rw [State.after_after] at hlast
  have hsuccess := (hk.successEnd hp).setBuf hb (Memory.writeBytes (e.buf b) 0 (digitBytes v))
  have hbuf (b' : Buf) : e.buf b' = s.dev.buf b' := (hk.buf b').trans (Device.start_buf s.dev b')
  have hr : (e.complete.setBuf b (Memory.writeBytes (e.buf b) 0 (digitBytes v))).rVal = s.dev.rVal :=
    congrArg BitVec.toNat hsuccess.radix
  refine ⟨_, runCommand_of_steps (Device.busy_false_iff.mpr hi) (hs.trans hlast)
    (Device.busy_false_iff.mpr hsuccess.phase) hn, { hsuccess with
      holds := holdsDigits_of_write (Device.setBuf_buf_same ..) hsize (by rw [State.after_dev, hr]; exact hv)
      rest := ?_
      others := fun b' hne => (Device.setBuf_buf_other _ _ _ _ hne).trans (hbuf b') },
    Device.complete_setBuf_keepsWorking e ..⟩
  rw [State.after_dev, Device.setBuf_buf_same, hbuf, ← length_digitBytes]
  exact .writeBytes _ _

/-- The successful end alone: steps from START to a state that completes. -/
theorem runCommand_of_complete (hi : s.dev.phase = .idle)
    (hs : Steps P n (s.after (s.dev.start c rd) 0) (s.after e.complete calls))
    (hn : n ≤ commandBound s.dev.nVal s.dev.rVal s.dev.tVal) : runCommand P c rd s = .next (s.after e.complete calls) :=
  runCommand_of_steps (Device.busy_false_iff.mpr hi) hs rfl hn

end Ends

/-! ### The registers of a ready command (R221, R254) -/

section Ready
variable {P : Params} {c rd : BitVec 4} {s : State} {d : Device}

/-- The registers of a ready MADD or MSUB raise nothing, whatever KEYLEN and TLEN hold. -/
theorem registerError_radix (h : RadixReady P d) (hc : c = Cmd.madd ∨ c = Cmd.msub) :
    registerError P (d.start c rd) = none := by
  obtain ⟨-, ⟨h2, h62⟩, hn⟩ := h
  have hcmd : isCommand c = true ∧ usesCipher c = false ∧ c ≠ Cmd.prf := by rcases hc with rfl | rfl <;> decide
  obtain ⟨hcommand, hcipher, hprf⟩ := hcmd
  unfold registerError
  rw [Device.start_cmd, hcommand, hcipher, if_neg (by decide), if_neg (by simp),
    if_neg (by change ¬ (d.rVal < 2 ∨ 62 < d.rVal); omega), if_neg (by change ¬ P.nMax < d.nVal; omega),
    if_neg (by simp), if_neg (fun h => hprf h.1), if_neg (fun h => hprf h.1)]

theorem RadixReady.radix_le (h : RadixReady P d) : d.rVal ≤ 256 := h.radix.2.trans (by decide)

/-! ### The empty message (R172, R191) -/

theorem scanBuf_zero (bf : Buf) : scanBuf P d bf 0 = .ok none := if_pos (Nat.zero_le _)

/-- Over no digits the scan of ENC, DEC, MADD and MSUB reads nothing. -/
theorem symbolScan_empty (hn : d.nVal = 0)
    (hc : d.cmd = Cmd.enc ∨ d.cmd = Cmd.dec ∨ d.cmd = Cmd.madd ∨ d.cmd = Cmd.msub) : symbolScan P d = .ok none := by
  unfold symbolScan
  rw [hn, scanBuf_zero, scanBuf_zero]
  by_cases hf : d.cmd = Cmd.enc ∨ d.cmd = Cmd.dec
  · exact if_pos hf
  · rw [if_neg hf]
    exact if_pos ((or_assoc.mpr hc).resolve_left hf)

/-- CHECK completes a command over no digits at once (R172). -/
theorem checkPassed_empty (hn : d.nVal = 0)
    (hc : d.cmd = Cmd.enc ∨ d.cmd = Cmd.dec ∨ d.cmd = Cmd.madd ∨ d.cmd = Cmd.msub) : checkPassed d = d.complete :=
  if_pos ⟨hn, hc⟩

theorem runCommand_empty (hi : s.dev.Idle) (hr : registerError P (s.dev.start c rd) = none) (hn : s.dev.nVal = 0)
    (hc : c = Cmd.enc ∨ c = Cmd.dec ∨ c = Cmd.madd ∨ c = Cmd.msub) :
    ∃ t, runCommand P c rd s = .next t ∧ SuccessEnd c rd 0 s t ∧ KeepsWorking s.dev t.dev ∧
      KeepsBuffers s.dev t.dev := by
  have hcheck : checkStep P (s.dev.start c rd) = .ok (s.dev.start c rd).complete := by
    rw [checkStep_pass hr (symbolScan_empty hn hc), checkPassed_empty (by exact hn) (by exact hc)]
  exact ⟨_, runCommand_of_check hi hcheck rfl, (RoundKeeps.refl _).successEnd hi.2,
    ⟨rfl, rfl, rfl, rfl, rfl, rfl, rfl, rfl, rfl⟩, rfl, rfl⟩

/-- A START whose registers and symbols pass, after CHECK (R172). -/
theorem steps_check (hi : s.dev.Idle) (hr : registerError P (s.dev.start c rd) = none)
    (hs : symbolScan P (s.dev.start c rd) = .ok none) :
    Steps P 1 (s.after (s.dev.start c rd) 0) (s.after (checkPassed (s.dev.start c rd)) 0) := by
  have hport : (s.dev.start c rd).port = .free := hi.2
  have h := Steps.controller (P := P) (s := s.after (s.dev.start c rd) 0) rfl hport
    ((ctlStep_check rfl hport).trans (checkStep_pass hr hs))
  rwa [State.after_after] at h

/-! ### IVGEN (R185) -/

/-- IVGEN, its one call answered Ok: CHECK, then HDR, whose answer is IV. -/
theorem runCommand_ivgen (h : CipherReady P s.dev) (ha : s.env.Answers 1) :
    ∃ t, runCommand P Cmd.ivgen rd s = .next t ∧ SuccessEnd Cmd.ivgen rd 1 s t ∧ KeepsBuffers s.dev t.dev ∧
      t.dev.iv = ivOf (cipherOf P s.dev) s.dev.nVal s.dev.rVal s.dev.tVal ∧
      KeepsWorking { s.dev with iv := t.dev.iv } t.dev := by
  have hfirst := steps_check h.idle (registerError_cipher rd h (.inr (.inr rfl))) rfl
  rw [checkPassed_ivgen rfl] at hfirst
  have hcall := steps_hdr_ivgen (P := P)
    (s := s.after { s.dev.start Cmd.ivgen rd with phase := .hdr } 0) rfl h.idle.2 rfl
    (Env.nextDraw_of_answers (c := 0) ha)
  have hsteps := hfirst.trans hcall
  rw [State.after_after] at hsteps
  have hrun := runCommand_of_complete h.idle.1 hsteps (by unfold commandBound; omega)
  refine ⟨_, hrun, RoundKeeps.successEnd { KeepsHostState.refl (s.dev.start Cmd.ivgen rd) with
      data := rfl, opb := rfl, ciphcnt := rfl, done := rfl, err := rfl, errcode := rfl, errinfo := rfl } rfl,
    ⟨rfl, rfl⟩, rfl, rfl, rfl, rfl, rfl, rfl, rfl, rfl, rfl, rfl⟩

/-! ### MADD and MSUB (R183, R184) -/

/-- LOAD of MADD and MSUB (R173). -/
theorem loadStep_madd (hc : d.cmd = Cmd.madd) : loadStep P d = loadPair P .add d := by
  unfold loadStep
  rw [hc]
  rfl

theorem loadStep_msub (hc : d.cmd = Cmd.msub) : loadStep P d = loadPair P .sub d := by
  unfold loadStep
  rw [hc]
  rfl

theorem checkPassed_load (hn : d.nVal ≠ 0) (hc : d.cmd ≠ Cmd.ivgen) : checkPassed d = { d with phase := .load } :=
  (if_neg fun h => hn h.1).trans (if_neg hc)

theorem symbolScan_pair {x z : List Nat} (hc : d.cmd = Cmd.madd ∨ d.cmd = Cmd.msub) (hr : d.rVal ≤ 256)
    (hx : HoldsDigits P d .data x) (hz : HoldsDigits P d .opb z) (hnx : x.length = d.nVal) (hnz : z.length = d.nVal) :
    symbolScan P d = .ok none := by
  have hsx := hx.scan hr
  have hsz := hz.scan hr
  rw [hnx] at hsx
  rw [hnz] at hsz
  unfold symbolScan
  rw [if_neg (by rcases hc with hc | hc <;> rw [hc] <;> decide), if_pos hc, hsx, hsz]

/-- The device of MADD or MSUB once both operands are loaded and its phase is next. -/
def pairLoaded (c rd : BitVec 4) (x z : List Nat) (ph : Phase) (d : Device) : Device :=
  { d.start c rd with regA := x, regF := z, regB := [], phase := ph }

/-- MADD and MSUB: CHECK, LOAD, one step `ph` that leaves the result v, WRITEBACK. -/
theorem runCommand_pair {x z v : List Nat} {ph : Phase} (h : RadixReady P s.dev) (h1 : 1 ≤ s.dev.nVal)
    (hx : HoldsDigits P s.dev .data x) (hz : HoldsDigits P s.dev .opb z) (hnx : x.length = s.dev.nVal)
    (hnz : z.length = s.dev.nVal) (hc : c = Cmd.madd ∨ c = Cmd.msub) (hbusy : ph ≠ .idle)
    (hload : loadStep P { s.dev.start c rd with phase := .load } =
      loadPair P ph { s.dev.start c rd with phase := .load })
    (hop : ctlStep P (pairLoaded c rd x z ph s.dev) =
      .ok { pairLoaded c rd x z ph s.dev with regA := v, phase := .writeback })
    (hnv : v.length = s.dev.nVal) (hv : ∀ a ∈ v, a < s.dev.rVal) :
    ∃ t, runCommand P c rd s = .next t ∧ ResultEnd P c rd 0 .data v s t ∧
      KeepsWorking { s.dev with regA := v, regB := [], regF := z } t.dev := by
  have hcmd : (s.dev.start c rd).cmd ≠ Cmd.ivgen := by
    show c ≠ Cmd.ivgen
    rcases hc with rfl | rfl <;> decide
  have s1 := steps_check h.idle (registerError_radix h hc)
    (symbolScan_pair (d := s.dev.start c rd) hc h.radix_le hx hz hnx hnz)
  rw [checkPassed_load (d := s.dev.start c rd) (Nat.one_le_iff_ne_zero.mp h1) hcmd] at s1
  have s2 := Steps.controller (P := P) (s := s.after { s.dev.start c rd with phase := .load } 0) rfl h.idle.2
    ((ctlStep_load rfl (by exact h.idle.2)).trans (hload.trans
      (loadPair_eq (d := { s.dev.start c rd with phase := .load }) ph hx hz h.radix_le hnx hnz)))
  have s3 := Steps.controller (P := P) (s := s.after (pairLoaded c rd x z ph s.dev) 0) (Device.busy_iff.mpr hbusy)
    h.idle.2 hop
  have hwb : writebackStep P { pairLoaded c rd x z ph s.dev with regA := v, phase := .writeback } =
      writeResult P .data v.length v { pairLoaded c rd x z ph s.dev with regA := v, phase := .writeback } := by
    rw [hnv]
    rcases hc with rfl | rfl <;> rfl
  have hkeeps : RoundKeeps 0 (s.dev.start c rd) { pairLoaded c rd x z ph s.dev with regA := v, phase := .writeback } :=
    { RoundKeeps.refl (s.dev.start c rd) with }
  obtain ⟨t, hrun, hend, hwork⟩ := runCommand_of_writeback h.idle.1 ((s1.trans s2).trans s3) hkeeps rfl h.idle.2 hwb
    (by decide) (hnv.trans_le h.len) hv (by unfold commandBound; omega)
  exact ⟨t, hrun, hend, { hwork with }⟩

theorem runCommand_madd {x z : List Nat} (h : RadixReady P s.dev) (h1 : 1 ≤ s.dev.nVal)
    (hnx : x.length = s.dev.nVal) (hnz : z.length = s.dev.nVal) (hx : HoldsDigits P s.dev .data x)
    (hz : HoldsDigits P s.dev .opb z) : ∃ t, runCommand P Cmd.madd rd s = .next t ∧
      ResultEnd P Cmd.madd rd 0 .data (radd s.dev.rVal s.dev.nVal x z) s t ∧
      KeepsWorking { s.dev with regA := radd s.dev.rVal s.dev.nVal x z, regB := [], regF := z } t.dev := by
  have hr : 0 < s.dev.rVal := Nat.zero_lt_of_lt h.radix.1
  exact runCommand_pair h h1 hx hz hnx hnz (.inl rfl) (ph := .add) (by decide) (loadStep_madd rfl)
    ((ctlStep_add (d := pairLoaded Cmd.madd rd x z .add s.dev) rfl h.idle.2).trans (addStep_madd rfl hr))
    (length_radd ..) fun _ => str_digit_lt hr

theorem runCommand_msub {x z : List Nat} (h : RadixReady P s.dev) (h1 : 1 ≤ s.dev.nVal)
    (hnx : x.length = s.dev.nVal) (hnz : z.length = s.dev.nVal) (hx : HoldsDigits P s.dev .data x)
    (hz : HoldsDigits P s.dev .opb z) : ∃ t, runCommand P Cmd.msub rd s = .next t ∧
      ResultEnd P Cmd.msub rd 0 .data (rsub s.dev.rVal s.dev.nVal x z) s t ∧
      KeepsWorking { s.dev with regA := rsub s.dev.rVal s.dev.nVal x z, regB := [], regF := z } t.dev := by
  have hr : 0 < s.dev.rVal := Nat.zero_lt_of_lt h.radix.1
  exact runCommand_pair h h1 hx hz hnx hnz (.inr rfl) (ph := .sub) (by decide) (loadStep_msub rfl)
    ((ctlStep_sub (d := pairLoaded Cmd.msub rd x z .sub s.dev) rfl h.idle.2).trans (subStep_msub rfl hr))
    (length_rsub ..) fun _ => str_digit_lt hr

end Ready

/-- Settles O16: no register is wrong, no byte is scanned, and CHECK completes. -/
theorem emptyMessageSucceedsAtOnce : Obligations.EmptyMessageSucceedsAtOnce := by
  refine ⟨fun rd s h hn => ⟨?_, ?_⟩, fun rd s h hn => ⟨?_, ?_⟩⟩
  · exact runCommand_empty h.idle (registerError_cipher rd h (by simp)) hn (by simp)
  · exact runCommand_empty h.idle (registerError_cipher rd h (by simp)) hn (by simp)
  · exact runCommand_empty h.idle (registerError_radix h (by simp)) hn (by simp)
  · exact runCommand_empty h.idle (registerError_radix h (by simp)) hn (by simp)

/-- Settles O14: CHECK passes, and HDR's one call gives IV. -/
theorem ivgenComputesHeaderCipher : Obligations.IvgenComputesHeaderCipher :=
  fun _ _ h ha => runCommand_ivgen h ha

/-- Settles O12: ADD of the loaded operands is RADD, written back to DATA. -/
theorem maddWritesModularSum : Obligations.MaddWritesModularSum := by
  intro rd s x z h h1 hnx hnz hx hz
  obtain ⟨t, hrun, hend, hw⟩ := runCommand_madd (rd := rd) h h1 hnx hnz hx hz
  have hlen : (radd s.dev.rVal s.dev.nVal x z).length = s.dev.nVal := length_radd ..
  exact ⟨t, hrun, hend.toSuccessEnd, hend.holds, hlen, hlen ▸ hend.rest, hend.others .opb (by decide), hw.i, hw.k, hw.j,
    hw.iv, hw.y, hw.strm⟩

/-- Settles O13: SUB of the loaded operands is RSUB, written back to DATA. -/
theorem msubWritesModularDifference : Obligations.MsubWritesModularDifference := by
  intro rd s x z h h1 hnx hnz hx hz
  obtain ⟨t, hrun, hend, hw⟩ := runCommand_msub (rd := rd) h h1 hnx hnz hx hz
  have hlen : (rsub s.dev.rVal s.dev.nVal x z).length = s.dev.nVal := length_rsub ..
  exact ⟨t, hrun, hend.toSuccessEnd, hend.holds, hlen, hlen ▸ hend.rest, hend.others .opb (by decide), hw.i, hw.k, hw.j,
    hw.iv, hw.y, hw.strm⟩

end Sys2Proof.Machine
end

section
/-! PRF, ENC and DEC with every cipher call answered Ok (42_feistel_controller R180 to R182): from START over the rounds
to WRITEBACK, and DEC after ENC (R188, 70_reset_and_hazards R259). -/
namespace Sys2Proof.Machine

/-- What a command derives from its operands stays what it was before the START (R49). -/
theorem RoundKeeps.derived_start {calls : Nat} {c rd : BitVec 4} {d e : Device} (h : RoundKeeps calls (d.start c rd) e) :
    e.rVal = d.rVal ∧ e.nVal = d.nVal ∧ e.tVal = d.tVal ∧ e.qVal = d.qVal ∧ e.eVal = d.eVal ∧ e.bVal = d.bVal :=
  h.derived

/-! ### PRF (R182) -/

section Prf
variable {P : Params} {s : State} {d : Device} {rd : BitVec 4}

theorem writebackStep_prf (hc : d.cmd = Cmd.prf) : writebackStep P d = writeResult P .opb d.mVal d.regF d :=
  (if_neg (by rw [hc]; decide)).trans (if_pos hc)

/-- PRF of a ready device: OPB takes RF of round ROUND over the half in DATA. -/
theorem runCommand_prf {tw : List Byte} {x : List Nat} (h : CipherReady P s.dev) (h1 : 1 ≤ s.dev.nVal)
    (hi : rd.toNat ≤ 9) (hn : x.length = wOf s.dev.nVal rd.toNat) (ht : HoldsTweak P s.dev tw)
    (hd : HoldsDigits P s.dev .data x) (ha : s.env.Answers (prfCalls s.dev.nVal s.dev.rVal s.dev.tVal)) :
    ∃ t, runCommand P Cmd.prf rd s = .next t ∧
      t.dev.iv = ivOf (cipherOf P s.dev) s.dev.nVal s.dev.rVal s.dev.tVal ∧
      ResultEnd P Cmd.prf rd (prfCalls s.dev.nVal s.dev.rVal s.dev.tVal) .opb
        (roundFn (cipherOf P s.dev) tw s.dev.nVal s.dev.rVal rd.toNat x t.dev.iv) s t ∧
      t.dev.i = rd ∧ t.dev.y = macOf (cipherOf P s.dev) tw s.dev.nVal s.dev.rVal rd.toNat x t.dev.iv := by
  obtain ⟨hr2, hr62⟩ := h.radix
  obtain ⟨e, hstart, hround, hkeep⟩ :=
    steps_start_prf h h1 hi hn hd (Env.answers_mono ha (by unfold prfCalls; omega))
  obtain ⟨er, en, -, eq, ee, eb⟩ := hkeep.derived_start
  have hE : cipherOf P e = cipherOf P s.dev := hkeep.cipher P
  have hcmd : e.cmd = Cmd.prf := hkeep.cmd
  have hhalf : e.half = x := by
    unfold Device.half
    rw [hcmd]
    exact hround.halfB
  have hi' : e.iVal = rd.toNat := hround.round
  have hfits : num e.rVal e.half < 256 ^ e.bVal := by
    rw [hhalf, er, eb]
    exact num_half_lt (by omega) (hn.trans_le (wOf_le_vOf _ _)) hd.2
  have hreduced := steps_to_reduced (P := P) (tw := tw) (s := s.after e 1) hround (hkeep.holdsTweak ht) hfits
    (by rw [State.after_dev]; omega) (by rw [State.after_dev]; omega)
    (State.answers_after (by rw [State.after_dev, eq, ee]; rwa [prfCalls, Nat.add_assoc] at ha))
  rw [State.after_after, State.after_dev] at hreduced
  have hregF : (roundDone P tw e).regF =
      roundFn (cipherOf P s.dev) tw s.dev.nVal s.dev.rVal rd.toNat x e.iv := by
    show roundFn (cipherOf P e) tw e.nVal e.rVal e.iVal e.half e.iv = _
    rw [hE, en, er, hi', hhalf]
  have hy : (roundDone P tw e).y = macOf (cipherOf P s.dev) tw s.dev.nVal s.dev.rVal rd.toNat x e.iv := by
    show macOf (cipherOf P e) tw e.nVal e.rVal e.iVal e.half e.iv = _
    rw [hE, en, er, hi', hhalf]
  have hlen : (roundFn (cipherOf P s.dev) tw s.dev.nVal s.dev.rVal rd.toNat x e.iv).length =
      (roundDone P tw e).mVal := by
    show (str ..).length = mOf e.nVal e.iVal
    rw [length_str, en, hi']
  have hm : (roundDone P tw e).mVal ≤ P.nMax := (mOf_le e.nVal e.iVal).trans (en.trans_le h.len)
  have hwb := writebackStep_prf (P := P) (d := roundDone P tw e) hcmd
  rw [hregF, ← hlen] at hwb
  have hcalls : 1 + (e.qVal + e.eVal) = prfCalls s.dev.nVal s.dev.rVal s.dev.tVal := by
    rw [eq, ee, prfCalls, Nat.add_assoc]
    rfl
  have hkeeps := hkeep.trans (roundDone_keeps P tw e)
  rw [hcalls] at hreduced hkeeps
  obtain ⟨t, hrun, hend, hw⟩ := runCommand_of_writeback h.idle.1 (hstart.trans hreduced) hkeeps
    (by show afterReduce e.cmd = _; rw [hcmd]; rfl) rfl hwb (by decide) (hlen.trans_le hm)
    (fun _ => str_digit_lt (by omega)) (by rw [eq, ee]; unfold commandBound Device.qVal Device.eVal; omega)
  have hiv : t.dev.iv = e.iv := hw.iv
  rw [← hiv] at hend hy
  exact ⟨t, hrun, hiv.trans hround.ivIs, hend, hw.i.trans (BitVec.eq_of_toNat_eq hround.round), hw.y.trans hy⟩

end Prf

/-- Settles O11: REDUCE leaves RF in F, and WRITEBACK of PRF puts F in OPB. -/
theorem prfWritesRoundFunction : Obligations.PrfWritesRoundFunction := by
  intro rd s tw h hready h1 hi hn ht hd ha
  obtain ⟨t, hrun, hiv, hend, hround, hy⟩ := runCommand_prf hready h1 hi hn ht hd ha
  have hlen : (roundFn (cipherOf Config.params s.dev) tw s.dev.nVal s.dev.rVal rd.toNat h t.dev.iv).length =
      mOf s.dev.nVal rd.toNat := length_str ..
  exact ⟨t, hrun, hend.toSuccessEnd, hiv, hend.holds, hlen, hlen ▸ hend.rest, hend.others .data (by decide), hround, hy⟩

/-! ### Ten rounds (R180, R181) -/

/-- The controller stands before WRITEBACK of ENC or DEC: the last round's index and chain value, the halves of the
result, IV. -/
structure AtWriteback (i : BitVec 4) (ab : List Nat × List Nat) (iv y : Block) (d : Device) : Prop where
  phase : d.phase = .writeback
  port : d.port = .free
  round : d.i = i
  halves : (d.regA, d.regB) = ab
  ivIs : d.iv = iv
  chain : d.y = y

section Rounds
variable {P : Params} {s : State} {tw : List Byte} {x : List Nat} {iv : Block}

theorem encRounds_fits (E : Block → Block) (tw : List Byte) (iv : Block) {r : Nat} (hr : 0 < r) (hx : ∀ a ∈ x, a < r)
    (c : Nat) : num r (encRounds E tw x.length r iv (splitHalves x) c).2 < 256 ^ bOf x.length r :=
  num_half_lt hr ((encRounds_halfLengths E tw r iv x c).input.trans_le (sub_mOf_le_vOf _ _))
    ((halvesOf_split hx).encRounds E tw iv hr c).digitsB

theorem decRounds_fits (E : Block → Block) (tw : List Byte) (iv : Block) {r : Nat} (hr : 0 < r) (hx : ∀ a ∈ x, a < r)
    {c : Nat} (hc : c ≤ 9) : num r (decRounds E tw x.length r iv (splitHalves x) c).1 < 256 ^ bOf x.length r :=
  num_half_lt hr ((decRounds_halfLengths E tw r iv x hc).input.trans_le (sub_mOf_le_vOf _ _))
    ((halvesOf_split hx).decRounds E tw iv hr c).digitsA

/-- The ten encryption rounds, every call answered Ok. -/
theorem steps_enc_ten (hc : s.dev.cmd = Cmd.enc) (h : AtRound 0 (splitHalves x) iv s.dev) (ht : HoldsTweak P s.dev tw)
    (hn : x.length = s.dev.nVal) (hx : ∀ a ∈ x, a < s.dev.rVal) (hr : s.dev.RadixLegal)
    (ha : s.env.Answers (10 * (s.dev.qVal + s.dev.eVal))) :
    ∃ e, Steps P (10 * s.dev.roundSteps) s (s.after e (10 * (s.dev.qVal + s.dev.eVal))) ∧
      AtWriteback 9 (encRounds (cipherOf P s.dev) tw s.dev.nVal s.dev.rVal iv (splitHalves x) 10) iv
        (macOf (cipherOf P s.dev) tw s.dev.nVal s.dev.rVal 9
          (encRounds (cipherOf P s.dev) tw s.dev.nVal s.dev.rVal iv (splitHalves x) 9).2 iv) e ∧
      RoundKeeps (10 * (s.dev.qVal + s.dev.eVal)) s.dev e := by
  obtain ⟨hr2, hr62⟩ := hr
  have hfits (i : Nat) : num s.dev.rVal
      (encRounds (cipherOf P s.dev) tw s.dev.nVal s.dev.rVal iv (splitHalves x) i).2 < 256 ^ s.dev.bVal := by
    have := encRounds_fits (cipherOf P s.dev) tw iv (by omega) hx i
    rwa [hn] at this
  obtain ⟨e, hs, hround, hk⟩ := steps_enc_rounds 9 (le_refl 9) hc h ht (fun i _ => hfits i) (by omega) (by omega)
    (Env.answers_mono ha (by omega))
  obtain ⟨er, en, -, eq, ee, eb⟩ := hk.derived
  obtain ⟨f, gs, hph, hp, hi, hiv, hab, hy, gk⟩ := steps_enc_last (P := P) (tw := tw)
    (s := s.after e (9 * (s.dev.qVal + s.dev.eVal))) (hk.cmd.trans hc) hround (hk.holdsTweak ht)
    (by rw [State.after_dev, er, eb]; exact hfits 9) (by rw [State.after_dev]; omega) (by rw [State.after_dev]; omega)
    (State.answers_after (by rwa [State.after_dev, eq, ee, ← Nat.succ_mul]))
  rw [State.after_dev, State.after_after, eq, ee, ← Nat.succ_mul] at gs
  rw [State.after_dev, hk.cipher, en, er] at hab hy
  rw [State.after_dev, eq, ee] at gk
  refine ⟨f, ?_, ⟨hph, hp, hi, hab, hiv, hy⟩, ?_⟩
  · rw [Device.roundSteps, Nat.succ_mul]
    exact hs.trans gs
  · rw [Nat.succ_mul]
    exact hk.trans gk

/-- The ten decryption rounds, every call answered Ok. -/
theorem steps_dec_ten (hc : s.dev.cmd = Cmd.dec) (h : AtRound 9 (splitHalves x) iv s.dev) (ht : HoldsTweak P s.dev tw)
    (hn : x.length = s.dev.nVal) (hx : ∀ a ∈ x, a < s.dev.rVal) (hr : s.dev.RadixLegal)
    (ha : s.env.Answers (10 * (s.dev.qVal + s.dev.eVal))) :
    ∃ e, Steps P (10 * s.dev.roundSteps) s (s.after e (10 * (s.dev.qVal + s.dev.eVal))) ∧
      AtWriteback 0 (decRounds (cipherOf P s.dev) tw s.dev.nVal s.dev.rVal iv (splitHalves x) 10) iv
        (macOf (cipherOf P s.dev) tw s.dev.nVal s.dev.rVal 0
          (decRounds (cipherOf P s.dev) tw s.dev.nVal s.dev.rVal iv (splitHalves x) 9).1 iv) e ∧
      RoundKeeps (10 * (s.dev.qVal + s.dev.eVal)) s.dev e := by
  obtain ⟨hr2, hr62⟩ := hr
  have hfits {i : Nat} (hi : i ≤ 9) : num s.dev.rVal
      (decRounds (cipherOf P s.dev) tw s.dev.nVal s.dev.rVal iv (splitHalves x) i).1 < 256 ^ s.dev.bVal := by
    have := decRounds_fits (cipherOf P s.dev) tw iv (by omega) hx hi
    rwa [hn] at this
  obtain ⟨e, hs, hround, hk⟩ := steps_dec_rounds 9 (le_refl 9) hc h ht (fun i hi => hfits hi) (by omega) (by omega)
    (Env.answers_mono ha (by omega))
  obtain ⟨er, en, -, eq, ee, eb⟩ := hk.derived
  obtain ⟨f, gs, hph, hp, hi, hiv, hab, hy, gk⟩ := steps_dec_last (P := P) (tw := tw)
    (s := s.after e (9 * (s.dev.qVal + s.dev.eVal))) (hk.cmd.trans hc) hround (hk.holdsTweak ht)
    (by rw [State.after_dev, er, eb]; exact hfits (le_refl 9)) (by rw [State.after_dev]; omega)
    (by rw [State.after_dev]; omega) (State.answers_after (by rwa [State.after_dev, eq, ee, ← Nat.succ_mul]))
  rw [State.after_dev, State.after_after, eq, ee, ← Nat.succ_mul] at gs
  rw [State.after_dev, hk.cipher, en, er] at hab hy
  rw [State.after_dev, eq, ee] at gk
  refine ⟨f, ?_, ⟨hph, hp, hi, hab, hiv, hy⟩, ?_⟩
  · rw [Device.roundSteps, Nat.succ_mul]
    exact hs.trans gs
  · rw [Nat.succ_mul]
    exact hk.trans gk

end Rounds

/-! ### ENC and DEC from START to the end (R180, R181) -/

section Feistel
variable {P : Params} {s : State} {c rd : BitVec 4} {tw : List Byte} {x : List Nat}

theorem writebackStep_feistel {d : Device} (hc : d.cmd = Cmd.enc ∨ d.cmd = Cmd.dec) :
    writebackStep P d = writeResult P .data d.nVal (d.regA ++ d.regB) d := if_pos hc

/-- A command that has reached its first round, makes ten rounds and writes their halves back. -/
theorem runCommand_of_ten_rounds {e : Device} {i : BitVec 4} {ab : List Nat × List Nat} {iv y : Block}
    (h : CipherReady P s.dev) (hc : c = Cmd.enc ∨ c = Cmd.dec)
    (hstart : Steps P 5 (s.after (s.dev.start c rd) 0) (s.after e 1)) (hk : RoundKeeps 1 (s.dev.start c rd) e)
    (hten : ∃ f, Steps P (10 * e.roundSteps) (s.after e 1) ((s.after e 1).after f (10 * (e.qVal + e.eVal))) ∧
      AtWriteback i ab iv y f ∧ RoundKeeps (10 * (e.qVal + e.eVal)) e f)
    (hab : HalvesOf s.dev.nVal s.dev.rVal ab) :
    ∃ t, runCommand P c rd s = .next t ∧
      ResultEnd P c rd (feistelCalls s.dev.nVal s.dev.rVal s.dev.tVal) .data (ab.1 ++ ab.2) s t ∧
      t.dev.i = i ∧ t.dev.iv = iv ∧ t.dev.y = y := by
  obtain ⟨f, hs, hw, hk'⟩ := hten
  obtain ⟨-, -, -, eq, ee, -⟩ := hk.derived_start
  have hkeeps := hk.trans hk'
  obtain ⟨-, hn, -⟩ := hkeeps.derived_start
  have hcalls : 1 + 10 * (e.qVal + e.eVal) = feistelCalls s.dev.nVal s.dev.rVal s.dev.tVal := by
    rw [eq, ee, feistelCalls]
    rfl
  have hsteps := hstart.trans hs
  rw [State.after_after, hcalls] at hsteps
  rw [hcalls] at hkeeps
  have hhalves : f.regA ++ f.regB = ab.1 ++ ab.2 := by rw [← hw.halves]
  have hwb := writebackStep_feistel (P := P) (d := f) (by rw [hkeeps.cmd]; exact hc)
  rw [hhalves, hn, ← hab.length] at hwb
  obtain ⟨t, hrun, hend, hwork⟩ := runCommand_of_writeback h.idle.1 hsteps hkeeps hw.phase hw.port hwb (by decide)
    (hab.length.trans_le h.len) hab.digits
    (by rw [Device.roundSteps, eq, ee]; unfold commandBound Device.qVal Device.eVal; omega)
  exact ⟨t, hrun, hend, hwork.i.trans hw.round, hwork.iv.trans hw.ivIs, hwork.y.trans hw.chain⟩

/-- ENC of a ready device (R180). -/
theorem runCommand_enc (h : CipherReady P s.dev) (h1 : 1 ≤ s.dev.nVal) (hn : x.length = s.dev.nVal)
    (ht : HoldsTweak P s.dev tw) (hd : HoldsDigits P s.dev .data x)
    (ha : s.env.Answers (feistelCalls s.dev.nVal s.dev.rVal s.dev.tVal)) :
    ∃ t, runCommand P Cmd.enc rd s = .next t ∧
      ResultEnd P Cmd.enc rd (feistelCalls s.dev.nVal s.dev.rVal s.dev.tVal) .data
        (ffxEnc (cipherOf P s.dev) tw s.dev.rVal x) s t ∧
      t.dev.i = 9 ∧ t.dev.iv = ivOf (cipherOf P s.dev) s.dev.nVal s.dev.rVal s.dev.tVal ∧
      t.dev.y = macOf (cipherOf P s.dev) tw s.dev.nVal s.dev.rVal 9
        ((ffxEnc (cipherOf P s.dev) tw s.dev.rVal x).take s.dev.uVal) t.dev.iv := by
  have hr := h.radix
  have hpos : 0 < s.dev.rVal := Nat.zero_lt_of_lt hr.1
  obtain ⟨e, hstart, hround, hk⟩ :=
    steps_start_enc rd h h1 hn hd (Env.answers_mono ha (by unfold feistelCalls; omega))
  obtain ⟨er, en, -, eq, ee, -⟩ := hk.derived_start
  have hE : cipherOf P e = cipherOf P s.dev := hk.cipher P
  have hten := steps_enc_ten (P := P) (s := s.after e 1) hk.cmd hround (hk.holdsTweak ht) (hn.trans en.symm)
    (by rw [State.after_dev, er]; exact hd.2) (by rw [State.after_dev, Device.RadixLegal, er]; exact hr)
    (State.answers_after (by rw [State.after_dev, eq, ee]; exact ha))
  rw [State.after_dev, hE, en, er] at hten
  have hab := (halvesOf_split hd.2).encRounds (cipherOf P s.dev) tw
    (ivOf (cipherOf P s.dev) s.dev.nVal s.dev.rVal s.dev.tVal) hpos 10
  rw [hn] at hab
  obtain ⟨t, hrun, hend, hi, hiv, hy⟩ := runCommand_of_ten_rounds h (.inl rfl) hstart hk hten hab
  have hsplit := splitHalves_ffxEnc (cipherOf P s.dev) tw s.dev.rVal (x := x) (by omega)
  have hcut := congrArg Prod.fst hsplit
  rw [splitHalves, (ffxEnc_keeps (cipherOf P s.dev) tw hpos hd.2).1, hn, ht.1] at hcut
  rw [hn, ht.1] at hsplit
  rw [← hsplit, splitHalves_append] at hend
  refine ⟨t, hrun, hend, hi, hiv, ?_⟩
  rw [hy, hiv]
  exact congrArg (macOf _ tw _ _ 9 · _) hcut.symm

/-- DEC of a ready device (R181). -/
theorem runCommand_dec (h : CipherReady P s.dev) (h1 : 1 ≤ s.dev.nVal) (hn : x.length = s.dev.nVal)
    (ht : HoldsTweak P s.dev tw) (hd : HoldsDigits P s.dev .data x)
    (ha : s.env.Answers (feistelCalls s.dev.nVal s.dev.rVal s.dev.tVal)) :
    ∃ t, runCommand P Cmd.dec rd s = .next t ∧
      ResultEnd P Cmd.dec rd (feistelCalls s.dev.nVal s.dev.rVal s.dev.tVal) .data
        (ffxDec (cipherOf P s.dev) tw s.dev.rVal x) s t ∧
      t.dev.i = 0 ∧ t.dev.iv = ivOf (cipherOf P s.dev) s.dev.nVal s.dev.rVal s.dev.tVal ∧
      t.dev.y = macOf (cipherOf P s.dev) tw s.dev.nVal s.dev.rVal 0
        ((ffxDec (cipherOf P s.dev) tw s.dev.rVal x).drop s.dev.uVal) t.dev.iv := by
  have hr := h.radix
  have hpos : 0 < s.dev.rVal := Nat.zero_lt_of_lt hr.1
  obtain ⟨e, hstart, hround, hk⟩ :=
    steps_start_dec rd h h1 hn hd (Env.answers_mono ha (by unfold feistelCalls; omega))
  obtain ⟨er, en, -, eq, ee, -⟩ := hk.derived_start
  have hE : cipherOf P e = cipherOf P s.dev := hk.cipher P
  have hten := steps_dec_ten (P := P) (s := s.after e 1) hk.cmd hround (hk.holdsTweak ht) (hn.trans en.symm)
    (by rw [State.after_dev, er]; exact hd.2) (by rw [State.after_dev, Device.RadixLegal, er]; exact hr)
    (State.answers_after (by rw [State.after_dev, eq, ee]; exact ha))
  rw [State.after_dev, hE, en, er] at hten
  have hab := (halvesOf_split hd.2).decRounds (cipherOf P s.dev) tw
    (ivOf (cipherOf P s.dev) s.dev.nVal s.dev.rVal s.dev.tVal) hpos 10
  rw [hn] at hab
  obtain ⟨t, hrun, hend, hi, hiv, hy⟩ := runCommand_of_ten_rounds h (.inr rfl) hstart hk hten hab
  have hffx := ffxDec_eq (cipherOf P s.dev) tw s.dev.rVal (x := x) (by omega)
  have hcut := drop_ffxDec (cipherOf P s.dev) tw s.dev.rVal (x := x) (by omega)
  rw [hn, ht.1] at hffx hcut
  rw [← hffx] at hend
  refine ⟨t, hrun, hend, hi, hiv, ?_⟩
  rw [hy, hiv]
  exact congrArg (macOf _ tw _ _ 0 · _) hcut.symm

end Feistel

/-- Settles O9: START, ten rounds of R186 and WRITEBACK; round 9's input half is written back first. -/
theorem encWritesFfxEnc : Obligations.EncWritesFfxEnc := by
  intro rd s tw x h h1 hn ht hd ha
  obtain ⟨t, hrun, hend, hi, hiv, hy⟩ := runCommand_enc (rd := rd) h h1 hn ht hd ha
  have hlen : (ffxEnc (cipherOf Config.params s.dev) tw s.dev.rVal x).length = s.dev.nVal :=
    (ffxEnc_keeps _ tw (Nat.zero_lt_of_lt h.radix.1) hd.2).1.trans hn
  exact ⟨t, hrun, hend.toSuccessEnd, hend.holds, hlen, hlen ▸ hend.rest, hend.others .opb (by decide), hi, hiv, hy⟩

/-- Settles O10: START, ten rounds of R186 and WRITEBACK; round 0's input half is written back last. -/
theorem decWritesFfxDec : Obligations.DecWritesFfxDec := by
  intro rd s tw x h h1 hn ht hd ha
  obtain ⟨t, hrun, hend, hi, hiv, hy⟩ := runCommand_dec (rd := rd) h h1 hn ht hd ha
  have hlen : (ffxDec (cipherOf Config.params s.dev) tw s.dev.rVal x).length = s.dev.nVal :=
    (ffxDec_keeps _ tw (Nat.zero_lt_of_lt h.radix.1) hd.2).1.trans hn
  exact ⟨t, hrun, hend.toSuccessEnd, hend.holds, hlen, hlen ▸ hend.rest, hend.others .opb (by decide), hi, hiv, hy⟩

/-! ### DEC after ENC (R188, R259) -/

section Kept
variable {P : Params} {d e : Device}

theorem KeepsOperands.derived (h : KeepsOperands d e) : e.rVal = d.rVal ∧ e.nVal = d.nVal ∧ e.tVal = d.tVal :=
  ⟨congrArg BitVec.toNat h.radix, congrArg BitVec.toNat h.len, congrArg BitVec.toNat h.tlen⟩

theorem KeepsOperands.cipher (P : Params) (h : KeepsOperands d e) : cipherOf P e = cipherOf P d := by
  rw [cipherOf, Device.keyBytes, h.key, h.keylen]
  rfl

/-- A ready command that has ended leaves the next one ready. -/
theorem CipherReady.of_keeps (h : CipherReady P d) (hk : KeepsOperands d e) (hi : e.Idle) : CipherReady P e := by
  obtain ⟨hr, hn, ht⟩ := hk.derived
  exact {
    idle := hi
    radix := by rw [Device.RadixLegal, hr]; exact h.radix
    len := hn.trans_le h.len
    key := by rw [Device.KeyLegal, hk.keylen]; exact h.key
    tlen := ht.trans_le h.tlen }

theorem HoldsTweak.of_keeps {tw : List Byte} (h : HoldsTweak P d tw) (hk : KeepsOperands d e) : HoldsTweak P e tw := by
  obtain ⟨-, -, ht⟩ := hk.derived
  rw [HoldsTweak, ht, memRead, Device.buf_tweak, hk.tweak]
  exact h

/-- Two buffers that hold the same digits read alike there. -/
theorem HoldsDigits.read_eq {b : Buf} {x : List Nat} (h : HoldsDigits P d b x) (g : HoldsDigits P e b x) {p : Nat}
    (hp : p < x.length) : Memory.read (e.buf b) p = Memory.read (d.buf b) p := by
  obtain ⟨-, hd⟩ := (Memory.readBytes_ok_iff ..).mp (memRead_ok h.1).2
  obtain ⟨-, he⟩ := (Memory.readBytes_ok_iff ..).mp (memRead_ok g.1).2
  have hlen : p < (digitBytes x).length := by rwa [length_digitBytes]
  rw [← Nat.zero_add p, hd p hlen, he p hlen]

end Kept

/-- Settles O30: ENC leaves DEC ready over FFX_ENC of the message, which FFX_DEC takes back; from n on neither
writes. -/
theorem decAfterEncRestoresData : Obligations.DecAfterEncRestoresData := by
  intro a b s tw x h hn ht hd ha
  by_cases h0 : s.dev.nVal = 0
  · obtain ⟨⟨t, hrun, hend, -, hbuf⟩, -⟩ := emptyMessageSucceedsAtOnce.1 a s h h0
    have hready := h.of_keeps hend.toKeepsOperands ⟨hend.phase, hend.port⟩
    obtain ⟨-, u, hrun', hend', -, hbuf'⟩ :=
      emptyMessageSucceedsAtOnce.1 b t hready (hend.toKeepsOperands.derived.2.1.trans h0)
    exact ⟨t, u, hrun, hend.done, hrun', hend'.done, fun p => by rw [hbuf'.data, hbuf.data],
      hbuf'.opb.trans hbuf.opb⟩
  · have h1 : 1 ≤ s.dev.nVal := Nat.one_le_iff_ne_zero.mpr h0
    obtain ⟨t, hrun, hend, hholds, hlen, hrest, hopb, -, -, -⟩ :=
      encWritesFfxEnc a s tw x h h1 hn ht hd (Env.answers_mono ha (by omega))
    obtain ⟨tr, tn, tt⟩ := hend.toKeepsOperands.derived
    have hE := hend.toKeepsOperands.cipher Config.params
    have hta : t.env.Answers (feistelCalls s.dev.nVal s.dev.rVal s.dev.tVal) := by
      rw [hend.env]
      exact State.answers_after (s := s) (d := t.dev) (by rwa [← Nat.two_mul])
    obtain ⟨u, hrun', hend', hholds', hlen', hrest', hopb', -, -, -⟩ :=
      decWritesFfxDec b t tw _ (h.of_keeps hend.toKeepsOperands ⟨hend.phase, hend.port⟩) (by rwa [tn]) (by rwa [tn])
        (ht.of_keeps hend.toKeepsOperands) hholds (by rwa [tr, tn, tt])
    rw [hE, tr, ffxDecInvertsFfxEnc _ tw s.dev.rVal x h.radix.1 hd.2] at hholds'
    rw [tn] at hrest'
    refine ⟨t, u, hrun, hend.done, hrun', hend'.done, fun p => ?_, hopb'.trans hopb⟩
    by_cases hp : p < s.dev.nVal
    · exact hd.read_eq hholds' (hn.symm ▸ hp)
    · exact hrest.trans hrest' p (by omega)

end Sys2Proof.Machine
end

section
/-! Two successful runs of a command from equal operands (42_feistel_controller R192). A run that succeeds has passed
CHECK, has read no byte without a value and has taken no failed answer; so the statement of its command's own effect
applies to it, and that effect is a function of the operands. -/
namespace Sys2Proof.Machine

/-! ### DONE is set by the last step of a command only (R179) -/

section Done
variable {P : Params} {d e : Device}

theorem checkPassed_done (d : Device) : (checkPassed d).phase = .idle ∨ (checkPassed d).done = d.done := by
  unfold checkPassed
  split
  · exact .inl rfl
  split
  · exact .inr rfl
  · exact .inr rfl

theorem hdrConsume_done (res : CipherResult) (d : Device) :
    (hdrConsume res d).phase = .idle ∨ (hdrConsume res d).done = d.done := by
  unfold hdrConsume
  split
  · exact .inr rfl
  split
  · exact .inl rfl
  · exact .inr rfl

theorem macConsume_done (res : CipherResult) (d : Device) : (macConsume res d).done = d.done := by
  unfold macConsume
  repeat' split
  all_goals rfl

theorem expandConsume_done (res : CipherResult) (d : Device) : (expandConsume res d).done = d.done := by
  unfold expandConsume
  repeat' split
  all_goals rfl

theorem loadStep_done (h : loadStep P d = .ok e) : e.done = d.done := by
  unfold loadStep loadEnc loadDec loadMadd loadMsub at h
  split_ifs at h
  · obtain ⟨a, b, -, -, rfl⟩ := loadSplit_ok h; rfl
  · obtain ⟨a, b, -, -, rfl⟩ := loadSplit_ok h; rfl
  · obtain ⟨b, -, rfl⟩ := loadPrf_ok h; rfl
  · obtain ⟨a, b, -, -, rfl⟩ := loadPair_ok h; rfl
  · obtain ⟨a, b, -, -, rfl⟩ := loadPair_ok h; rfl

theorem addStep_done (h : addStep d = .ok e) : e.done = d.done := by
  unfold addStep at h
  split_ifs at h
  · obtain ⟨a, -, rfl⟩ := addMadd_ok h; rfl
  · obtain ⟨c, -, rfl⟩ := addEnc_ok h
    split <;> rfl

theorem subStep_done (h : subStep d = .ok e) : e.done = d.done := by
  unfold subStep at h
  split_ifs at h
  · obtain ⟨a, -, rfl⟩ := subMsub_ok h; rfl
  · obtain ⟨c, -, rfl⟩ := subDec_ok h
    split <;> rfl

/-- A step that does not end the command leaves DONE alone. -/
theorem ctlStep_done (h : ctlStep P d = .ok e) : e.phase = .idle ∨ e.done = d.done := by
  obtain rfl | ⟨-, -, h⟩ | ⟨-, -, h⟩ | ⟨-, -, rfl⟩ | ⟨-, res, -, rfl⟩ | ⟨-, -, h⟩ | ⟨-, res, -, rfl⟩ | ⟨-, -, rfl⟩ |
    ⟨-, res, -, rfl⟩ | ⟨-, -, h⟩ | ⟨-, -, h⟩ | ⟨-, -, h⟩ | ⟨-, -, h⟩ := ctlStep_cases h
  · exact .inr rfl
  · obtain ⟨c, -, rfl⟩ | ⟨-, x, -, rfl⟩ | ⟨-, -, rfl⟩ := checkStep_ok h
    · exact .inl rfl
    · exact .inl rfl
    · exact checkPassed_done d
  · exact .inr (loadStep_done h)
  · exact .inr rfl
  · exact hdrConsume_done res d
  · obtain ⟨s, -, rfl⟩ := macIssue_ok h; exact .inr rfl
  · exact .inr (macConsume_done res d)
  · exact .inr rfl
  · exact .inr (expandConsume_done res d)
  · obtain ⟨f, -, rfl⟩ := reduceStep_ok h; exact .inr rfl
  · exact .inr (addStep_done h)
  · exact .inr (subStep_done h)
  · obtain ⟨-, v, -, rfl⟩ | ⟨-, v, -, rfl⟩ := writebackStep_ok h <;> exact .inl rfl

/-- Fail ends the command without DONE, in every phase that has a step for it (R222, R224). -/
theorem ctlStep_fail (hb : d.phase ≠ .idle) (hp : d.port = .rsp .fail) (h : ctlStep P d = .ok e) :
    e.phase = .idle ∧ e.done = d.done := by
  cases hph : d.phase with
  | idle => exact absurd hph hb
  | hdr => rw [ctlStep_hdr_rsp hph hp] at h; cases h; exact ⟨rfl, rfl⟩
  | mac => rw [ctlStep_mac_rsp hph hp] at h; cases h; exact ⟨rfl, rfl⟩
  | expand => rw [ctlStep_expand_rsp hph hp] at h; cases h; exact ⟨rfl, rfl⟩
  | check | load | reduce | add | sub | writeback => simp [ctlStep, hph, hp] at h

end Done

/-! ### A run that succeeds takes no failed answer -/

/-- s with the engine's draws used up, so that it answers Ok from here on. -/
def State.withoutDraws (s : State) : State := { s with env := { s.env with engine := [] } }

@[simp] theorem State.withoutDraws_dev (s : State) : s.withoutDraws.dev = s.dev := rfl

theorem State.withoutDraws_answers (s : State) (c : Nat) : s.withoutDraws.env.Answers c := by
  simp [Env.Answers, State.withoutDraws]

section Draws
variable {P : Params} {n : Nat} {s t : State}

theorem Steps.eq_of_idle (h : Steps P n s t) (hi : s.dev.phase = .idle) : t = s := by
  cases h with
  | refl => rfl
  | step hb => exact absurd hi (Device.busy_iff.mp hb)

theorem Steps.not_done_of_fail (h : Steps P n s t) (hp : s.dev.port = .rsp .fail) (hd : s.dev.done = false) :
    t.dev.done = false := by
  cases h with
  | refl => exact hd
  | step hb ha hs =>
    obtain ⟨hw, -⟩ | ⟨-, e, he, rfl⟩ := advance_cases ha
    · obtain ⟨key, x, hreq⟩ := Device.waiting_iff.mp hw
      rw [hp] at hreq
      cases hreq
    · obtain ⟨hidle, hdone⟩ := ctlStep_fail (Device.busy_iff.mp hb) hp he
      rw [hs.eq_of_idle hidle]
      exact hdone.trans hd

/-- The engine's answer is Fail, or the one it gives with no draws left. -/
theorem advance_waiting (hw : s.dev.waiting = true) (h : advance P s = .ok t) :
    t.dev.port = .rsp .fail ∧ t.dev.done = s.dev.done ∨ advance P s.withoutDraws = .ok t.withoutDraws := by
  obtain ⟨-, rfl⟩ | ⟨hw', -⟩ := advance_cases h
  · obtain ⟨key, x, hp⟩ := Device.waiting_iff.mp hw
    cases hdraw : s.env.nextDraw with
    | fail =>
      refine .inl ?_
      rw [Device.serve_fail hp]
      exact ⟨rfl, rfl⟩
    | ok =>
      refine .inr ?_
      rw [advance, State.withoutDraws_dev, if_pos hw, engineMove, State.withoutDraws_dev, if_pos hw]
      rfl
  · rw [hw] at hw'
    cases hw'

/-- A run to DONE takes the same steps with every draw Ok. -/
theorem Steps.withoutDraws (h : Steps P n s t) (hs : s.dev.busy = true → s.dev.done = false)
    (ht : t.dev.done = true) : Steps P n s.withoutDraws t.withoutDraws := by
  induction h with
  | refl s => exact .refl _
  | @step n s u t hb ha hsteps ih =>
    have hdone := hs hb
    cases hw : s.dev.waiting with
    | true =>
      obtain ⟨hfail, hkeep⟩ | hok := advance_waiting hw ha
      · rw [hsteps.not_done_of_fail hfail (hkeep.trans hdone)] at ht
        cases ht
      · obtain ⟨-, rfl⟩ | ⟨hw', -⟩ := advance_cases ha
        · obtain ⟨p, hp⟩ := serve_eq P s.env.nextDraw s.dev
          exact .step hb hok (ih (fun _ => by rw [hp]; exact hdone) ht)
        · rw [hw] at hw'
          cases hw'
    | false =>
      obtain ⟨hw', -⟩ | ⟨-, e, he, rfl⟩ := advance_cases ha
      · rw [hw] at hw'
        cases hw'
      · have hok : advance P s.withoutDraws = .ok (State.withoutDraws { s with dev := e }) := by
          rw [advance, State.withoutDraws_dev, hw, if_neg (by decide),
            controllerMove_of_ctlStep (s := s.withoutDraws) he]
          rfl
        refine .step hb hok (ih (fun hbe => ?_) ht)
        exact ((ctlStep_done he).resolve_left (Device.busy_iff.mp hbe)).trans hdone

/-- A command does not start on a port in use (R170): CHECK has no step there. -/
theorem Steps.port_free (h : Steps P n s t) (hc : s.dev.phase = .check) (ht : t.dev.busy = false) :
    s.dev.port = .free := by
  have hstuck {n : Nat} {u : State} (hu : Steps P n u t) (hc : u.dev.phase = .check) {res : CipherResult} :
      u.dev.port ≠ .rsp res := by
    intro hp
    have herr : ctlStep P u.dev = .error .stuck := by simp [ctlStep, hc, hp]
    cases hu with
    | refl => exact absurd hc (by rw [Device.busy_false_iff.mp ht]; decide)
    | step _ ha _ =>
      obtain ⟨hw, -⟩ | ⟨-, e, he, -⟩ := advance_cases ha
      · simp [Device.waiting, hp] at hw
      · rw [herr] at he
        cases he
  cases hp : s.dev.port with
  | free => rfl
  | rsp res => exact absurd hp (hstuck h hc)
  | req key x =>
    cases h with
    | refl => exact absurd hc (by rw [Device.busy_false_iff.mp ht]; decide)
    | step _ ha hs =>
      obtain ⟨-, rfl⟩ | ⟨hw, -⟩ := advance_cases ha
      · have hserve : (s.dev.serve P s.env.nextDraw).phase = .check ∧
            ∃ res, (s.dev.serve P s.env.nextDraw).port = .rsp res := by
          rw [Device.serve, hp]
          exact ⟨hc, _, rfl⟩
        obtain ⟨hcheck, res, hrsp⟩ := hserve
        exact absurd hrsp (hstuck hs hcheck)
      · simp [Device.waiting, hp] at hw

end Draws

/-! ### What a successful command has passed (R221, R50) -/

/-- Command i, started in s while idle, has ended in t with DONE. -/
structure Succeeds (i : Instr) (s t : State) : Prop where
  idle : s.dev.phase = .idle
  run : runCommand Config.params i.cmd i.round s = .next t
  done : t.dev.done = true

section Succeeds
variable {i : Instr} {s t : State}

theorem Succeeds.start_idle (h : Succeeds i s t) : s.dev.Idle := by
  obtain ⟨ht, n, -, hs⟩ := runCommand_next (Device.busy_false_iff.mpr h.idle) h.run
  exact ⟨h.idle, hs.port_free rfl ht⟩

/-- An error of CHECK would have left DONE clear. -/
theorem Succeeds.checked (h : Succeeds i s t) :
    registerError Config.params (s.dev.start i.cmd i.round) = none ∧
      symbolScan Config.params (s.dev.start i.cmd i.round) = .ok none := by
  have hi := h.start_idle
  have hrun := h.run
  have hdone := h.done
  cases hr : registerError Config.params (s.dev.start i.cmd i.round) with
  | some code =>
    rw [runCommand_of_registerError hi hr] at hrun
    cases hrun
    cases hdone
  | none =>
    refine ⟨rfl, ?_⟩
    cases hs : symbolScan Config.params (s.dev.start i.cmd i.round) with
    | error f =>
      rw [runCommand_fault_of_scan hi hr hs] at hrun
      cases hrun
    | ok found =>
      cases found with
      | none => rfl
      | some info =>
        rw [runCommand_of_check hi (by rw [checkStep, hr, hs]) rfl] at hrun
        cases hrun
        cases hdone

theorem Succeeds.registers (h : Succeeds i s t) : RegistersPass Config.params (s.dev.start i.cmd i.round) :=
  registersPass_of_registerError h.checked.1

/-- The same run with every draw Ok. -/
theorem Succeeds.run_withoutDraws (h : Succeeds i s t) :
    runCommand Config.params i.cmd i.round s.withoutDraws = .next t.withoutDraws := by
  obtain ⟨ht, n, hn, hs⟩ := runCommand_next (Device.busy_false_iff.mpr h.idle) h.run
  exact runCommand_of_steps (Device.busy_false_iff.mpr h.idle) (hs.withoutDraws (fun _ => rfl) h.done) ht hn

/-- Where the command is known to end with every draw Ok, it has ended. -/
theorem Succeeds.dev_eq (h : Succeeds i s t) {u : State}
    (hu : runCommand Config.params i.cmd i.round s.withoutDraws = .next u) : t.dev = u.dev := by
  rw [h.run_withoutDraws] at hu
  cases hu
  rfl

/-- A passed scan has found digits. -/
theorem holdsDigits_of_scan {P : Params} {d : Device} {b : Buf} {n : Nat} (hn : n ≤ Params.size P b)
    (hs : scanBuf P d b n = .ok none) : ∃ x : List Nat, x.length = n ∧ HoldsDigits P d b x := by
  obtain ⟨vs, hvs⟩ := Memory.readBytes_written (bf := b) (m := d.buf b) (a := 0) (n := n) fun q hq => by
    obtain ⟨c, hc, -⟩ := (scanBuf_none_iff hn).mp hs q (by omega)
    exact ⟨c, hc⟩
  have hm : memRead P d b 0 n = .ok vs := (if_pos (by omega)).trans hvs
  have hlen := length_of_memRead hm
  have hback : digitBytes (digitsOf vs) = vs := by simp [digitBytes, digitsOf, Function.comp_def]
  exact ⟨digitsOf vs, hlen, by rw [hlen, hback]; exact hm, digits_lt_of_scan hn hs hm (by omega)⟩

/-- The operands of a command with rounds: ready registers, a tweak, l digits in DATA. -/
structure RoundReady (l : Nat) (d : Device) (tw : List Byte) (x : List Nat) : Prop where
  ready : CipherReady Config.params d
  tweak : HoldsTweak Config.params d tw
  data : HoldsDigits Config.params d .data x
  length : x.length = l

/-- How many bytes of DATA a command reads (R173). -/
def dataLength (i : Instr) (d : Device) : Nat := if i.cmd = Cmd.prf then wOf d.nVal i.round.toNat else d.nVal

theorem Succeeds.holdsData (h : Succeeds i s t) (hc : i.cmd = Cmd.enc ∨ i.cmd = Cmd.dec ∨ i.cmd = Cmd.prf) :
    ∃ x : List Nat, x.length = dataLength i s.dev ∧ HoldsDigits Config.params s.dev .data x := by
  have hscan := h.checked.2
  have hn : s.dev.nVal ≤ Params.size Config.params .data := h.registers.len
  unfold dataLength
  by_cases hp : i.cmd = Cmd.prf
  · rw [if_pos hp]
    rw [symbolScan_of_prf (by exact hp)] at hscan
    exact holdsDigits_of_scan (d := s.dev.start i.cmd i.round) ((Device.wVal_le (s.dev.start i.cmd i.round)).trans hn)
      hscan
  · rw [if_neg hp]
    rw [symbolScan_of_feistel (hc.imp_right fun h => h.resolve_right hp)] at hscan
    exact holdsDigits_of_scan (d := s.dev.start i.cmd i.round) hn hscan

/-- A successful command with rounds has read the whole tweak. -/
theorem Succeeds.tweak_written (h : Succeeds i s t) (hc : i.cmd = Cmd.enc ∨ i.cmd = Cmd.dec ∨ i.cmd = Cmd.prf)
    (h1 : 1 ≤ s.dev.nVal) {p : Nat} (hp : p < s.dev.tVal) : ∃ v, Memory.read s.dev.tweak p = some v := by
  obtain ⟨x, hx, hd⟩ := h.holdsData hc
  induction p using Nat.strong_induction_on with
  | _ p ih =>
    cases hread : Memory.read s.dev.tweak p with
    | some v => exact ⟨v, rfl⟩
    | none =>
      have hfault := unwrittenOperandByteFaults.2.2 i s.withoutDraws x p h.start_idle h.checked.1 hc h1 hx hd hp
        (fun a ha => ih a ha (ha.trans hp)) hread (s.withoutDraws_answers _)
      rw [exec_eq_runCommand, h.run_withoutDraws] at hfault
      cases hfault

theorem Succeeds.roundReady (h : Succeeds i s t) (hc : i.cmd = Cmd.enc ∨ i.cmd = Cmd.dec ∨ i.cmd = Cmd.prf)
    (h1 : 1 ≤ s.dev.nVal) : ∃ tw x, RoundReady (dataLength i s.dev) s.dev tw x := by
  obtain ⟨x, hx, hd⟩ := h.holdsData hc
  have hready : CipherReady Config.params s.dev := cipherReady_of_registersPass h.start_idle h.registers
    (by rcases hc with hc | hc | hc <;> rw [hc] <;> decide)
  obtain ⟨tw, htw⟩ := Memory.readBytes_written (bf := .tweak) (m := s.dev.tweak) (a := 0) (n := s.dev.tVal)
    fun q hq => h.tweak_written hc h1 (by omega)
  have hlen := ((Memory.readBytes_ok_iff ..).mp htw).1
  have hsize : 0 + s.dev.tVal ≤ Params.size Config.params .tweak := by
    rw [Nat.zero_add]
    exact hready.tlen
  exact ⟨tw, x, hready, ⟨hlen, by rw [hlen]; exact (if_pos hsize).trans htw⟩, hd, hx⟩

end Succeeds

/-! ### Equal operands (R82) -/

/-- Two devices that agree on the operands command i reads. -/
structure SameOperands (i : Instr) (d d' : Device) : Prop where
  radix : d.radix = d'.radix
  len : d.len = d'.len
  key : usesCipher i.cmd = true → d.keyBytes = d'.keyBytes ∧ d.tlen = d'.tlen
  tweak : i.cmd = Cmd.enc ∨ i.cmd = Cmd.dec ∨ i.cmd = Cmd.prf →
    ∀ a, a < d.tVal → Memory.read d.tweak a = Memory.read d'.tweak a
  data : i.cmd ≠ Cmd.ivgen → ∀ a, a < dataLength i d → Memory.read d.data a = Memory.read d'.data a
  opb : (i.cmd = Cmd.madd ∨ i.cmd = Cmd.msub) → ∀ a, a < d.nVal → Memory.read d.opb a = Memory.read d'.opb a

section Same
variable {P : Params} {i : Instr} {d d' : Device} {tw : List Byte} {x : List Nat}

theorem SameOperands.rVal (h : SameOperands i d d') : d'.rVal = d.rVal := congrArg BitVec.toNat h.radix.symm

theorem SameOperands.nVal (h : SameOperands i d d') : d'.nVal = d.nVal := congrArg BitVec.toNat h.len.symm

theorem SameOperands.cipher (h : SameOperands i d d') (hc : usesCipher i.cmd = true) :
    cipherOf P d' = cipherOf P d ∧ d'.tVal = d.tVal := by
  obtain ⟨hk, ht⟩ := h.key hc
  exact ⟨congrArg P.ciph hk.symm, congrArg BitVec.toNat ht.symm⟩

theorem memRead_of_read_eq {b : Buf} {n : Nat} {vs : List Byte} (h : memRead P d b 0 n = .ok vs)
    (hb : ∀ a, a < n → Memory.read (d.buf b) a = Memory.read (d'.buf b) a) : memRead P d' b 0 n = .ok vs := by
  obtain ⟨hn, hr⟩ := memRead_ok h
  obtain ⟨hl, hv⟩ := (Memory.readBytes_ok_iff ..).mp hr
  refine (if_pos hn).trans ((Memory.readBytes_ok_iff ..).mpr ⟨hl, fun c hc => ?_⟩)
  rw [← hv c hc, hb _ (by omega)]

theorem HoldsDigits.of_read_eq {b : Buf} (h : HoldsDigits P d b x) (hr : d'.rVal = d.rVal)
    (hb : ∀ a, a < x.length → Memory.read (d.buf b) a = Memory.read (d'.buf b) a) : HoldsDigits P d' b x :=
  ⟨memRead_of_read_eq h.1 hb, by rw [hr]; exact h.2⟩

theorem usesCipher_of_round (hc : i.cmd = Cmd.enc ∨ i.cmd = Cmd.dec ∨ i.cmd = Cmd.prf) : usesCipher i.cmd = true := by
  rcases hc with hc | hc | hc <;> rw [hc] <;> decide

theorem RoundReady.of_same (h : RoundReady (dataLength i d) d tw x) (hs : SameOperands i d d')
    (hc : i.cmd = Cmd.enc ∨ i.cmd = Cmd.dec ∨ i.cmd = Cmd.prf) (hready : CipherReady Config.params d') :
    RoundReady (dataLength i d') d' tw x where
  ready := hready
  tweak := by
    obtain ⟨hl, hm⟩ := h.tweak
    obtain ⟨-, ht⟩ := hs.cipher (P := Config.params) (usesCipher_of_round hc)
    exact ⟨hl.trans ht.symm, memRead_of_read_eq hm fun a ha => hs.tweak hc a (hl ▸ ha)⟩
  data := h.data.of_read_eq hs.rVal fun a ha =>
    hs.data (by rcases hc with hc | hc | hc <;> rw [hc] <;> decide) a (h.length ▸ ha)
  length := by rw [h.length, dataLength, dataLength, hs.nVal]

end Same

/-! ### ENC, DEC and PRF: the results as functions of the operands -/

/-- The results of a command with rounds (R82): the digits written, RIDX, IVR, YR and CIPHCNT. -/
structure RoundOutput where
  digits : List Nat
  round : BitVec 4
  iv : Block
  y : Block
  calls : Nat

/-- The results of ENC (R180), DEC (R181) and PRF (R182) over their operands. -/
def roundOutput (i : Instr) (E : Block → Block) (tw : List Byte) (n r t : Nat) (x : List Nat) : RoundOutput :=
  let iv := ivOf E n r t
  if i.cmd = Cmd.prf then
    ⟨roundFn E tw n r i.round.toNat x iv, i.round, iv, macOf E tw n r i.round.toNat x iv, prfCalls n r t⟩
  else if i.cmd = Cmd.dec then
    ⟨ffxDec E tw r x, 0, iv, macOf E tw n r 0 ((ffxDec E tw r x).drop (uOf n)) iv, feistelCalls n r t⟩
  else ⟨ffxEnc E tw r x, 9, iv, macOf E tw n r 9 ((ffxEnc E tw r x).take (uOf n)) iv, feistelCalls n r t⟩

/-- The buffer a command writes its result to (R178). -/
def resultBuf (i : Instr) : Buf := if i.cmd = Cmd.prf then .opb else .data

/-- How many digits a command with rounds writes there (R178). -/
def resultLength (i : Instr) (n : Nat) : Nat := if i.cmd = Cmd.prf then mOf n i.round.toNat else n

/-- e holds the results o, its digits in buffer b. -/
structure Leaves (b : Buf) (o : RoundOutput) (e : Device) : Prop where
  digits : HoldsDigits Config.params e b o.digits
  round : e.i = o.round
  iv : e.iv = o.iv
  y : e.y = o.y
  calls : e.ciphcnt = BitVec.ofNat 32 o.calls

section RoundResult
variable {i : Instr} {s t : State} {tw : List Byte} {x : List Nat}

/-- The one result of a successful command with rounds, and its length. -/
theorem Succeeds.leaves (h : Succeeds i s t) (hc : i.cmd = Cmd.enc ∨ i.cmd = Cmd.dec ∨ i.cmd = Cmd.prf)
    (h1 : 1 ≤ s.dev.nVal) (hr : RoundReady (dataLength i s.dev) s.dev tw x) :
    let o := roundOutput i (cipherOf Config.params s.dev) tw s.dev.nVal s.dev.rVal s.dev.tVal x
    Leaves (resultBuf i) o t.dev ∧ o.digits.length = resultLength i s.dev.nVal := by
  have hpos : 0 < s.dev.rVal := Nat.zero_lt_of_lt hr.ready.radix.1
  have hlen := hr.length
  have hregs := h.registers
  have hrun := @h.dev_eq
  unfold roundOutput resultBuf resultLength
  unfold dataLength at hlen
  obtain hc | hc | hc := hc
  · rw [if_neg (by rw [hc]; decide)] at hlen
    rw [hc] at hrun ⊢
    obtain ⟨u, hu, hend, hi, hiv, hy⟩ := runCommand_enc (s := s.withoutDraws) (rd := i.round) hr.ready h1 hlen hr.tweak
      hr.data (s.withoutDraws_answers _)
    rw [hiv] at hy
    rw [hrun hu]
    exact ⟨⟨hend.holds, hi, hiv, hy, hend.ciphcnt⟩, (ffxEnc_keeps _ tw hpos hr.data.2).1.trans hlen⟩
  · rw [if_neg (by rw [hc]; decide)] at hlen
    rw [hc] at hrun ⊢
    obtain ⟨u, hu, hend, hi, hiv, hy⟩ := runCommand_dec (s := s.withoutDraws) (rd := i.round) hr.ready h1 hlen hr.tweak
      hr.data (s.withoutDraws_answers _)
    rw [hiv] at hy
    rw [hrun hu]
    exact ⟨⟨hend.holds, hi, hiv, hy, hend.ciphcnt⟩, (ffxDec_keeps _ tw hpos hr.data.2).1.trans hlen⟩
  · rw [if_pos hc] at hlen
    rw [hc] at hrun ⊢
    obtain ⟨u, hu, hiv, hend, hi, hy⟩ := runCommand_prf (s := s.withoutDraws) (rd := i.round) hr.ready h1
      (hregs.prfRound hc) hlen hr.tweak hr.data (s.withoutDraws_answers _)
    rw [hiv] at hend hy
    rw [hrun hu]
    exact ⟨⟨hend.holds, hi, hiv, hy, hend.ciphcnt⟩, length_str ..⟩

end RoundResult

/-! ### The other commands -/

section Others
variable {i : Instr} {s t : State} {x z : List Nat}

/-- Over no digits no cipher call is made (R265). -/
theorem Succeeds.empty_ciphcnt (h : Succeeds i s t) (hn : s.dev.nVal = 0)
    (hc : i.cmd = Cmd.enc ∨ i.cmd = Cmd.dec ∨ i.cmd = Cmd.madd ∨ i.cmd = Cmd.msub) : t.dev.ciphcnt = 0 := by
  obtain ⟨u, hu, hend, -⟩ := runCommand_empty (s := s.withoutDraws) h.start_idle h.checked.1 hn hc
  rw [h.dev_eq hu]
  exact hend.ciphcnt

/-- IVGEN leaves Ciph(K, P) after one call (R185). -/
theorem Succeeds.ivgen (h : Succeeds i s t) (hc : i.cmd = Cmd.ivgen) :
    t.dev.iv = ivOf (cipherOf Config.params s.dev) s.dev.nVal s.dev.rVal s.dev.tVal ∧ t.dev.ciphcnt = 1 := by
  have hready : CipherReady Config.params s.dev :=
    cipherReady_of_registersPass h.start_idle h.registers (by rw [hc]; decide)
  obtain ⟨u, hu, hend, -, hiv, -⟩ :=
    runCommand_ivgen (s := s.withoutDraws) (rd := i.round) hready (s.withoutDraws_answers 1)
  rw [h.dev_eq (by rw [hc]; exact hu)]
  exact ⟨hiv, hend.ciphcnt⟩

/-- A successful MADD or MSUB has found digits in DATA and OPB. -/
theorem Succeeds.holdsPair (h : Succeeds i s t) (hc : i.cmd = Cmd.madd ∨ i.cmd = Cmd.msub) :
    ∃ x z : List Nat, x.length = s.dev.nVal ∧ z.length = s.dev.nVal ∧ HoldsDigits Config.params s.dev .data x ∧
      HoldsDigits Config.params s.dev .opb z := by
  obtain ⟨hdata, hopb⟩ := symbolScan_of_pair (d := s.dev.start i.cmd i.round) hc h.checked.2
  obtain ⟨x, hx, hdx⟩ := holdsDigits_of_scan h.registers.len hdata
  obtain ⟨z, hz, hdz⟩ := holdsDigits_of_scan h.registers.len hopb
  exact ⟨x, z, hx, hz, hdx, hdz⟩

/-- The result of MADD (R183) or MSUB (R184) over its operands. -/
def pairOutput (i : Instr) (r n : Nat) (x z : List Nat) : List Nat :=
  if i.cmd = Cmd.madd then radd r n x z else rsub r n x z

theorem length_pairOutput (i : Instr) (r n : Nat) (x z : List Nat) : (pairOutput i r n x z).length = n := by
  unfold pairOutput
  split
  · exact length_radd ..
  · exact length_rsub ..

theorem Succeeds.pair (h : Succeeds i s t) (hc : i.cmd = Cmd.madd ∨ i.cmd = Cmd.msub) (h1 : 1 ≤ s.dev.nVal)
    (hnx : x.length = s.dev.nVal) (hnz : z.length = s.dev.nVal) (hx : HoldsDigits Config.params s.dev .data x)
    (hz : HoldsDigits Config.params s.dev .opb z) :
    HoldsDigits Config.params t.dev .data (pairOutput i s.dev.rVal s.dev.nVal x z) ∧ t.dev.ciphcnt = 0 := by
  have hready : RadixReady Config.params s.dev := ⟨h.start_idle, h.registers.radix, h.registers.len⟩
  unfold pairOutput
  obtain hc | hc := hc
  · obtain ⟨u, hu, hend, -⟩ := runCommand_madd (s := s.withoutDraws) (rd := i.round) hready h1 hnx hnz hx hz
    rw [h.dev_eq (by rw [hc]; exact hu), if_pos hc]
    exact ⟨hend.holds, hend.ciphcnt⟩
  · obtain ⟨u, hu, hend, -⟩ := runCommand_msub (s := s.withoutDraws) (rd := i.round) hready h1 hnx hnz hx hz
    rw [h.dev_eq (by rw [hc]; exact hu), if_neg (by rw [hc]; decide)]
    exact ⟨hend.holds, hend.ciphcnt⟩

end Others

/-! ### Two runs (R192) -/

section Two
variable {i : Instr} {s s' t t' : State}

/-- Two successful runs of a command with rounds leave the same results. -/
theorem round_results_eq (h : Succeeds i s t) (h' : Succeeds i s' t') (hs : SameOperands i s.dev s'.dev)
    (hc : i.cmd = Cmd.enc ∨ i.cmd = Cmd.dec ∨ i.cmd = Cmd.prf) (h1 : 1 ≤ s.dev.nVal) :
    (∀ a, a < resultLength i s.dev.nVal →
      Memory.read (t.dev.buf (resultBuf i)) a = Memory.read (t'.dev.buf (resultBuf i)) a) ∧
      (t.dev.iv = t'.dev.iv ∧ t.dev.y = t'.dev.y ∧ t.dev.i = t'.dev.i) ∧ t.dev.ciphcnt = t'.dev.ciphcnt := by
  have h1' : 1 ≤ s'.dev.nVal := h1.trans_eq hs.nVal.symm
  obtain ⟨tw, x, hr⟩ := h.roundReady hc h1
  obtain ⟨-, -, hready', -⟩ := h'.roundReady hc h1'
  obtain ⟨hE, ht⟩ := hs.cipher (P := Config.params) (usesCipher_of_round hc)
  obtain ⟨hl, hlen⟩ := h.leaves hc h1 hr
  obtain ⟨hl', -⟩ := h'.leaves hc h1' (hr.of_same hs hc hready')
  rw [hE, hs.nVal, hs.rVal, ht] at hl'
  exact ⟨fun a ha => (hl.digits.read_eq hl'.digits (hlen ▸ ha)).symm,
    ⟨hl.iv.trans hl'.iv.symm, hl.y.trans hl'.y.symm, hl.round.trans hl'.round.symm⟩, hl.calls.trans hl'.calls.symm⟩

/-- Two successful runs of MADD, or of MSUB, leave the same digits. -/
theorem pair_results_eq (h : Succeeds i s t) (h' : Succeeds i s' t') (hs : SameOperands i s.dev s'.dev)
    (hc : i.cmd = Cmd.madd ∨ i.cmd = Cmd.msub) (h1 : 1 ≤ s.dev.nVal) :
    (∀ a, a < s.dev.nVal → Memory.read t.dev.data a = Memory.read t'.dev.data a) ∧
      t.dev.ciphcnt = t'.dev.ciphcnt := by
  obtain ⟨x, z, hnx, hnz, hx, hz⟩ := h.holdsPair hc
  have hlen : dataLength i s.dev = s.dev.nVal := if_neg (by rcases hc with hc | hc <;> rw [hc] <;> decide)
  have hx' := hx.of_read_eq hs.rVal fun a ha =>
    hs.data (by rcases hc with hc | hc <;> rw [hc] <;> decide) a (by rw [hlen, ← hnx]; exact ha)
  have hz' := hz.of_read_eq hs.rVal fun a ha => hs.opb hc a (hnz ▸ ha)
  obtain ⟨hd, hcount⟩ := h.pair hc h1 hnx hnz hx hz
  obtain ⟨hd', hcount'⟩ :=
    h'.pair hc (h1.trans_eq hs.nVal.symm) (hnx.trans hs.nVal.symm) (hnz.trans hs.nVal.symm) hx' hz'
  rw [hs.rVal, hs.nVal] at hd'
  exact ⟨fun a ha => (hd.read_eq hd' (by rw [length_pairOutput]; exact ha)).symm, hcount.trans hcount'.symm⟩

/-- Two successful runs of IVGEN leave the same IV. -/
theorem ivgen_results_eq (h : Succeeds i s t) (h' : Succeeds i s' t') (hs : SameOperands i s.dev s'.dev)
    (hc : i.cmd = Cmd.ivgen) : t.dev.iv = t'.dev.iv ∧ t.dev.ciphcnt = t'.dev.ciphcnt := by
  obtain ⟨hE, ht⟩ := hs.cipher (P := Config.params) (by rw [hc]; decide)
  obtain ⟨hiv, hcount⟩ := h.ivgen hc
  obtain ⟨hiv', hcount'⟩ := h'.ivgen hc
  rw [hE, hs.nVal, hs.rVal, ht] at hiv'
  exact ⟨hiv.trans hiv'.symm, hcount.trans hcount'.symm⟩

/-- Two successful runs of a command count the same cipher calls. -/
theorem ciphcnt_eq (h : Succeeds i s t) (h' : Succeeds i s' t') (hs : SameOperands i s.dev s'.dev) :
    t.dev.ciphcnt = t'.dev.ciphcnt := by
  have hempty (hc : i.cmd = Cmd.enc ∨ i.cmd = Cmd.dec ∨ i.cmd = Cmd.madd ∨ i.cmd = Cmd.msub) (hn : s.dev.nVal = 0) :
      t.dev.ciphcnt = t'.dev.ciphcnt :=
    (h.empty_ciphcnt hn hc).trans (h'.empty_ciphcnt (hs.nVal.trans hn) hc).symm
  have hn : s.dev.nVal = 0 ∨ 1 ≤ s.dev.nVal := Nat.eq_zero_or_pos _
  obtain hc | hc | hc | hc | hc | hc : i.cmd = _ ∨ i.cmd = _ ∨ i.cmd = _ ∨ i.cmd = _ ∨ i.cmd = _ ∨ i.cmd = _ :=
    isCommand_cases h.registers.command
  · exact hn.elim (hempty (by simp [hc])) fun h1 => (round_results_eq h h' hs (by simp [hc]) h1).2.2
  · exact hn.elim (hempty (by simp [hc])) fun h1 => (round_results_eq h h' hs (by simp [hc]) h1).2.2
  · exact hn.elim (fun h0 => absurd h0 (h.registers.prfLen hc)) fun h1 =>
      (round_results_eq h h' hs (by simp [hc]) h1).2.2
  · exact hn.elim (hempty (by simp [hc])) fun h1 => (pair_results_eq h h' hs (.inl hc) h1).2
  · exact hn.elim (hempty (by simp [hc])) fun h1 => (pair_results_eq h h' hs (.inr hc) h1).2
  · exact (ivgen_results_eq h h' hs hc).2

end Two

/-- Settles O29: a run that succeeds takes no failed answer and meets the conditions of its command's own statement,
whose results are functions of the operands. -/
theorem resultsDependOnlyOnOperands : Obligations.ResultsDependOnlyOnOperands := by
  intro i s s' t t' hi hi' h h' hd hd' hradix hlen hkey htweak hdata hopb
  rw [exec_eq_runCommand] at h h'
  have hok : Succeeds i s t := ⟨hi, h, hd⟩
  have hok' : Succeeds i s' t' := ⟨hi', h', hd'⟩
  have hs : SameOperands i s.dev s'.dev := ⟨hradix, hlen, hkey, htweak, hdata, hopb⟩
  refine ⟨fun hc a ha => ?_, fun hc a ha => ?_, fun hc h1 => (round_results_eq hok hok' hs hc h1).2.1,
    fun hc => (ivgen_results_eq hok hok' hs hc).1, ciphcnt_eq hok hok' hs⟩
  · have h1 : 1 ≤ s.dev.nVal := Nat.one_le_of_lt ha
    have hround (hc : i.cmd = Cmd.enc ∨ i.cmd = Cmd.dec ∨ i.cmd = Cmd.prf) (hprf : i.cmd ≠ Cmd.prf) :
        Memory.read t.dev.data a = Memory.read t'.dev.data a := by
      have hread := (round_results_eq hok hok' hs hc h1).1
      rw [resultLength, resultBuf, if_neg hprf, if_neg hprf] at hread
      exact hread a ha
    obtain hc | hc | hc | hc := hc
    · exact hround (.inl hc) (by rw [hc]; decide)
    · exact hround (.inr (.inl hc)) (by rw [hc]; decide)
    · exact (pair_results_eq hok hok' hs (.inl hc) h1).1 a ha
    · exact (pair_results_eq hok hok' hs (.inr hc) h1).1 a ha
  · have hn := mOf_le s.dev.nVal i.round.toNat
    have hread := (round_results_eq hok hok' hs (.inr (.inr hc)) (by omega)).1
    rw [resultLength, resultBuf, if_pos hc, if_pos hc] at hread
    exact hread a ha

end Sys2Proof.Machine
end

section
/-! What a controller step leaves of the flags and of CIPHCNT while its command runs on (42_feistel_controller R194,
20_memory R66), and that a command that ends with an error has written nothing (60_exceptions R222, R223). -/
namespace Sys2Proof.Machine

/-! ### A step after which the command runs on -/

/-- A step that makes no request, leaves the flags to the command's end and counts no call. -/
structure KeepsStatus (d e : Device) : Prop where
  port : e.port = .free ∨ e.port = d.port
  ciphcnt : e.ciphcnt = d.ciphcnt
  done : e.done = d.done
  err : e.err = d.err
  errcode : e.errcode = d.errcode
  errinfo : e.errinfo = d.errinfo

section Running
variable {P : Params} {d e : Device}

theorem checkPassed_keepsStatus (d : Device) : (checkPassed d).phase = .idle ∨ KeepsStatus d (checkPassed d) := by
  unfold checkPassed
  split
  · exact .inl rfl
  split <;> exact .inr ⟨.inr rfl, rfl, rfl, rfl, rfl, rfl⟩

theorem loadStep_keepsStatus (h : loadStep P d = .ok e) : KeepsStatus d e := by
  unfold loadStep loadEnc loadDec loadMadd loadMsub at h
  split_ifs at h
  · obtain ⟨a, b, -, -, rfl⟩ := loadSplit_ok h; exact ⟨.inr rfl, rfl, rfl, rfl, rfl, rfl⟩
  · obtain ⟨a, b, -, -, rfl⟩ := loadSplit_ok h; exact ⟨.inr rfl, rfl, rfl, rfl, rfl, rfl⟩
  · obtain ⟨b, -, rfl⟩ := loadPrf_ok h; exact ⟨.inr rfl, rfl, rfl, rfl, rfl, rfl⟩
  · obtain ⟨a, b, -, -, rfl⟩ := loadPair_ok h; exact ⟨.inr rfl, rfl, rfl, rfl, rfl, rfl⟩
  · obtain ⟨a, b, -, -, rfl⟩ := loadPair_ok h; exact ⟨.inr rfl, rfl, rfl, rfl, rfl, rfl⟩

theorem hdrConsume_keepsStatus (res : CipherResult) (d : Device) :
    (hdrConsume res d).phase = .idle ∨ KeepsStatus d (hdrConsume res d) := by
  unfold hdrConsume
  split
  · exact .inl rfl
  split
  · exact .inl rfl
  · exact .inr ⟨.inl rfl, rfl, rfl, rfl, rfl, rfl⟩

theorem macConsume_keepsStatus (res : CipherResult) (d : Device) :
    (macConsume res d).phase = .idle ∨ KeepsStatus d (macConsume res d) := by
  unfold macConsume
  split
  · exact .inl rfl
  split
  · exact .inr ⟨.inl rfl, rfl, rfl, rfl, rfl, rfl⟩
  split <;> exact .inr ⟨.inl rfl, rfl, rfl, rfl, rfl, rfl⟩

theorem expandConsume_keepsStatus (res : CipherResult) (d : Device) :
    (expandConsume res d).phase = .idle ∨ KeepsStatus d (expandConsume res d) := by
  unfold expandConsume
  split
  · exact .inl rfl
  split <;> exact .inr ⟨.inl rfl, rfl, rfl, rfl, rfl, rfl⟩

theorem addStep_keepsStatus (h : addStep d = .ok e) : KeepsStatus d e := by
  unfold addStep at h
  split_ifs at h
  · obtain ⟨a, -, rfl⟩ := addMadd_ok h; exact ⟨.inr rfl, rfl, rfl, rfl, rfl, rfl⟩
  · obtain ⟨c, -, rfl⟩ := addEnc_ok h
    split <;> exact ⟨.inr rfl, rfl, rfl, rfl, rfl, rfl⟩

theorem subStep_keepsStatus (h : subStep d = .ok e) : KeepsStatus d e := by
  unfold subStep at h
  split_ifs at h
  · obtain ⟨a, -, rfl⟩ := subMsub_ok h; exact ⟨.inr rfl, rfl, rfl, rfl, rfl, rfl⟩
  · obtain ⟨c, -, rfl⟩ := subDec_ok h
    split <;> exact ⟨.inr rfl, rfl, rfl, rfl, rfl, rfl⟩

/-- A step after which the command runs on is a request, or leaves the status alone. -/
theorem ctlStep_running (h : ctlStep P d = .ok e) (he : e.phase ≠ .idle) :
    (∃ x, e = d.issue x) ∨ KeepsStatus d e := by
  obtain rfl | ⟨-, -, h⟩ | ⟨-, -, h⟩ | ⟨-, -, rfl⟩ | ⟨-, res, -, rfl⟩ | ⟨-, -, h⟩ | ⟨-, res, -, rfl⟩ | ⟨-, -, rfl⟩ |
    ⟨-, res, -, rfl⟩ | ⟨-, -, h⟩ | ⟨-, -, h⟩ | ⟨-, -, h⟩ | ⟨-, -, h⟩ := ctlStep_cases h
  · exact .inr ⟨.inr rfl, rfl, rfl, rfl, rfl, rfl⟩
  · obtain ⟨c, -, rfl⟩ | ⟨-, x, -, rfl⟩ | ⟨-, -, rfl⟩ := checkStep_ok h
    · exact absurd rfl he
    · exact absurd rfl he
    · exact .inr ((checkPassed_keepsStatus d).resolve_left he)
  · exact .inr (loadStep_keepsStatus h)
  · exact .inl ⟨_, rfl⟩
  · exact .inr ((hdrConsume_keepsStatus res d).resolve_left he)
  · obtain ⟨s, -, rfl⟩ := macIssue_ok h; exact .inl ⟨_, rfl⟩
  · exact .inr ((macConsume_keepsStatus res d).resolve_left he)
  · exact .inl ⟨_, rfl⟩
  · exact .inr ((expandConsume_keepsStatus res d).resolve_left he)
  · obtain ⟨f, -, rfl⟩ := reduceStep_ok h; exact .inr ⟨.inr rfl, rfl, rfl, rfl, rfl, rfl⟩
  · exact .inr (addStep_keepsStatus h)
  · exact .inr (subStep_keepsStatus h)
  · obtain ⟨-, v, -, rfl⟩ | ⟨-, v, -, rfl⟩ := writebackStep_ok h <;> exact absurd rfl he

/-- WRITEBACK ends the command, and is no error (R179). -/
theorem ctlStep_writeback_cases (hph : d.phase = .writeback) (h : ctlStep P d = .ok e) :
    e = d ∨ (e.phase = .idle ∧ e.err = d.err) := by
  have hcases := ctlStep_cases h
  simp only [hph, reduceCtorEq, false_and, true_and, false_or] at hcases
  refine hcases.imp_right fun ⟨_, hw⟩ => ?_
  obtain ⟨-, v, -, rfl⟩ | ⟨-, v, -, rfl⟩ := writebackStep_ok hw <;> exact ⟨rfl, rfl⟩

/-- A step after which the command runs on keeps what a round keeps, and counts its request. -/
theorem ctlStep_roundKeeps (hw : d.waiting = false) (h : ctlStep P d = .ok e) (he : e.phase ≠ .idle) :
    RoundKeeps e.waiting.toNat d e := by
  have hbuf : KeepsBuffers d e := by
    by_cases hph : d.phase = .writeback
    · obtain rfl | ⟨hi, -⟩ := ctlStep_writeback_cases hph h
      · exact ⟨rfl, rfl⟩
      · exact absurd hi he
    · exact ctlStep_keepsBuffers hph h
  have hkeep := ctlStep_keeps h
  obtain ⟨x, rfl⟩ | hs := ctlStep_running h he
  · exact { hkeep, hbuf with ciphcnt := rfl, done := rfl, err := rfl, errcode := rfl, errinfo := rfl }
  · have hwait : e.waiting = false := by
      obtain hp | hp := hs.port
      · rw [Device.waiting, hp]
      · rw [Device.waiting, hp, ← Device.waiting, hw]
    exact { hkeep, hbuf with
      ciphcnt := by rw [hwait, hs.ciphcnt]; exact (BitVec.add_zero _).symm
      done := hs.done, err := hs.err, errcode := hs.errcode, errinfo := hs.errinfo }

end Running

/-! ### WRITEBACK writes the whole result (R178) -/

section Writeback
variable {P : Params} {d e : Device}

/-- A result written is read back whole, and no other buffer changes. -/
theorem writeResult_stored {b : Buf} {n : Nat} {v : List Nat} (h : writeResult P b n v d = .ok e) :
    memRead P e b 0 n = .ok (digitBytes v) ∧ ∀ b' : Buf, b' ≠ b → e.buf b' = d.buf b' := by
  obtain ⟨rfl, hn, rfl⟩ := writeResult_ok h
  rw [Device.setBuf_complete]
  refine ⟨?_, fun _ hne => Device.setBuf_buf_other _ _ _ _ hne⟩
  rw [memRead, if_pos (by omega), Device.setBuf_buf_same, ← length_digitBytes]
  exact Memory.readBytes_writeBytes ..

theorem writebackStep_sum (hc : d.cmd = Cmd.madd ∨ d.cmd = Cmd.msub) :
    writebackStep P d = writeResult P .data d.nVal d.regA d :=
  (if_neg (by rcases hc with hc | hc <;> rw [hc] <;> decide)).trans
    ((if_neg (by rcases hc with hc | hc <;> rw [hc] <;> decide)).trans (if_pos hc))

end Writeback

/-! ### No partial results (R223) -/

/-- DATA and OPB are m's, and ERR is clear while the command runs; or the command has ended without ERR. -/
def NoPartialResult (m e : Device) : Prop :=
  ((e.data = m.data ∧ e.opb = m.opb) ∧ (e.phase ≠ .idle → e.err = false)) ∨ (e.phase = .idle ∧ e.err = false)

theorem ctlStep_noPartialResult {P : Params} {m d e : Device} (hd : NoPartialResult m d) (h : ctlStep P d = .ok e) :
    NoPartialResult m e := by
  by_cases hi : d.phase = .idle
  · rw [ctlStep_idle hi] at h
    cases h
    exact hd
  obtain ⟨⟨hdata, hopb⟩, herr⟩ := hd.resolve_right fun hr => hi hr.1
  by_cases hph : d.phase = .writeback
  · obtain rfl | ⟨hidle, he⟩ := ctlStep_writeback_cases hph h
    · exact .inl ⟨⟨hdata, hopb⟩, herr⟩
    · exact .inr ⟨hidle, he.trans (herr hi)⟩
  · have hk := ctlStep_keepsBuffers hph h
    refine .inl ⟨⟨hk.data.trans hdata, hk.opb.trans hopb⟩, fun he => ?_⟩
    obtain ⟨x, rfl⟩ | hs := ctlStep_running h he
    · exact herr hi
    · exact hs.err.trans (herr hi)

/-- Settles O23: only WRITEBACK writes DATA and OPB, and it ends the command without ERR. -/
theorem errorsLeaveNoPartialResult : Obligations.ErrorsLeaveNoPartialResult := by
  refine ⟨fun i s t hi h herr => ?_, fun d e hph h => ?_, fun d e hph hp h => ?_⟩
  · have hrun : NoPartialResult s.dev t.dev :=
      exec_device_induction hi h (.inl ⟨⟨rfl, rfl⟩, fun _ => rfl⟩)
        (fun d a hd => by obtain ⟨p, hp⟩ := serve_eq Config.params a d; rw [hp]; exact hd)
        fun d e _ hd he => ctlStep_noPartialResult hd he
    obtain ⟨hb, -⟩ | ⟨-, hclear⟩ := hrun
    · exact hb
    · rw [herr] at hclear
      cases hclear
  · have hb := ctlStep_keepsBuffers hph h
    exact ⟨hb.data, hb.opb⟩
  · rw [ctlStep_writeback hph hp] at h
    refine ⟨?_, fun hc => ?_, fun hc => ?_, fun hc => ?_⟩
    · obtain ⟨-, v, -, rfl⟩ | ⟨-, v, -, rfl⟩ := writebackStep_ok h <;> rfl
    · rw [writebackStep_feistel hc] at h
      obtain ⟨hread, hother⟩ := writeResult_stored h
      exact ⟨hread, hother .opb (by decide)⟩
    · rw [writebackStep_prf hc] at h
      obtain ⟨hread, hother⟩ := writeResult_stored h
      exact ⟨hread, hother .data (by decide)⟩
    · rw [writebackStep_sum hc] at h
      obtain ⟨hread, hother⟩ := writeResult_stored h
      exact ⟨hread, hother .opb (by decide)⟩

end Sys2Proof.Machine
end

section
/-! The errors of CHECK in R221's order: the register conditions 1 to 7, and condition 8, the first invalid symbol of
the scan, with R40's ERRINFO (60_exceptions R221 to R223). -/
namespace Sys2Proof.Machine

/-! ### Conditions 1 to 7 -/

theorem isCommand_false_iff (c : BitVec 4) : (!isCommand c) = true ↔ c = 0#4 ∨ 6 < c.toNat := by
  revert c
  decide

/-- The conditions of R221 on a START's registers, at the machine's own sizes (log 6). -/
theorem registerError_start (d : Device) (c rd : BitVec 4) :
    registerError Config.params (d.start c rd) =
      if c = 0#4 ∨ 6 < c.toNat then some .illegalCommand
      else if usesCipher c = true ∧ ¬ d.KeyLegal then some .invalidKeyLength
      else if ¬ d.RadixLegal then some .invalidRadix
      else if 256 < d.nVal then some .lengthRange
      else if usesCipher c = true ∧ 256 < d.tVal then some .lengthRange
      else if c = Cmd.prf ∧ d.nVal = 0 then some .lengthRange
      else if c = Cmd.prf ∧ 9 < rd.toNat then some .invalidRound
      else none := by
  have hkey : ¬ d.KeyLegal ↔ d.keylen ≠ 16 ∧ d.keylen ≠ 24 ∧ d.keylen ≠ 32 := by rw [not_or, not_or]
  have hradix : ¬ d.RadixLegal ↔ d.rVal < 2 ∨ 62 < d.rVal := by rw [not_and_or, not_le, not_le]
  simp only [hkey, hradix, ← isCommand_false_iff]
  rfl

section Check
variable {i : Instr} {s : State}

/-- A register error ends the command in CHECK, with no cipher call and nothing of the datapath changed. -/
theorem exec_of_registerError {code : ErrorCode} (hi : s.dev.Idle)
    (h : registerError Config.params (s.dev.start i.cmd i.round) = some code) :
    ∃ t, exec i s = .next t ∧ ErrorEnd i.cmd i.round 0 code 0 s t ∧ KeepsWorking s.dev t.dev :=
  ⟨_, (exec_eq_runCommand i s).trans (runCommand_of_registerError hi h), errorEnd_raise_start hi.2 fun _ => rfl,
    keepsWorking_raise_start ..⟩

/-- So does a bad symbol found by the scan (R221, R40). -/
theorem exec_of_badSymbol {info : BitVec 17} (hi : s.dev.Idle)
    (hr : registerError Config.params (s.dev.start i.cmd i.round) = none)
    (hs : symbolScan Config.params (s.dev.start i.cmd i.round) = .ok (some info)) :
    ∃ t, exec i s = .next t ∧ ErrorEnd i.cmd i.round 0 .invalidSymbol info s t ∧ KeepsWorking s.dev t.dev :=
  ⟨_, (exec_eq_runCommand i s).trans (runCommand_of_check hi (by rw [checkStep, hr, hs]) rfl),
    errorEnd_raise_start hi.2 fun hne => absurd rfl hne, keepsWorking_raise_start ..⟩

end Check

/-- Settles O18: CHECK's error is the first condition of its chain that holds. -/
theorem checkReportsFirstFailure : Obligations.CheckReportsFirstFailure := by
  intro i s hi d cipher ends
  have hends : (registerError Config.params (s.dev.start i.cmd i.round)).elim True ends := by
    cases h : registerError Config.params (s.dev.start i.cmd i.round) with
    | none => trivial
    | some code => exact exec_of_registerError hi h
  rw [registerError_start] at hends
  have hcipher : cipher = usesCipher i.cmd := rfl
  rw [hcipher]
  split_ifs at hends ⊢ <;> exact hends

/-! ### Condition 8 -/

/-- INDEX of a byte of DATA (R40). -/
theorem symbolInfo_data {p : Nat} (h : p < 2 ^ 16) : symbolInfo .data p = BitVec.ofNat 17 p := by
  apply BitVec.eq_of_toNat_eq
  rw [symbolInfo, toNat_append_eq_add, BitVec.toNat_ofNat, BitVec.toNat_ofNat, toNat_flagBit]
  change 0 * _ + _ = _
  omega

/-- INDEX of a byte of OPB, with BUF set (R40). -/
theorem symbolInfo_opb {p : Nat} (h : p < 2 ^ 16) : symbolInfo .opb p = BitVec.ofNat 17 (65536 + p) := by
  apply BitVec.eq_of_toNat_eq
  rw [symbolInfo, toNat_append_eq_add, BitVec.toNat_ofNat, BitVec.toNat_ofNat, toNat_flagBit]
  change 1 * _ + _ = _
  omega

section Symbols
variable {P : Params} {d : Device} {p : Nat} {c : Byte}

theorem scanBuf_bad {bf : Buf} {n : Nat} (hn : n ≤ Params.size P bf) (hp : p < n)
    (hb : ∀ a, a < p → ∃ c, Memory.read (d.buf bf) a = some c ∧ c.toNat < d.rVal)
    (hr : Memory.read (d.buf bf) p = some c) (hc : d.rVal ≤ c.toNat) :
    scanBuf P d bf n = .ok (some (symbolInfo bf p)) := by
  rw [scanBuf, if_pos hn, scanFrom_some 0 n (Nat.zero_le p) (by omega) (fun a _ ha => hb a ha) hr hc]

/-- A finding in DATA is the scan's, of every command that scans (R221). -/
theorem symbolScan_of_data {info : BitVec 17} (hcmd : isCommand d.cmd = true) (hiv : d.cmd ≠ Cmd.ivgen)
    (h : scanBuf P d .data (if d.cmd = Cmd.prf then d.wVal else d.nVal) = .ok (some info)) :
    symbolScan P d = .ok (some info) := by
  by_cases hprf : d.cmd = Cmd.prf
  · rw [if_pos hprf] at h
    rwa [symbolScan_of_prf hprf]
  rw [if_neg hprf] at h
  by_cases hf : d.cmd = Cmd.enc ∨ d.cmd = Cmd.dec
  · rwa [symbolScan_of_feistel hf]
  · have hpair : d.cmd = Cmd.madd ∨ d.cmd = Cmd.msub := by
      have := isCommand_cases hcmd
      tauto
    rw [symbolScan, if_neg hf, if_pos hpair, h]

/-- Where DATA passes, the scan of MADD and MSUB is OPB's (R221). -/
theorem symbolScan_of_opb (hc : d.cmd = Cmd.madd ∨ d.cmd = Cmd.msub) (h : scanBuf P d .data d.nVal = .ok none) :
    symbolScan P d = scanBuf P d .opb d.nVal := by
  rw [symbolScan, if_neg (by rcases hc with hc | hc <;> rw [hc] <;> decide), if_pos hc, h]

end Symbols

/-- Settles O19: the scan's finding is the first bad byte, of DATA, or of OPB where DATA has none. -/
theorem firstBadSymbolIsReported : Obligations.FirstBadSymbolIsReported := by
  refine ⟨fun i s p c hi hr hiv hp hb hread hc => ?_, fun i s p c hi hr hcmd hp hdata hb hread hc => ?_⟩
  · have hreg := registersPass_of_registerError hr
    have hw : wOf s.dev.nVal i.round.toNat ≤ s.dev.nVal := (s.dev.start i.cmd i.round).wVal_le
    have hlen : (if i.cmd = Cmd.prf then wOf s.dev.nVal i.round.toNat else s.dev.nVal) ≤ s.dev.nVal := by
      split
      · exact hw
      · exact le_refl _
    have hscan : scanBuf Config.params (s.dev.start i.cmd i.round) .data
        (if i.cmd = Cmd.prf then wOf s.dev.nVal i.round.toNat else s.dev.nVal) = .ok (some (symbolInfo .data p)) :=
      scanBuf_bad (hlen.trans hreg.len) hp hb hread hc
    have hfind := symbolScan_of_data (d := s.dev.start i.cmd i.round) hreg.command hiv hscan
    rw [symbolInfo_data (by have := s.dev.nVal_lt; omega)] at hfind
    exact exec_of_badSymbol hi hr hfind
  · have hreg := registersPass_of_registerError hr
    have hpass : scanBuf Config.params (s.dev.start i.cmd i.round) .data s.dev.nVal = .ok none :=
      (scanBuf_none_iff hreg.len).mpr hdata
    have hfind := (symbolScan_of_opb (d := s.dev.start i.cmd i.round) hcmd hpass).trans
      (scanBuf_bad (P := Config.params) (bf := .opb) hreg.len hp hb hread hc)
    rw [symbolInfo_opb (by have := s.dev.nVal_lt; omega)] at hfind
    exact exec_of_badSymbol hi hr hfind

end Sys2Proof.Machine
end

section
/-! A cipher call that fails (60_exceptions R222 to R224, 70_reset_and_hazards R265). A command known to succeed where
every draw is Ok takes the same steps under other draws up to the first Fail, and consuming that answer ends it. -/
namespace Sys2Proof.Machine

/-! ### Consuming Fail (R146, R148, R150) -/

/-- The phases that call the cipher (R194). -/
def CallPhase (ph : Phase) : Prop := ph = .hdr ∨ ph = .mac ∨ ph = .expand

section Fail
variable {P : Params} {d e : Device}

theorem ctlStep_failed (hph : CallPhase d.phase) (hp : d.port = .rsp .fail) :
    ctlStep P d = .ok (d.freePort.raise .cipherFailure 0) := by
  obtain hph | hph | hph := hph
  · exact ctlStep_hdr_rsp hph hp
  · exact ctlStep_mac_rsp hph hp
  · exact ctlStep_expand_rsp hph hp

/-- No other phase consumes an answer (log 11). -/
theorem callPhase_of_rsp {res : CipherResult} (hb : d.phase ≠ .idle) (hp : d.port = .rsp res)
    (h : ctlStep P d = .ok e) : CallPhase d.phase := by
  cases hph : d.phase with
  | idle => exact absurd hph hb
  | hdr => exact .inl rfl
  | mac => exact .inr (.inl rfl)
  | expand => exact .inr (.inr rfl)
  | check | load | reduce | add | sub | writeback => simp [ctlStep, hph, hp] at h

end Fail

/-- Settles O42: the three consume rows raise alike. -/
theorem failedAnswerRaisesInEveryPhase : Obligations.FailedAnswerRaisesInEveryPhase :=
  fun _ hph hp => ctlStep_failed hph hp

/-! ### The same steps under other draws -/

/-- s with l for the engine's coming draws. -/
def State.withDraws (s : State) (l : List EngineDraw) : State := { s with env := { s.env with engine := l } }

@[simp] theorem State.withDraws_dev (s : State) (l : List EngineDraw) : (s.withDraws l).dev = s.dev := rfl

/-- s with c draws to come, all Ok. -/
def State.withOkDraws (s : State) (c : Nat) : State := s.withDraws (List.replicate c .ok)

theorem State.withOkDraws_answers (s : State) (c : Nat) : (s.withOkDraws c).env.Answers c := by
  simp [Env.Answers, State.withOkDraws, State.withDraws]

theorem Env.failsAt_zero {v : Env} (h : v.FailsAt 0) : v.nextDraw = .fail := by
  rw [Env.nextDraw, List.headD_eq_head?_getD, List.head?_eq_getElem?, h.2, Option.getD_some]

theorem Env.failsAt_succ {v : Env} {c : Nat} (h : v.FailsAt (c + 1)) :
    v.nextDraw = .ok ∧ { v with engine := v.engine.tail }.FailsAt c := by
  obtain ⟨ha, hf⟩ := h
  refine ⟨Env.nextDraw_of_answers ha, fun a hm => ha a ?_, by simpa using hf⟩
  rw [← List.drop_one, List.take_drop, Nat.add_comm] at hm
  exact List.mem_of_mem_drop hm

section Draws
variable {P : Params} {n : Nat} {s t : State} {l : List EngineDraw}

theorem State.withDraws_tail (d : Device) (l' : List EngineDraw) :
    State.withDraws { dev := d, env := { s.env with engine := l' } } l.tail = (s.withDraws l).after d 1 := by
  rw [State.after, List.drop_one]
  rfl

theorem advance_withDraws_waiting (hw : s.dev.waiting = true) :
    advance P (s.withDraws l) = .ok ((s.withDraws l).after (s.dev.serve P (l.headD .ok)) 1) := by
  rw [advance, State.withDraws_dev, if_pos hw, engineMove, State.withDraws_dev, if_pos hw, State.after, List.drop_one]
  rfl

theorem advance_withDraws_controller {e : Device} (hw : s.dev.waiting = false) (h : ctlStep P s.dev = .ok e) :
    advance P (s.withDraws l) = .ok (State.withDraws { s with dev := e } l) := by
  rw [advance, State.withDraws_dev, hw, if_neg (by decide), controllerMove_of_ctlStep (s := s.withDraws l) h]
  rfl

/-- A call whose answer is Fail, up to its consume step: issue and serve (R66). -/
theorem Steps.call_fail {x : Block} (hb : s.dev.busy = true) (hp : s.dev.port = .free)
    (hi : ctlStep P s.dev = .ok (s.dev.issue x)) (ha : s.env.nextDraw = .fail) :
    Steps P 2 s (s.after { s.dev.issue x with port := .rsp .fail } 1) := by
  have hissue := Steps.controller hb hp hi
  have hserve := advance_withDraws_waiting (P := P) (s := s.after (s.dev.issue x) 0) (l := s.env.engine) rfl
  rw [show s.env.engine.headD .ok = .fail from ha, Device.serve_fail rfl] at hserve
  exact hissue.trans (.one hb hserve)

/-- A busy run that ends consumes the answer on the port. -/
theorem Steps.consumes (h : Steps P n s t) (ht : t.dev.busy = false) (hb : s.dev.phase ≠ .idle)
    {res : CipherResult} (hp : s.dev.port = .rsp res) : 0 < n ∧ CallPhase s.dev.phase := by
  cases h with
  | refl => exact absurd (Device.busy_false_iff.mp ht) hb
  | step _ ha _ =>
    obtain ⟨hw, -⟩ | ⟨-, e, he, -⟩ := advance_cases ha
    · simp [Device.waiting, hp] at hw
    · exact ⟨Nat.succ_pos _, callPhase_of_rsp hb hp he⟩

end Draws

/-! ### Up to the first Fail -/

/-- The controller, come from d within one command, stands before the failed answer of the call after c more: CIPHCNT
has counted that call and those between, but not one that was on the port in d. -/
structure AtFailure (c : Nat) (d e : Device) : Prop where
  phase : CallPhase e.phase
  port : e.port = .rsp .fail
  keeps : RoundKeeps (c + 1 - d.waiting.toNat) d e

section Failure
variable {P : Params} {n c : Nat} {s t : State} {d d' e : Device} {key : List Byte} {x : Block}

theorem roundKeeps_port (d : Device) (p : Port) : RoundKeeps 0 d { d with port := p } :=
  { RoundKeeps.refl d with }

theorem atFailure_of_fail (hreq : d.port = .req key x) (hph : CallPhase d.phase) :
    AtFailure 0 d { d with port := .rsp .fail } where
  phase := hph
  port := rfl
  keeps := by
    rw [Device.waiting_iff.mpr ⟨key, x, hreq⟩]
    exact roundKeeps_port ..

theorem AtFailure.of_serve (h : AtFailure c (d.serve P .ok) e) (hreq : d.port = .req key x) :
    AtFailure (c + 1) d e where
  phase := h.phase
  port := h.port
  keeps := by
    have hk := h.keeps
    rw [Device.serve_ok hreq] at hk
    have hall : RoundKeeps (0 + (c + 1)) d e := (roundKeeps_port d _).trans hk
    rw [Nat.zero_add] at hall
    rw [Device.waiting_iff.mpr ⟨key, x, hreq⟩]
    exact hall

theorem AtFailure.of_ctlStep (h : AtFailure c d' e) (hw : d.waiting = false) (hs : ctlStep P d = .ok d')
    (hb : d'.phase ≠ .idle) : AtFailure c d e where
  phase := h.phase
  port := h.port
  keeps := by
    have hall := (ctlStep_roundKeeps hw hs hb).trans h.keeps
    rwa [show d'.waiting.toNat + (c + 1 - d'.waiting.toNat) = c + 1 - d.waiting.toNat by
      have := d'.waiting.toNat_le
      rw [hw, Bool.toNat_false]
      omega] at hall

/-- A run that ends after Ok draws only, more than c of them, comes to a failed answer under draws l that fail at c. -/
theorem Steps.to_failure (h : Steps P n s t) (ht : t.dev.busy = false) (hend : t.env.engine = [])
    {l : List EngineDraw} (hok : ∀ a ∈ s.env.engine, a = .ok) (hc : c < s.env.engine.length)
    (hl : (s.withDraws l).env.FailsAt c) :
    ∃ k e, k < n ∧ Steps P k (s.withDraws l) ((s.withDraws l).after e (c + 1)) ∧ AtFailure c s.dev e := by
  induction h generalizing c l with
  | refl s => simp [hend] at hc
  | @step n s u t hb ha hs ih =>
    obtain ⟨hw, rfl⟩ | ⟨hw, d, hd, rfl⟩ := advance_cases ha
    · obtain ⟨key, x, hreq⟩ := Device.waiting_iff.mp hw
      have hfirst := advance_withDraws_waiting (P := P) (l := l) hw
      cases c with
      | zero =>
        rw [show l.headD .ok = .fail from Env.failsAt_zero hl, Device.serve_fail hreq] at hfirst
        obtain ⟨hn, hph⟩ : 0 < n ∧ CallPhase s.dev.phase := by
          rw [Device.serve, hreq] at hs
          exact hs.consumes ht (Device.busy_iff.mp hb) rfl
        exact ⟨1, _, by omega, .one hb hfirst, atFailure_of_fail hreq hph⟩
      | succ c =>
        obtain ⟨hhead, htail⟩ := Env.failsAt_succ hl
        rw [show l.headD .ok = .ok from hhead] at hfirst
        have hdraw : s.env.nextDraw = .ok :=
          Env.nextDraw_of_answers (c := 0) fun a ha => hok a (List.mem_of_mem_take ha)
        obtain ⟨k, e, hk, hsteps, hat⟩ := ih (l := l.tail) ht hend (fun a ha => hok a (List.mem_of_mem_tail ha))
          (by simpa using Nat.lt_sub_of_add_lt hc) htail
        rw [State.withDraws_tail, hdraw, State.after_after, Nat.add_comm 1] at hsteps
        rw [hdraw] at hat
        exact ⟨k + 1, e, by omega, .step hb hfirst hsteps, hat.of_serve hreq⟩
    · have hbusy : d.phase ≠ .idle := fun hi => by
        rw [hs.eq_of_idle hi] at hend
        rw [show s.env.engine = [] from hend] at hc
        cases hc
      obtain ⟨k, e, hk, hsteps, hat⟩ := ih ht hend hok hc hl
      exact ⟨k + 1, e, by omega, .step hb (advance_withDraws_controller hw hd) hsteps, hat.of_ctlStep hw hd hbusy⟩

end Failure

/-! ### The command's end (R222) -/

section Ends
variable {P : Params} {c rd : BitVec 4} {calls n : Nat} {s t : State} {e : Device}

/-- CIPHER_FAILURE raised after steps that keep what a round keeps is an error end. -/
theorem RoundKeeps.errorEnd (h : RoundKeeps calls (s.dev.start c rd) e) :
    ErrorEnd c rd calls .cipherFailure 0 s (s.after (e.freePort.raise .cipherFailure 0) calls) where
  inten := h.inten
  radix := h.radix
  keylen := h.keylen
  len := h.len
  tlen := h.tlen
  key := h.key
  tweak := h.tweak
  phase := rfl
  port := rfl
  cmd := h.cmd
  ctrlCmd := h.ctrlCmd
  ctrlRound := h.ctrlRound
  wbusy := h.wbusy
  ciphcnt := h.ciphcnt.trans (BitVec.zero_add _)
  env := rfl
  data := h.data
  opb := h.opb
  done := h.done
  err := rfl
  errcode := rfl
  errinfo := h.errinfo

/-- Steps from START to a failed answer, and the step that consumes it, are the command. -/
theorem runCommand_of_failure (hi : s.dev.phase = .idle)
    (hs : Steps P n (s.after (s.dev.start c rd) 0) (s.after e calls)) (hph : CallPhase e.phase)
    (hp : e.port = .rsp .fail) (hn : n < commandBound s.dev.nVal s.dev.rVal s.dev.tVal) :
    runCommand P c rd s = .next (s.after (e.freePort.raise .cipherFailure 0) calls) := by
  have hbusy : e.phase ≠ .idle := by rcases hph with hph | hph | hph <;> rw [hph] <;> decide
  have hlast : Steps P 1 (s.after e calls) (s.after (e.freePort.raise .cipherFailure 0) calls) :=
    .one (Device.busy_iff.mpr hbusy) (by
      rw [advance, State.after_dev, Device.waiting, hp, if_neg (by decide)]
      exact controllerMove_of_ctlStep (s := s.after e calls) (ctlStep_failed hph hp))
  exact runCommand_of_steps (Device.busy_false_iff.mpr hi) (hs.trans hlast) rfl hn

/-- A command that succeeds where every draw is Ok ends with CIPHER_FAILURE at the first of its calls that fails. -/
theorem runCommand_of_failsAt {m : Nat} (hi : s.dev.Idle)
    (hok : runCommand P c rd (s.withOkDraws calls) = .next t)
    (hend : SuccessEnd c rd calls (s.withOkDraws calls) t) (hm : m < calls)
    (hf : s.env.FailsAt m) : ∃ u, runCommand P c rd s = .next u ∧ ErrorEnd c rd (m + 1) .cipherFailure 0 s u := by
  obtain ⟨ht, n, hn, hs⟩ := runCommand_next (s := s.withOkDraws calls) (Device.busy_false_iff.mpr hi.1) hok
  have hdrained : t.env.engine = [] := by
    rw [hend.env]
    simp [State.withOkDraws, State.withDraws]
  obtain ⟨k, e, hk, hsteps, hat⟩ := hs.to_failure (l := s.env.engine) (c := m) ht hdrained
    (by simp [State.withOkDraws, State.withDraws]) (by simpa [State.withOkDraws, State.withDraws] using hm) hf
  have hkeeps : RoundKeeps (m + 1 - (s.dev.start c rd).waiting.toNat) (s.dev.start c rd) e := hat.keeps
  rw [Device.waiting, Device.start_port, hi.2] at hkeeps
  exact ⟨_, runCommand_of_failure hi.1 hsteps hat.phase hat.port (hk.trans_le hn), hkeeps.errorEnd⟩

/-- IVGEN, its one call failed: HDR's answer reaches no working register. -/
theorem runCommand_ivgen_fail (h : CipherReady P s.dev) (ha : s.env.nextDraw = .fail) :
    ∃ t, runCommand P Cmd.ivgen rd s = .next t ∧ ErrorEnd Cmd.ivgen rd 1 .cipherFailure 0 s t ∧
      KeepsWorking s.dev t.dev := by
  have hcheck := steps_check h.idle (registerError_cipher rd h (.inr (.inr rfl))) rfl
  rw [checkPassed_ivgen rfl] at hcheck
  have hcall := Steps.call_fail (P := P) (s := s.after { s.dev.start Cmd.ivgen rd with phase := .hdr } 0) rfl h.idle.2
    (ctlStep_hdr rfl h.idle.2) ha
  rw [State.after_after] at hcall
  have hrun := runCommand_of_failure h.idle.1 (hcheck.trans hcall) (.inl rfl) rfl
    (by unfold commandBound; omega)
  exact ⟨_, hrun, RoundKeeps.errorEnd { KeepsHostState.refl (s.dev.start Cmd.ivgen rd) with
      data := rfl, opb := rfl, ciphcnt := rfl, done := rfl, err := rfl, errcode := rfl, errinfo := rfl },
    rfl, rfl, rfl, rfl, rfl, rfl, rfl, rfl, rfl⟩

end Ends

/-- Settles O22: each command succeeds where every draw is Ok, so the first Fail among its calls ends it. -/
theorem cipherFailureEndsCommand : Obligations.CipherFailureEndsCommand := by
  refine ⟨fun i s tw x c hcmd h h1 hn ht hd hc hf => ?_, fun rd s tw x c h h1 hi hn ht hd hc hf => ?_,
    fun rd s h hf => runCommand_ivgen_fail h (Env.failsAt_zero hf)⟩
  · rw [exec_eq_runCommand]
    have ha := s.withOkDraws_answers (feistelCalls s.dev.nVal s.dev.rVal s.dev.tVal)
    obtain hcmd | hcmd := hcmd <;> rw [hcmd]
    · obtain ⟨t, hrun, hend, -⟩ := runCommand_enc (rd := i.round) (s := s.withOkDraws _) h h1 hn ht hd ha
      exact runCommand_of_failsAt h.idle hrun hend.toSuccessEnd hc hf
    · obtain ⟨t, hrun, hend, -⟩ := runCommand_dec (rd := i.round) (s := s.withOkDraws _) h h1 hn ht hd ha
      exact runCommand_of_failsAt h.idle hrun hend.toSuccessEnd hc hf
  · obtain ⟨t, hrun, -, hend, -⟩ := runCommand_prf (s := s.withOkDraws _) h h1 hi hn ht hd
      (s.withOkDraws_answers (prfCalls s.dev.nVal s.dev.rVal s.dev.tVal))
    exact runCommand_of_failsAt h.idle hrun hend.toSuccessEnd hc hf

end Sys2Proof.Machine
end

section
/-! Reset in any state, what it leaves, and the machine straight after it (70_reset_and_hazards R250 to R252, R255). -/
namespace Sys2Proof.Machine

/-! ### The reset move (R250, R252) -/

/-- A scheduled reset is one step to the reset device, whatever the state. -/
theorem step_reset {s : State} {ms : List Move} (h : s.env.sched = .reset :: ms) :
    step s = .next { dev := Device.reset, env := { s.env with sched := ms } } :=
  step_of_sched h (by decide)

theorem engineMove_not_waiting {P : Params} {s : State} (h : s.dev.waiting = false) : engineMove P s = s :=
  if_neg (by rw [h]; decide)

/-- Settles O5: the reset device has no request on its port, so the engine has no step. -/
theorem resetMoveAbandonsEverything : Obligations.ResetMoveAbandonsEverything :=
  fun _ _ h => ⟨step_reset h, engineMove_not_waiting rfl⟩

/-- Settles O6. -/
theorem resetMeetsInvariant : Obligations.ResetMeetsInvariant := devInv_reset

/-! ### The reset table (R251) -/

theorem blockBytes_zero : blockBytes 0 = List.replicate 16 0 := by decide

/-- R8's sizes fit CAP's two fields (R32). -/
theorem toNat_capWord {P : Params} (h : P.Legal) : (capWord P).toNat = P.tweakMax * 2 ^ 16 + P.nMax := by
  have hn : P.nMax < 2 ^ 16 := h.nMax_range.2.trans_lt (by decide)
  have ht : P.tweakMax < 2 ^ 16 := h.tweakMax_range.trans_lt (by decide)
  rw [capWord, toNat_append_eq_add, BitVec.toNat_ofNat, BitVec.toNat_ofNat, Nat.mod_eq_of_lt hn, Nat.mod_eq_of_lt ht]

/-- Settles O4: the reset device is the table, and every reset move gives the reset device. -/
theorem resetSetsEveryComponent : Obligations.ResetSetsEveryComponent :=
  ⟨rfl, rfl, rfl, rfl, rfl, rfl, rfl, rfl, blockBytes_zero, blockBytes_zero, rfl, rfl, rfl, rfl, rfl, rfl, rfl, rfl,
    rfl, rfl, rfl, rfl, rfl, rfl, rfl, Vector.toList_replicate, fun _ => ⟨rfl, rfl, rfl⟩, rfl, rfl,
    fun _ => toNat_capWord, fun _ _ h => ⟨_, step_reset h, rfl⟩⟩

/-! ### Commands straight after reset (R255) -/

/-- The error a command gets at the reset device, where KEYLEN and RADIX are 0. -/
def resetError (c : BitVec 4) : ErrorCode :=
  if c = 0#4 ∨ 6 < c.toNat then .illegalCommand
  else if usesCipher c then .invalidKeyLength
  else .invalidRadix

theorem registerError_start_reset (c rd : BitVec 4) :
    registerError Config.params (Device.reset.start c rd) = some (resetError c) := by
  have hkey : ¬ Device.reset.KeyLegal := by decide
  have hradix : ¬ Device.reset.RadixLegal := by decide
  simp only [registerError_start, hkey, hradix, not_false_eq_true, and_true, if_true, resetError, apply_ite some]

theorem exec_of_reset {s : State} (h : s.dev = Device.reset) (i : Instr) :
    ∃ t, exec i s = .next t ∧ ErrorEnd i.cmd i.round 0 (resetError i.cmd) 0 s t := by
  have hi : s.dev.Idle := by rw [h]; exact ⟨rfl, rfl⟩
  have hr : registerError Config.params (s.dev.start i.cmd i.round) = some (resetError i.cmd) := by
    rw [h, registerError_start_reset]
  obtain ⟨t, hexec, hend, -⟩ := exec_of_registerError hi hr
  exact ⟨t, hexec, hend⟩

/-- Settles O21: `resetError` is R255's list, command by command. -/
theorem freshMachineFailsEveryCommand : Obligations.FreshMachineFailsEveryCommand := by
  intro rd s h
  refine ⟨?_, ?_, exec_of_reset h (.illegal 0 rd)⟩
  · rintro i (rfl | rfl | rfl | rfl)
    · exact exec_of_reset h (.enc rd)
    · exact exec_of_reset h (.dec rd)
    · exact exec_of_reset h (.prf rd)
    · exact exec_of_reset h (.ivgen rd)
  · rintro i (rfl | rfl)
    · exact exec_of_reset h (.madd rd)
    · exact exec_of_reset h (.msub rd)

end Sys2Proof.Machine
end
